-- ==== Sys2Proof/Word.lean ====
section
/-! DEFINITION. The word types of the block and the plain names its transactions use. -/

namespace Sys2Proof

/-- A "u64": every register and every table entry is exactly 64 bits (R10, R20, decision D2). -/
abbrev Word := BitVec 64

/-- A "u8" or "byte": a data byte, an IMM8, or a table index 0..255 (R10). -/
abbrev Byte := BitVec 8

/-- One host register-window transaction, 79 bits: SIZE[78:77], DIR[76], OFFSET[75:64],
DATA[63:0] (R90). -/
abbrev Transaction := BitVec 79

/-- A byte offset in the register window, 0x000..0xFFF (R61, R90). -/
abbrev Offset := BitVec 12

/-- The SIZE field of a transaction (R90). -/
inductive AccessSize where
  /-- SIZE = 00 -/
  | one
  /-- SIZE = 01 -/
  | two
  /-- SIZE = 10 -/
  | four
  /-- SIZE = 11, the only size ever admitted (R62) -/
  | eight
deriving DecidableEq, Repr

/-- The direction of a host access, the DIR field of a transaction (R90). -/
inductive Direction where
  /-- DIR = 0 -/
  | read
  /-- DIR = 1 -/
  | write
deriving DecidableEq, Repr

end Sys2Proof
end

