-- ==== Sys2Proof/Syntax.lean ====
section
/-! DEFINITION. The operations of the block: one constructor for every row of spec/opcode_table.json. -/

namespace Sys2Proof

/-- The fourteen commands of the opcode map (R93) and the two host register accesses (R220, R221). A
command takes its other operands from fixed registers (R94). -/
inductive Instr where
  /-- REFLECT, OPC 0x01 (R132) -/
  | reflect
  /-- SETUP_POLY, OPC 0x02 (R151) -/
  | setupPoly
  /-- SETUP_STATE, OPC 0x03 (R152) -/
  | setupState
  /-- UPDATE b, OPC 0x04, IMM8 = b (R161) -/
  | update (b : Byte)
  /-- RESULT, OPC 0x05 (R173) -/
  | result
  /-- CRC, OPC 0x06 (R181) -/
  | crc
  /-- TABLE_INIT, OPC 0x07 (R191) -/
  | tableInit
  /-- TABLE_UPDATE b, OPC 0x08, IMM8 = b (R201) -/
  | tableUpdate (b : Byte)
  /-- TABLE_CRC, OPC 0x09 (R211) -/
  | tableCrc
  /-- MASK, OPC 0x0A (R172) -/
  | mask
  /-- REFLECT8, OPC 0x0B (R133) -/
  | reflect8
  /-- REFLECT16, OPC 0x0C (R134) -/
  | reflect16
  /-- REFLECT32, OPC 0x0D (R135) -/
  | reflect32
  /-- REFLECT64, OPC 0x0E (R136) -/
  | reflect64
  /-- WR: a host write of `d` at window offset `off` (R220). The size is an operand, because a write of
  another size than 8 bytes has an outcome too: BAD_ACCESS (R97). -/
  | wr (size : AccessSize) (off : Offset) (d : Word)
  /-- RD: a host read at window offset `off` (R221), of any size (R97). -/
  | rd (size : AccessSize) (off : Offset)
deriving DecidableEq, Repr

end Sys2Proof
end

