-- ==== Sys2Proof/WellFormed.lean ====
section
/-! DEFINITION. Which instructions are well formed: written in their one canonical form. -/

namespace Sys2Proof

/-- The window offset of CMD (R20). -/
def cmdOffset : Offset := 0x060#12

/-- Whether the write data `d` of a CMD write is a legal command word: R96 gives the illegal ones. -/
def legalCommandData (d : Word) : Bool :=
  d.extractLsb' 32 32 == 0#32 &&
  d.extractLsb' 8 16 == 0#16 &&
  decide (1 ≤ (d.extractLsb' 24 8).toNat ∧ (d.extractLsb' 24 8).toNat ≤ 14) &&
  (d.extractLsb' 24 8 == 0x04#8 || d.extractLsb' 24 8 == 0x08#8 || d.extractLsb' 0 8 == 0#8)

/-- The one check: an 8-byte write to CMD of a LEGAL command word is written as that command
(`CMD <mnemonic>`, R99), not as WR (log entry 9). Every other combination of fields is a form of its
own. -/
def Instr.wf : Instr → Bool
  | .wr .eight off d => !(off == cmdOffset && legalCommandData d)
  | .reflect | .setupPoly | .setupState | .update _ | .result | .crc | .tableInit | .tableUpdate _
  | .tableCrc | .mask | .reflect8 | .reflect16 | .reflect32 | .reflect64
  | .wr .one _ _ | .wr .two _ _ | .wr .four _ _ | .rd _ _ => true

/-- The operations that are commands: everything but WR and RD. -/
def Instr.isCommand : Instr → Bool
  | .wr _ _ _ | .rd _ _ => false
  | .reflect | .setupPoly | .setupState | .update _ | .result | .crc | .tableInit | .tableUpdate _
  | .tableCrc | .mask | .reflect8 | .reflect16 | .reflect32 | .reflect64 => true

end Sys2Proof
end

