-- ==== Sys2Proof/Decode.lean ====
section
/-! DEFINITION. Decoding a command word and a host transaction, total and rejecting by name, and the encoder,
from 30_encoding.md. -/

namespace Sys2Proof

/-! ### Command words -/

/-- Why a CMD write's data is no command (R92, R96), in the order R92 checks. All four raise
ILLEGAL_CMD. -/
inductive DecodeError where
  /-- bits [63:32] of the CMD write data are not 0 -/
  | highBitsNonzero
  /-- OPC is 0x00 or 0x0F..0xFF -/
  | reservedOpcode
  /-- RSV, bits [23:8], is not 0 -/
  | reservedNonzero
  /-- IMM8 is not 0 in a command other than UPDATE and TABLE_UPDATE -/
  | immediateNonzero
deriving DecidableEq, Repr

/-- The opcode map (R93). `b` is IMM8; only UPDATE and TABLE_UPDATE use it. -/
def opcodeMap (opc : Byte) (b : Byte) : Option Instr :=
  match opc.toNat with
  | 0x01 => some .reflect
  | 0x02 => some .setupPoly
  | 0x03 => some .setupState
  | 0x04 => some (.update b)
  | 0x05 => some .result
  | 0x06 => some .crc
  | 0x07 => some .tableInit
  | 0x08 => some (.tableUpdate b)
  | 0x09 => some .tableCrc
  | 0x0A => some .mask
  | 0x0B => some .reflect8
  | 0x0C => some .reflect16
  | 0x0D => some .reflect32
  | 0x0E => some .reflect64
  | _ => none

/-- Command decoding of the write data `d` of a CMD write (R91, R92). -/
def decodeCommand (d : Word) : Except DecodeError Instr :=
  if d.extractLsb' 32 32 ≠ 0#32 then .error .highBitsNonzero
  else
    match opcodeMap (d.extractLsb' 24 8) (d.extractLsb' 0 8) with
    | none => .error .reservedOpcode
    | some i =>
      if d.extractLsb' 8 16 ≠ 0#16 then .error .reservedNonzero
      else if d.extractLsb' 24 8 ≠ 0x04#8 ∧ d.extractLsb' 24 8 ≠ 0x08#8 ∧ d.extractLsb' 0 8 ≠ 0#8 then
        .error .immediateNonzero
      else .ok i

/-! ### Transactions -/

/-- SIZE (R90). -/
def sizeOfField (z : BitVec 2) : AccessSize :=
  match z.toNat with
  | 0 => .one
  | 1 => .two
  | 2 => .four
  | _ => .eight

/-- The write whose fields are given: a legal CMD write is its command, anything else is WR (R92, R99,
log entry 9). -/
def decodeWrite (size : AccessSize) (off : Offset) (d : Word) : Instr :=
  if size = .eight ∧ off = cmdOffset then
    match decodeCommand d with
    | .ok i => i
    | .error _ => .wr size off d
  else .wr size off d

/-- A transaction's operation (R90, R98). Total: every transaction has an outcome (R260 (4)). The DATA field of
a read is not looked at (log entry 8). -/
def decodeTransaction (t : Transaction) : Instr :=
  if t.getLsbD 76 then
    decodeWrite (sizeOfField (t.extractLsb' 77 2)) (t.extractLsb' 64 12) (t.extractLsb' 0 64)
  else .rd (sizeOfField (t.extractLsb' 77 2)) (t.extractLsb' 64 12)

/-! ### The encoder -/

/-- SIZE's two bits (R90). -/
def sizeField : AccessSize → BitVec 2
  | .one => 0b00#2
  | .two => 0b01#2
  | .four => 0b10#2
  | .eight => 0b11#2

/-- A transaction from its four fields (R90). -/
def transactionOf (size : AccessSize) (dir : Direction) (off : Offset) (d : Word) : Transaction :=
  sizeField size ++ (if dir = .write then 1#1 else 0#1) ++ off ++ d

/-- A command word from OPC and IMM8, with RSV = 0 (R91). -/
def commandWordOf (opc : Byte) (imm : Byte) : BitVec 32 :=
  opc ++ 0#16 ++ imm

/-- The 32-bit command word of a command (R93), the FCMD its faults record (R240). WR and RD have
none, and 0 stands for it (a BAD_ACCESS records FCMD = 0, R32). -/
def commandWord : Instr → BitVec 32
  | .reflect => commandWordOf 0x01#8 0#8
  | .setupPoly => commandWordOf 0x02#8 0#8
  | .setupState => commandWordOf 0x03#8 0#8
  | .update b => commandWordOf 0x04#8 b
  | .result => commandWordOf 0x05#8 0#8
  | .crc => commandWordOf 0x06#8 0#8
  | .tableInit => commandWordOf 0x07#8 0#8
  | .tableUpdate b => commandWordOf 0x08#8 b
  | .tableCrc => commandWordOf 0x09#8 0#8
  | .mask => commandWordOf 0x0A#8 0#8
  | .reflect8 => commandWordOf 0x0B#8 0#8
  | .reflect16 => commandWordOf 0x0C#8 0#8
  | .reflect32 => commandWordOf 0x0D#8 0#8
  | .reflect64 => commandWordOf 0x0E#8 0#8
  | .wr _ _ _ | .rd _ _ => 0#32

/-- The CMD write that issues a command: `3/1/060/<word>` (R99). -/
def cmdWrite (word : BitVec 32) : Transaction :=
  transactionOf .eight .write cmdOffset (word.setWidth 64)

/-- The transaction of an instruction (R90, R93, R99). -/
def encode : Instr → Transaction
  | .wr size off d => transactionOf size .write off d
  | .rd size off => transactionOf size .read off 0#64
  | .reflect => cmdWrite (commandWord .reflect)
  | .setupPoly => cmdWrite (commandWord .setupPoly)
  | .setupState => cmdWrite (commandWord .setupState)
  | .update b => cmdWrite (commandWord (.update b))
  | .result => cmdWrite (commandWord .result)
  | .crc => cmdWrite (commandWord .crc)
  | .tableInit => cmdWrite (commandWord .tableInit)
  | .tableUpdate b => cmdWrite (commandWord (.tableUpdate b))
  | .tableCrc => cmdWrite (commandWord .tableCrc)
  | .mask => cmdWrite (commandWord .mask)
  | .reflect8 => cmdWrite (commandWord .reflect8)
  | .reflect16 => cmdWrite (commandWord .reflect16)
  | .reflect32 => cmdWrite (commandWord .reflect32)
  | .reflect64 => cmdWrite (commandWord .reflect64)

/-! ### The table's words -/

/-- The transaction that carries the word `w` of an opcode-table row: a CMD32 row's word (at most 64
bits, with the CMD write data's upper half) is the data of an 8-byte CMD write (R91), a HOST79 row's is the
transaction itself (log entry 10). -/
def tableTransaction (nbits w : Nat) : Transaction :=
  if nbits ≤ 64 then transactionOf .eight .write cmdOffset (BitVec.ofNat 64 w)
  else BitVec.ofNat 79 w

/-- The instruction of an opcode-table word: a CMD32 word through the command decoder, a HOST79 word through
the transaction decoder; none where the decoder refuses, or where `w` has a bit above the format's (log
entry 10). -/
def decodeTableWord (nbits w : Nat) : Option Instr :=
  if nbits ≤ 64 then
    if w < 2 ^ 64 then
      match decodeCommand (BitVec.ofNat 64 w) with
      | .ok i => some i
      | .error _ => none
    else none
  else if w < 2 ^ 79 then some (decodeTransaction (BitVec.ofNat 79 w))
  else none

end Sys2Proof
end

