-- ==== Sys2Proof/Machine/Engine.lean ====
section
/-! DEFINITION. The block's arithmetic: the pure functions of the Reflector, the Normalizer, the update engines, the
Finalizer and the Table Builder, on u64 values modulo 2^64 (R10 to R16). `W` is 1..64 and `RF` is
CFG.REFL. -/

namespace Sys2Proof.Machine

/-! ### Reflector -/

/-- `rev(w, v)`: bit i of the result is bit w-1-i of v for i < w, and 0 for i ≥ w (R13). -/
def rev : Nat → Word → Word
  | 0, _ => 0#64
  | w + 1, v => ((v &&& 1#64) <<< w) ||| rev w (v >>> 1)

/-- `reflect(W, v)` (R16, R130). -/
def reflect (W : Nat) (v : Word) : Word := rev W v

/-- The smallest lane with S ≥ W (R16, decision D26). Which lane is used is not observable (R131). -/
def lane (W : Nat) : Nat :=
  if W ≤ 8 then 8 else if W ≤ 16 then 16 else if W ≤ 32 then 32 else 64

/-- `lowmask(w)`: the low w bits set, computed without a shift by 64 (R12). -/
def lowmask (w : Nat) : Word :=
  if 64 ≤ w then BitVec.allOnes 64 else (1#64 <<< w) - 1#64

/-- The lane of S bits: its S-bit input reversed, then shifted right by S - W (R131, R133 to R136). -/
def laneReflect (S W : Nat) (v : Word) : Word := rev S (v &&& lowmask S) >>> (S - W)

/-- One stage of the swap network: groups of bits exchanged with their neighbours, the mask cut to the low S bits
(R137). -/
def swapStage (S shift : Nat) (m : Word) (v : Word) : Word :=
  ((v >>> shift) &&& (m &&& lowmask S)) ||| ((v &&& (m &&& lowmask S)) <<< shift)

/-- The six stages' shifts and masks (R137, from general knowledge as the spec says). -/
def swapStages : List (Nat × Word) :=
  [(1, 0x5555555555555555#64), (2, 0x3333333333333333#64), (4, 0x0F0F0F0F0F0F0F0F#64),
   (8, 0x00FF00FF00FF00FF#64), (16, 0x0000FFFF0000FFFF#64), (32, 0x00000000FFFFFFFF#64)]

/-- The swap network of the lane of S bits: the stages whose shift is below S, in order (R137, informative;
R130 is normative). -/
def swapNetwork (S : Nat) (v : Word) : Word :=
  (swapStages.filter fun p => decide (p.1 < S)).foldl (fun x p => swapStage S p.1 p.2 x) v

/-! ### Normalizer -/

/-- `norm(W, RF, v)` (R150). -/
def normOf (W : Nat) (RF : Bool) (v : Word) : Word :=
  if RF then reflect W v else if W < 8 then v <<< (8 - W) else v

/-! ### Bitwise Update Engine -/

/-- A reflected micro-step: shift right, then XOR p if the bit shifted out was 1 (R160). -/
def microRight (p s : Word) : Word := if s.getLsbD 0 then (s >>> 1) ^^^ p else s >>> 1

/-- A non-reflected micro-step that tests bit `t` before it shifts left (R160). -/
def microLeft (t : Nat) (p s : Word) : Word := if s.getLsbD t then (s <<< 1) ^^^ p else s <<< 1

/-- `upd(W, RF, p, s, b)` (R160), eight micro-steps of its mode. -/
def upd (W : Nat) (RF : Bool) (p s : Word) (b : Byte) : Word :=
  if RF then (microRight p)^[8] (s ^^^ b.setWidth 64)
  else if W < 8 then (microLeft 7 p)^[8] (s ^^^ b.setWidth 64)
  else (microLeft (W - 1) p)^[8] (s ^^^ (b.setWidth 64 <<< (W - 8)))

/-! ### Finalizer -/

/-- `mask(W, RF, v)` (R16, R170; the W < 8 arm as 90_conflicts.md C1 resolves it). -/
def mask (W : Nat) (RF : Bool) (v : Word) : Word :=
  if RF then v else if W < 8 then v &&& 0xFF#64 else v &&& lowmask W

/-- `fin(W, RF, xo, s)` (R171). -/
def fin (W : Nat) (RF : Bool) (xo s : Word) : Word :=
  if RF then s ^^^ xo
  else if W < 8 then ((s &&& 0xFF#64) >>> (8 - W)) ^^^ xo
  else (s &&& lowmask W) ^^^ xo

/-! ### Table Builder -/

/-- An entry of the table for the normalized polynomial p (R190, R191). -/
def tableEntry (W : Nat) (RF : Bool) (p : Word) (i : Byte) : Word := mask W RF (upd W RF p 0#64 i)

/-- `tbl(W, RF, poly)[i]` (R190). -/
def tbl (W : Nat) (RF : Bool) (poly : Word) (i : Byte) : Word := tableEntry W RF (normOf W RF poly) i

/-! ### Table-Driven Update Engine -/

/-- The index a table lookup uses; an index above 255, which only the "width ≤ 8" arm can give, is answered as
the error (R200, decision D11). -/
def tableIndex (W : Nat) (RF : Bool) (s : Word) (b : Byte) : Except Word Byte :=
  if RF then .ok ((b.setWidth 64 ^^^ s).setWidth 8)
  else if W ≤ 8 then
    if 255#64 < b.setWidth 64 ^^^ s then .error (b.setWidth 64 ^^^ s)
    else .ok ((b.setWidth 64 ^^^ s).setWidth 8)
  else .ok ((b.setWidth 64 ^^^ (s >>> (W - 8))).setWidth 8)

/-- The new state from the entry looked up (R200). -/
def tableCombine (W : Nat) (RF : Bool) (entry s : Word) : Word :=
  if RF then entry ^^^ (s >>> 8) else if W ≤ 8 then entry else entry ^^^ (s <<< 8)

/-- `tupd(W, RF, T, s, b)` (R200); TABLE_INDEX is the error. -/
def tupd (W : Nat) (RF : Bool) (T : Byte → Word) (s : Word) (b : Byte) : Except Word Word :=
  match tableIndex W RF s b with
  | .error idx => .error idx
  | .ok i => .ok (tableCombine W RF (T i) s)

/-! ### One-shot functions -/

/-- `crc(W, RF, poly, iv, xo, d)` (R180). -/
def crcOf (W : Nat) (RF : Bool) (poly iv xo : Word) (d : List Byte) : Word :=
  fin W RF xo (d.foldl (upd W RF (normOf W RF poly)) (normOf W RF iv))

/-- The table-driven state after the bytes of `d` (R210), or the TABLE_INDEX of the first byte that has no
entry. -/
def tupdAll (W : Nat) (RF : Bool) (T : Byte → Word) : Word → List Byte → Except Word Word
  | s, [] => .ok s
  | s, b :: d =>
    match tupd W RF T s b with
    | .error idx => .error idx
    | .ok s' => tupdAll W RF T s' d

/-- `tcrc(W, RF, T, iv, xo, d)` (R210). -/
def tcrcOf (W : Nat) (RF : Bool) (T : Byte → Word) (iv xo : Word) (d : List Byte) : Except Word Word :=
  match tupdAll W RF T (normOf W RF iv) d with
  | .error idx => .error idx
  | .ok s => .ok (fin W RF xo s)

end Sys2Proof.Machine
end

