-- ==== Sys2Proof/Config.lean ====
section
/-! DEFINITION. What the platform fixes, and the values the spec leaves unspecified. -/

namespace Sys2Proof

/-- The nine registers whose value after reset the spec leaves unspecified (R41, R42). -/
inductive DataReg where
  | poly | iv | xorout | value | npoly | state | out | addr | len
deriving DecidableEq, Repr

/-- What carries a "written since reset" mark: one of the nine registers, or a table entry
(R41). -/
inductive Source where
  | reg (r : DataReg)
  | entry (i : Byte)
deriving DecidableEq, Repr

namespace Config

/-- ADDR_W's default (R9, decision D15). The parameter itself is the field `addrW` of State, so that a
statement holds for every platform. -/
def defaultAddrW : Nat := 64

/-- MMIO_BASE: where the host sees the register window (R9, decision D35). No rule of the block reads it. -/
opaque mmioBase : Nat

/-- FREE VALUE (log entries 2 and 4). What a register or table entry holds after the `epoch`-th reset, until
something is written there: "unspecified" (R42), "the value left by reset" (93, S1). It has no
body, so nothing can be proved of it. -/
opaque unspecified (epoch : Nat) (source : Source) : Word

end Config
end Sys2Proof
end

