-- ==== Sys2Proof/Machine/State.lean ====
section
/-! DEFINITION. The state of the block as plain data, its state after reset, and the reasons a step can stop. -/

namespace Sys2Proof.Machine

/-- A register or table entry that carries a written mark (R41): its 64 bits, and whether anything has been
written there since reset. -/
structure Slot where
  val : Word
  written : Bool
deriving DecidableEq, Repr

/-- DMEM, the platform's data memory (R61): the bytes the platform backs, as (address, byte) pairs, addresses
strictly rising. `DMEM_ADMITS(a)` holds exactly of the listed addresses (R63, log entry 5), so an unlisted
address reads as no value. -/
abbrev Memory := List Host.Cell

/-- What reaches the block from outside: one host transaction (R60, R90), the platform's reset input (R280), or a
byte that the platform stores in DMEM between two operations (R61, R72, log entry 7). -/
inductive Input where
  | transaction (t : Transaction)
  | reset
  | dmem (a : Nat) (v : Byte)
deriving DecidableEq, Repr

/-- The state: the block's registers and table (R20), the platform's memory and address width (R9, R63), and the
run's own data: the inputs still to come, the values RD returned (R296), the resets so far (log entry 4) and
the first unwritten read (R250, log entry 2). -/
structure State where
  cfg : Word
  poly : Slot
  iv : Slot
  xorout : Slot
  value : Slot
  npoly : Slot
  state : Slot
  out : Slot
  addr : Slot
  len : Slot
  status : Word
  faddr : Word
  table : Vector Slot 256
  dmem : Memory
  addrW : Nat
  inputs : List Input
  observed : List Word
  epoch : Nat
  unwrittenRead : Option Source
deriving DecidableEq, Repr

/-- Why a run ends in the strict reading of the spec's model-only fault. `Machine.step` itself never answers
with a fault: the block's own seven faults are recorded in STATUS and FADDR and the block goes on (R243,
R245), and it can neither hang nor get stuck (R260, R261). -/
inductive Fault where
  /-- UNWRITTEN_READ (R250): a command or host read read a register or table entry that nothing has written
  since reset. Raised by `Machine.strictStep` only (log entry 2). Safe: the hardware goes on with an
  unspecified value. -/
  | unwrittenRead (source : Source)
deriving DecidableEq, Repr

/-- Why a step has no meaning. The block refuses nothing: every transaction has a defined outcome
(R260 (4)). -/
inductive Refusal where
  /-- An arm of `exec` whose instruction has no meaning yet, by its mnemonic. Raised by such arms of
  `exec` only, and there is none. Safe. -/
  | notModelled (mnemonic : String)
deriving DecidableEq, Repr

/-- A register or entry that nothing has written since reset (R42). The stored 0 is a placeholder that no
instruction reads: reading it gives `Config.unspecified` (log entry 3). -/
def Slot.unwritten : Slot := { val := 0#64, written := false }

/-- A register or entry just written with `v` (R41). -/
def Slot.of (v : Word) : Slot := { val := v, written := true }

/-- The block right after reset: CFG = STATUS = FADDR = 0 and every written mark clear (R42, R280); no
input yet, nothing observed (R295). DMEM is not block state: nothing is listed (log entry 5), and ADDR_W has
its default (R9). -/
def State.reset : State where
  cfg := 0#64
  poly := Slot.unwritten
  iv := Slot.unwritten
  xorout := Slot.unwritten
  value := Slot.unwritten
  npoly := Slot.unwritten
  state := Slot.unwritten
  out := Slot.unwritten
  addr := Slot.unwritten
  len := Slot.unwritten
  status := 0#64
  faddr := 0#64
  table := Vector.replicate 256 Slot.unwritten
  dmem := []
  addrW := Config.defaultAddrW
  inputs := []
  observed := []
  epoch := 0
  unwrittenRead := none

end Sys2Proof.Machine
end

