-- ==== Sys2Proof/Machine/Flags.lean ====
section
/-! DEFINITION. The block's only flag, STATUS.FAULT, and the other fields of STATUS (R32, R39, R240). No command sets
a condition code: the block has none. -/

namespace Sys2Proof.Machine

/-- The block's recorded faults (R240). -/
inductive FaultCode where
  | illegalCmd | widthRange | laneWidth | tableIndex | dataRange | dataRead | badAccess
deriving DecidableEq, Repr

/-- FCODE's numbers (R240). -/
def FaultCode.number : FaultCode → Byte
  | .illegalCmd => 0x01#8
  | .widthRange => 0x02#8
  | .laneWidth => 0x03#8
  | .tableIndex => 0x04#8
  | .dataRange => 0x05#8
  | .dataRead => 0x06#8
  | .badAccess => 0x07#8

/-- STATUS as fault entry writes it: FCMD[63:32], FCODE[15:8], FAULT[0], reserved bits 0 (R32, R243). -/
def statusWord (fcmd : BitVec 32) (code : FaultCode) : Word :=
  (fcmd.setWidth 64 <<< 32) ||| (code.number.setWidth 64 <<< 8) ||| 1#64

/-- STATUS.FAULT (R32). -/
def State.faulted (s : State) : Bool := s.status.getLsbD 0

/-- STATUS.FCODE (R32). -/
def State.fcode (s : State) : Byte := s.status.extractLsb' 8 8

/-- STATUS.FCMD (R32). -/
def State.fcmd (s : State) : BitVec 32 := s.status.extractLsb' 32 32

end Sys2Proof.Machine
end

