-- ==== Sys2Proof/Machine/Operands.lean ====
section
/-! DEFINITION. The operands of commands and host accesses: CFG's fields, the marked registers, the table entries,
and the places of the register window. -/

namespace Sys2Proof.Machine

/-! ### CFG -/

/-- W: CFG.WIDTH, bits [6:0] (R14, R21). -/
def State.width (s : State) : Nat := (s.cfg.extractLsb' 0 7).toNat

/-- RF: CFG.REFL, bit [7] (R14, R21). -/
def State.refl (s : State) : Bool := s.cfg.getLsbD 7

/-! ### Registers with a written mark -/

/-- The slot of a register (R20). -/
def State.slot (s : State) : DataReg → Slot
  | .poly => s.poly
  | .iv => s.iv
  | .xorout => s.xorout
  | .value => s.value
  | .npoly => s.npoly
  | .state => s.state
  | .out => s.out
  | .addr => s.addr
  | .len => s.len

/-- What reading a slot gives: its bits, or the free value where nothing was written since reset (R42, R250,
log entry 2). -/
def Slot.read (c : Slot) (free : Word) : Word := if c.written then c.val else free

/-- `x[NAME]` (R14). -/
def State.read (s : State) (r : DataReg) : Word :=
  (s.slot r).read (Config.unspecified s.epoch (.reg r))

/-- `x[NAME] <- v` (R14): all 64 bits are stored and the written mark is set (R41). -/
def State.write (s : State) (r : DataReg) (v : Word) : State :=
  match r with
  | .poly => { s with poly := Slot.of v }
  | .iv => { s with iv := Slot.of v }
  | .xorout => { s with xorout := Slot.of v }
  | .value => { s with value := Slot.of v }
  | .npoly => { s with npoly := Slot.of v }
  | .state => { s with state := Slot.of v }
  | .out => { s with out := Slot.of v }
  | .addr => { s with addr := Slot.of v }
  | .len => { s with len := Slot.of v }

/-! ### Table entries -/

/-- The slot of entry `i` (R35). -/
def State.entrySlot (s : State) (i : Byte) : Slot := s.table[i.toNat]'i.isLt

/-- `T[i]` (R14). -/
def State.readEntry (s : State) (i : Byte) : Word :=
  (s.entrySlot i).read (Config.unspecified s.epoch (.entry i))

/-- `T[i] <- v` (R14), with the entry's written mark (R41). -/
def State.writeEntry (s : State) (i : Byte) (v : Word) : State :=
  { s with table := s.table.set i.toNat (Slot.of v) i.isLt }

/-! ### Written marks -/

/-- Whether a register or entry has been written since reset (R41). -/
def State.isWritten (s : State) : Source → Bool
  | .reg r => (s.slot r).written
  | .entry i => (s.entrySlot i).written

/-- The unwritten read that reading `sources`, in that order, adds to the record `seen`: the first one made stays
(R247 step 6, R250). -/
def State.firstUnwritten (s : State) (seen : Option Source) (sources : List Source) : Option Source :=
  seen.or (sources.find? fun x => !s.isWritten x)

/-- Reading `sources`, in that order, as far as the run's record of unwritten reads goes (log entry 2). No
architectural state changes. -/
def State.noteReads (s : State) (sources : List Source) : State :=
  { s with unwrittenRead := s.firstUnwritten s.unwrittenRead sources }

/-! ### The register window -/

/-- What a mapped window offset holds (R20). -/
inductive Place where
  | cfg
  | reg (r : DataReg)
  | status
  | faddr
  | cmd
  | entry (i : Byte)
deriving DecidableEq, Repr

/-- The register map (R20, R68): the place at a window offset; none where it is unmapped (R61). -/
def placeAt (off : Offset) : Option Place :=
  match off.toNat with
  | 0x000 => some .cfg
  | 0x008 => some (.reg .poly)
  | 0x010 => some (.reg .iv)
  | 0x018 => some (.reg .xorout)
  | 0x020 => some (.reg .value)
  | 0x028 => some (.reg .npoly)
  | 0x030 => some (.reg .state)
  | 0x038 => some (.reg .out)
  | 0x040 => some (.reg .addr)
  | 0x048 => some (.reg .len)
  | 0x050 => some .status
  | 0x058 => some .faddr
  | 0x060 => some .cmd
  | n => if 0x800 ≤ n ∧ n % 8 = 0 then some (.entry (BitVec.ofNat 8 ((n - 0x800) / 8))) else none

/-- The host's access rights: RW, RO for OUT, STATUS and FADDR, WO for CMD (R20). -/
def Place.allows : Place → Direction → Bool
  | .cmd, .read => false
  | .cmd, .write => true
  | .reg .out, .write => false
  | .reg .out, .read => true
  | .status, .write => false
  | .status, .read => true
  | .faddr, .write => false
  | .faddr, .read => true
  | .cfg, _ => true
  | .reg .poly, _ => true
  | .reg .iv, _ => true
  | .reg .xorout, _ => true
  | .reg .value, _ => true
  | .reg .npoly, _ => true
  | .reg .state, _ => true
  | .reg .addr, _ => true
  | .reg .len, _ => true
  | .entry _, _ => true

/-- Access admission (R62): 8 bytes, an offset that is a multiple of 8, mapped, and a direction the place
allows. Answers the place of an admitted access. -/
def admitted (size : AccessSize) (off : Offset) (dir : Direction) : Option Place :=
  if size = .eight ∧ off.toNat % 8 = 0 then (placeAt off).filter (·.allows dir) else none

/-- The marked source a host read of the place reads, if it has a mark (R41). -/
def Place.sources : Place → List Source
  | .reg r => [.reg r]
  | .entry i => [.entry i]
  | .cfg | .status | .faddr | .cmd => []

/-- The value of a place that a host read returns (R221). CMD is not storage and no read of it is admitted
(R34). -/
def State.readPlace (s : State) : Place → Word
  | .cfg => s.cfg
  | .reg r => s.read r
  | .status => s.status
  | .faddr => s.faddr
  | .entry i => s.readEntry i
  | .cmd => 0#64

end Sys2Proof.Machine
end

