-- ==== Sys2Proof/Machine/Ops.lean ====
section
/-! DEFINITION. The shared operations: DMEM, taking a fault and the reset that ends it, the prologue every
command runs, and the walk over a data buffer. -/

namespace Sys2Proof.Machine

/-! ### DMEM -/

/-- The byte at an address; none where the platform does not back it. -/
def Memory.read : Memory → Nat → Option Byte
  | [], _ => none
  | (b, v) :: m, a => if b = a then some v else Memory.read m a

/-- The canonical form: addresses strictly rising. -/
def Memory.wf : Memory → Bool
  | [] => true
  | [_] => true
  | (a, _) :: (b, w) :: m => decide (a < b) && Memory.wf ((b, w) :: m)

/-- DMEM with byte `v` at address `a`. -/
def Memory.place : Memory → Nat → Byte → Memory
  | [], a, v => [(a, v)]
  | (b, w) :: m, a, v =>
    if a < b then (a, v) :: (b, w) :: m
    else if a = b then (a, v) :: m
    else (b, w) :: Memory.place m a v

/-- The PLATFORM stores byte `v` at DMEM address `a`, which it backs from then on (R295: "a DMEM given by the
platform"; log entries 5 and 7). No operation of the block does this: the core never writes DMEM (R14). -/
def State.platformStore (s : State) (a : Nat) (v : Byte) : State := { s with dmem := s.dmem.place a v }

/-- DMEM_ADMITS(a): the platform backs the address (R63, log entry 5). -/
def Memory.admits (m : Memory) (a : Nat) : Bool := (m.read a).isSome

/-- `MemRead(a, 1)` (R63): the byte at `a` if `a < 2^ADDR_W` and DMEM_ADMITS(a); none is a refused read. -/
def State.memRead (s : State) (a : Nat) : Option Byte :=
  if a < 2 ^ s.addrW then s.dmem.read a else none

/-! ### Faults and reset -/

/-- Fault entry, `raise Fault(code, faddr)` in an operation with FAULT = 0 (R243): STATUS and FADDR are
written and nothing else changes. `fcmd` is the command word, or 0 for BAD_ACCESS. -/
def State.raiseFault (s : State) (code : FaultCode) (fcmd : BitVec 32) (faddr : Word) : State :=
  { s with status := statusWord fcmd code, faddr := faddr }

/-- The platform's reset input (R280), the only way FAULT is ever cleared (R245): the block's registers, table
and marks as R42 says. DMEM is not touched (R281); what is the platform's or the run's own stays, and the
unspecified values are new ones (log entries 4 and 12). -/
def State.resetBlock (s : State) : State :=
  { State.reset with
    dmem := s.dmem
    addrW := s.addrW
    inputs := s.inputs
    observed := s.observed
    epoch := s.epoch + 1
    unwrittenRead := s.unwrittenRead }

/-! ### What the host sees -/

/-- A RD returns `v` to the host: it joins the run's observation (R296). -/
def State.observe (s : State) (v : Word) : State := { s with observed := s.observed ++ [v] }

/-! ### The command prologue -/

/-- W ∈ 1..64 (R21, R246). -/
def State.widthLegal (s : State) : Bool := decide (1 ≤ s.width ∧ s.width ≤ 64)

/-- What every command does around its own work, in the order of R247: ignored when FAULT = 1 (R245);
WIDTH_RANGE (R246); LANE_WIDTH when W is above the lane (R133 to R135; 64 for a command that has no lane of its
own, so that it cannot arise); then the register reads `reads` in the order of the command's rule; then its
own work. -/
def withCommand (word : BitVec 32) (laneBits : Nat) (reads : List DataReg) (s : State)
    (body : State → State) : Host.Outcome State Fault Refusal :=
  if s.faulted then .next s
  else if !s.widthLegal then .next (s.raiseFault .widthRange word 0#64)
  else if laneBits < s.width then .next (s.raiseFault .laneWidth word 0#64)
  else .next (body (s.noteReads (reads.map .reg)))

/-! ### What the prologue of each command is given -/

/-- The lane a command checks W against (R133 to R135); 64 where it has no check of its own. -/
def commandLane : Instr → Nat
  | .reflect8 => 8
  | .reflect16 => 16
  | .reflect32 => 32
  | _ => 64

/-- The registers a command reads, in the order of its rule (R247 step 6). -/
def commandReads : Instr → List DataReg
  | .reflect | .reflect8 | .reflect16 | .reflect32 | .reflect64 | .mask => [.value]
  | .setupPoly | .tableInit => [.poly]
  | .setupState => [.iv]
  | .update _ => [.npoly, .state]
  | .result => [.xorout, .state]
  | .crc => [.poly, .iv, .xorout, .addr, .len]
  | .tableUpdate _ => [.state]
  | .tableCrc => [.iv, .xorout, .addr, .len]
  | .wr _ _ _ | .rd _ _ => []

/-! ### Walking a data buffer -/

/-- A CRC state on its way through a command: private to the command (R181, R211), with the run's record of
unwritten reads beside it. -/
structure Walk where
  crc : Word
  unwritten : Option Source
deriving DecidableEq, Repr

/-- Why a walk ended early: the fault it raises, and the record of unwritten reads made before it. -/
structure Abort where
  code : FaultCode
  faddr : Word
  unwritten : Option Source
deriving DecidableEq, Repr

/-- One byte of the bitwise path (R160). -/
def bitwiseStep (W : Nat) (RF : Bool) (p : Word) (w : Walk) (d : Byte) : Except Abort Walk :=
  .ok { w with crc := upd W RF p w.crc d }

/-- One byte of the table path (R200): the TABLE_INDEX check, then the read of one entry (R247 step 8). -/
def State.tableStep (s : State) (w : Walk) (d : Byte) : Except Abort Walk :=
  match tableIndex s.width s.refl w.crc d with
  | .error idx => .error { code := .tableIndex, faddr := idx, unwritten := w.unwritten }
  | .ok i =>
    .ok { crc := tableCombine s.width s.refl (s.readEntry i) w.crc
          unwritten := s.firstUnwritten w.unwritten [.entry i] }

/-- Fold the n bytes from address a, in ascending order, each read just before it is used (R64, R247 step 8). A
refused read is DATA_READ at that byte. -/
def State.walkBuffer (s : State) (f : Walk → Byte → Except Abort Walk) :
    Nat → Nat → Walk → Except Abort Walk
  | _, 0, w => .ok w
  | a, n + 1, w =>
    match s.memRead a with
    | none => .error { code := .dataRead, faddr := BitVec.ofNat 64 a, unwritten := w.unwritten }
    | some d =>
      match f w d with
      | .error e => .error e
      | .ok w' => State.walkBuffer s f (a + 1) n w'

/-- The end of a command that walked: its result is written, or the fault is taken and nothing is
(R15, R244). -/
def State.finishWalk (s : State) (word : BitVec 32) (r : Except Abort Walk) (write : State → Word → State) :
    State :=
  match r with
  | .ok w => write { s with unwrittenRead := w.unwritten } w.crc
  | .error e => { s with unwrittenRead := e.unwritten }.raiseFault e.code word e.faddr

/-- The one-shot commands' walk over [ADDR, ADDR + LEN) from the state that IV gives: DATA_RANGE before the first
read (R64), then the bytes, then the Finalizer into OUT (R181, R211). -/
def State.oneShot (s : State) (word : BitVec 32) (f : Walk → Byte → Except Abort Walk) : State :=
  if 0 < (s.read .len).toNat ∧ 2 ^ s.addrW < (s.read .addr).toNat + (s.read .len).toNat then
    s.raiseFault .dataRange word (s.read .addr)
  else
    s.finishWalk word
      (s.walkBuffer f (s.read .addr).toNat (s.read .len).toNat
        { crc := normOf s.width s.refl (s.read .iv), unwritten := s.unwrittenRead })
      fun t c => t.write .out (fin s.width s.refl (s.read .xorout) c)

end Sys2Proof.Machine
end

