-- ==== Sys2Proof/Machine/Bitwise.lean ====
section
/-! DEFINITION. UPDATE (43_bitwise_update.md) and CRC (45_oneshot_bitwise.md). -/

namespace Sys2Proof.Machine

/-- UPDATE b (R161). -/
def execUpdate (b : Byte) (s : State) : Host.Outcome State Fault Refusal :=
  withCommand (commandWord (.update b)) 64 [.npoly, .state] s fun t =>
    t.write .state (upd t.width t.refl (t.read .npoly) (t.read .state) b)

/-- CRC (R181). -/
def execCrc (s : State) : Host.Outcome State Fault Refusal :=
  withCommand (commandWord .crc) 64 [.poly, .iv, .xorout, .addr, .len] s fun t =>
    t.oneShot (commandWord .crc)
      (bitwiseStep t.width t.refl (normOf t.width t.refl (t.read .poly)))

end Sys2Proof.Machine
end

