-- ==== Sys2Proof/Machine/Finalizer.lean ====
section
/-! DEFINITION. MASK and RESULT (44_finalizer.md). -/

namespace Sys2Proof.Machine

/-- MASK (R172). -/
def execMask (s : State) : Host.Outcome State Fault Refusal :=
  withCommand (commandWord .mask) 64 [.value] s fun t =>
    t.write .out (mask t.width t.refl (t.read .value))

/-- RESULT (R173). STATE is left unchanged. -/
def execResult (s : State) : Host.Outcome State Fault Refusal :=
  withCommand (commandWord .result) 64 [.xorout, .state] s fun t =>
    t.write .out (fin t.width t.refl (t.read .xorout) (t.read .state))

end Sys2Proof.Machine
end

