-- ==== Sys2Proof/Machine/Normalizer.lean ====
section
/-! DEFINITION. SETUP_POLY and SETUP_STATE (42_normalizer.md). -/

namespace Sys2Proof.Machine

/-- SETUP_POLY (R151). -/
def execSetupPoly (s : State) : Host.Outcome State Fault Refusal :=
  withCommand (commandWord .setupPoly) 64 [.poly] s fun t =>
    t.write .npoly (normOf t.width t.refl (t.read .poly))

/-- SETUP_STATE (R152). -/
def execSetupState (s : State) : Host.Outcome State Fault Refusal :=
  withCommand (commandWord .setupState) 64 [.iv] s fun t =>
    t.write .state (normOf t.width t.refl (t.read .iv))

end Sys2Proof.Machine
end

