-- ==== Sys2Proof/Machine/Reflector.lean ====
section
/-! DEFINITION. REFLECT, REFLECT8, REFLECT16, REFLECT32 and REFLECT64 (41_reflector.md). -/

namespace Sys2Proof.Machine

/-- The lane commands: OUT receives the lane's output for VALUE (R133 to R136). -/
def laneCommand (word : BitVec 32) (S : Nat) (s : State) : Host.Outcome State Fault Refusal :=
  withCommand word S [.value] s fun t => t.write .out (laneReflect S t.width (t.read .value))

/-- REFLECT (R132). -/
def execReflect (s : State) : Host.Outcome State Fault Refusal :=
  withCommand (commandWord .reflect) 64 [.value] s fun t =>
    t.write .out (reflect t.width (t.read .value))

/-- REFLECT8 (R133). -/
def execReflect8 (s : State) : Host.Outcome State Fault Refusal :=
  laneCommand (commandWord .reflect8) 8 s

/-- REFLECT16 (R134). -/
def execReflect16 (s : State) : Host.Outcome State Fault Refusal :=
  laneCommand (commandWord .reflect16) 16 s

/-- REFLECT32 (R135). -/
def execReflect32 (s : State) : Host.Outcome State Fault Refusal :=
  laneCommand (commandWord .reflect32) 32 s

/-- REFLECT64 (R136). -/
def execReflect64 (s : State) : Host.Outcome State Fault Refusal :=
  laneCommand (commandWord .reflect64) 64 s

end Sys2Proof.Machine
end

