-- ==== Sys2Proof/Machine/Table.lean ====
section
/-! DEFINITION. TABLE_INIT (46_table_builder.md), TABLE_UPDATE (47_table_update.md) and TABLE_CRC
(48_oneshot_table.md). -/

namespace Sys2Proof.Machine

/-- The 256 entries for the normalized polynomial p, every one written (R190, R191). -/
def builtTable (W : Nat) (RF : Bool) (p : Word) : Vector Slot 256 :=
  Vector.ofFn fun i => Slot.of (tableEntry W RF p (BitVec.ofNat 8 i.val))

/-- TABLE with every entry written as for the normalized polynomial p (R191). -/
def State.buildTable (s : State) (p : Word) : State :=
  { s with table := builtTable s.width s.refl p }

/-- TABLE_INIT (R191). -/
def execTableInit (s : State) : Host.Outcome State Fault Refusal :=
  withCommand (commandWord .tableInit) 64 [.poly] s fun t =>
    t.buildTable (normOf t.width t.refl (t.read .poly))

/-- TABLE_UPDATE b (R201). -/
def execTableUpdate (b : Byte) (s : State) : Host.Outcome State Fault Refusal :=
  withCommand (commandWord (.tableUpdate b)) 64 [.state] s fun t =>
    t.finishWalk (commandWord (.tableUpdate b))
      (t.tableStep { crc := t.read .state, unwritten := t.unwrittenRead } b)
      fun u c => u.write .state c

/-- TABLE_CRC (R211). -/
def execTableCrc (s : State) : Host.Outcome State Fault Refusal :=
  withCommand (commandWord .tableCrc) 64 [.iv, .xorout, .addr, .len] s fun t =>
    t.oneShot (commandWord .tableCrc) t.tableStep

end Sys2Proof.Machine
end

