-- ==== Sys2Proof/Machine/HostAccess.lean ====
section
/-! DEFINITION. WR and RD (49_host_access.md). -/

namespace Sys2Proof.Machine

/-- Run the family rule of a decoded command (R92). The command decoder never answers WR or RD. -/
def runCommand (i : Instr) (s : State) : Host.Outcome State Fault Refusal :=
  match i with
  | .reflect => execReflect s
  | .setupPoly => execSetupPoly s
  | .setupState => execSetupState s
  | .update b => execUpdate b s
  | .result => execResult s
  | .crc => execCrc s
  | .tableInit => execTableInit s
  | .tableUpdate b => execTableUpdate b s
  | .tableCrc => execTableCrc s
  | .mask => execMask s
  | .reflect8 => execReflect8 s
  | .reflect16 => execReflect16 s
  | .reflect32 => execReflect32 s
  | .reflect64 => execReflect64 s
  | .wr _ _ _ | .rd _ _ => .next s

/-- A CMD write of `d` with FAULT = 0: decode, then run the command or raise ILLEGAL_CMD with bits [31:0] of
`d` as FCMD (R92, R240). -/
def cmdWritten (d : Word) (s : State) : Host.Outcome State Fault Refusal :=
  match decodeCommand d with
  | .error _ => .next (s.raiseFault .illegalCmd (d.extractLsb' 0 32) 0#64)
  | .ok i => runCommand i s

/-- WR (R220): ignored when FAULT = 1; BAD_ACCESS unless admitted; then the write of its place. -/
def execWr (size : AccessSize) (off : Offset) (d : Word) (s : State) :
    Host.Outcome State Fault Refusal :=
  if s.faulted then .next s
  else
    match admitted size off .write with
    | none => .next (s.raiseFault .badAccess 0#32 (off.setWidth 64))
    | some .cfg => .next { s with cfg := d &&& 0xFF#64 }
    | some (.reg r) => .next (s.write r d)
    | some (.entry i) => .next (s.writeEntry i d)
    | some .cmd => cmdWritten d s
    | some .status => .next s
    | some .faddr => .next s

/-- RD (R221): served whatever FAULT is. A refused read returns 0, and raises BAD_ACCESS when FAULT = 0. -/
def execRd (size : AccessSize) (off : Offset) (s : State) : Host.Outcome State Fault Refusal :=
  match admitted size off .read with
  | none =>
    .next ((if s.faulted then s else s.raiseFault .badAccess 0#32 (off.setWidth 64)).observe 0#64)
  | some p => .next ((s.noteReads p.sources).observe (s.readPlace p))

end Sys2Proof.Machine
end

