-- ==== Sys2Proof/Machine/Dispatch.lean ====
section
/-! DEFINITION. The dispatch of every instruction to its meaning. -/

namespace Sys2Proof.Machine

def exec (i : Instr) (s : State) : Host.Outcome State Fault Refusal :=
  match i with
  | .reflect => Sys2Proof.Machine.execReflect s
  | .setupPoly => Sys2Proof.Machine.execSetupPoly s
  | .setupState => Sys2Proof.Machine.execSetupState s
  | .update b => Sys2Proof.Machine.execUpdate b s
  | .result => Sys2Proof.Machine.execResult s
  | .crc => Sys2Proof.Machine.execCrc s
  | .tableInit => Sys2Proof.Machine.execTableInit s
  | .tableUpdate b => Sys2Proof.Machine.execTableUpdate b s
  | .tableCrc => Sys2Proof.Machine.execTableCrc s
  | .mask => Sys2Proof.Machine.execMask s
  | .reflect8 => Sys2Proof.Machine.execReflect8 s
  | .reflect16 => Sys2Proof.Machine.execReflect16 s
  | .reflect32 => Sys2Proof.Machine.execReflect32 s
  | .reflect64 => Sys2Proof.Machine.execReflect64 s
  | .wr size off d => Sys2Proof.Machine.execWr size off d s
  | .rd size off => Sys2Proof.Machine.execRd size off s

end Sys2Proof.Machine
end

