-- ==== Sys2Proof/Machine/HostProgram.lean ====
section
/-! DEFINITION. Host programs: the next input of a run, and the pseudo-instructions of R100. -/

namespace Sys2Proof.Machine

/-- Take the first input off the run's list. -/
def State.withInputs (s : State) (rest : List Input) : State := { s with inputs := rest }

/-- A host program's transactions, one a line (R99). -/
def program (is : List Instr) : List Input := is.map fun i => .transaction (encode i)

/-- `WR <reg>, <v>`, with the register's offset (R20, R99). -/
def wrReg (off : Offset) (v : Word) : Instr := .wr .eight off v

/-- `CFGW <w>, <r>`: `WR CFG, (r << 7) OR w` (R100). -/
def pseudoCfgw (w r : Word) : List Instr := [wrReg 0x000#12 ((r <<< 7) ||| w)]

/-- `PARAMS <w>, <r>, <poly>, <iv>, <xo>` (R100). -/
def pseudoParams (w r poly iv xo : Word) : List Instr :=
  pseudoCfgw w r ++ [wrReg 0x008#12 poly, wrReg 0x010#12 iv, wrReg 0x018#12 xo]

/-- `SETUP` (R100). -/
def pseudoSetup : List Instr := [.setupPoly, .setupState]

/-- `FEED <b0>, <b1>, ...` (R100). -/
def pseudoFeed (bytes : List Byte) : List Instr := bytes.map .update

/-- `TFEED <b0>, ...` (R100). -/
def pseudoTfeed (bytes : List Byte) : List Instr := bytes.map .tableUpdate

/-- `BUF <addr>, <len>` (R100). -/
def pseudoBuf (addr len : Word) : List Instr := [wrReg 0x040#12 addr, wrReg 0x048#12 len]

/-- The input that carries a word of the opcode table (log entry 10). -/
def tableInput (nbits w : Nat) : Input := .transaction (tableTransaction nbits w)

end Sys2Proof.Machine
end

