-- ==== Sys2Proof/Machine/Step.lean ====
section
/-! DEFINITION. One step: the next input, taken whole. -/

namespace Sys2Proof.Machine

/-- One step takes the next input: a host transaction is decoded and its operation runs to its end (R71); the
reset input resets the block (R280); a byte the platform stores goes to DMEM. With no input the block is idle and
waits (R60, R280). -/
def step (s : State) : Host.Outcome State Fault Refusal :=
  match s.inputs with
  | [] => .next s
  | .reset :: rest => .next (s.withInputs rest).resetBlock
  | .dmem a v :: rest => .next ((s.withInputs rest).platformStore a v)
  | .transaction t :: rest => exec (decodeTransaction t) (s.withInputs rest)

/-- `s` with the opcode-table word `w` as the host's next transaction (log entries 1 and 10). -/
def State.withFetchWord (s : State) (nbits w : Nat) : State :=
  s.withInputs (tableInput nbits w :: s.inputs)

end Sys2Proof.Machine
end

