-- ==== Sys2Proof/Machine/Strict.lean ====
section
/-! DEFINITION. The spec's own reading of an unwritten read, as a second step over the same machine, and whole runs. -/

namespace Sys2Proof.Machine

/-- The step in the strict reading of R250: where the run has read something unwritten, it ends at the model-only
fault UNWRITTEN_READ. `step` goes on instead, with a free value, as the hardware does (log entry 2). -/
def strictStep (s : State) : Host.Outcome State Fault Refusal :=
  match step s with
  | .next t =>
    match t.unwrittenRead with
    | some x => .fault (.unwrittenRead x)
    | none => .next t
  | .fault r => .fault r
  | .refused r => .refused r

/-! ### The block's own run, which goes on past an unwritten read -/

/-- `n` steps of the block, stopping at a fault or a refusal (neither of which it has). -/
def stepN : Nat → State → Host.Outcome State Fault Refusal
  | 0, s => .next s
  | n + 1, s =>
    match step s with
    | .next t => stepN n t
    | .fault r => .fault r
    | .refused r => .refused r

/-- What the block does with a host program from `s`: one step for each of its operations. Where the program reads
nothing unwritten this is the spec's run, `hostRun`; where it does, the block goes on with free values (log
entry 2). -/
def runProgram (is : List Instr) (s : State) : Host.Outcome State Fault Refusal :=
  stepN is.length (s.withInputs (program is))

/-! ### The spec's run of a host program -/

/-- How a run ended (R296): its last operation completed, or it ended earlier at the model-only fault, with the state
its operations before that one left: an operation's writes take effect at its end (R15), and a RD that does not
complete returns nothing. The block has no refusal. -/
inductive RunEnd where
  | completed (last : State)
  | fault (reason : Fault) (last : State)
  | refused (reason : Refusal) (last : State)
deriving DecidableEq, Repr

/-- The state a run ended in: the final registers, table and marks of its observation (R296). -/
def RunEnd.last : RunEnd → State
  | .completed t => t
  | .fault _ t => t
  | .refused _ t => t

/-- The other half of a run's observation: the values its RD operations returned, in order (R296). -/
def RunEnd.returned (e : RunEnd) : List Word := e.last.observed

/-- A run is faulted if STATUS.FAULT = 1 at its end or if it ended at a model-only fault (R296). -/
def RunEnd.faulted : RunEnd → Bool
  | .completed t => t.faulted
  | .fault _ _ => true
  | .refused _ _ => true

/-- At most `n` operations in the strict reading, ending at the first that reads something unwritten. -/
def strictRun : Nat → State → RunEnd
  | 0, s => .completed s
  | n + 1, s =>
    match strictStep s with
    | .next t => strictRun n t
    | .fault r => .fault r s
    | .refused r => .refused r s

/-- The run of a host program from `s` (R296): it ends when its last operation has completed, or earlier at the
model-only fault. A run starts from reset with the platform's DMEM, or from a state that names its
registers, table and marks (R295); `s` has no unwritten read and no RD behind it. -/
def hostRun (is : List Instr) (s : State) : RunEnd := strictRun is.length (s.withInputs (program is))

end Sys2Proof.Machine
end

