-- ==== Sys2Proof/Safety.lean ====
section
/-! DEFINITION. What the claims call a faulted run, the invariant of the block, and the part of the state an operation
may not touch. -/

namespace Sys2Proof.Machine

/-- What the end of the block's own run says of the spec's run of the same program: that run is faulted if
STATUS.FAULT = 1 at its end, or if it read something unwritten, which is where it ended (R250, R296). -/
def State.runFaulted (s : State) : Bool := s.faulted || s.unwrittenRead.isSome

/-- CFG's reserved bits [63:8] read as 0 (R21). -/
def State.cfgReservedZero (s : State) : Bool := s.cfg.extractLsb' 8 56 == 0#56

/-- What FADDR may hold beside each FCODE (R33, R240). -/
def faddrFits (code : Byte) (faddr : Word) : Bool :=
  match code.toNat with
  | 4 => decide (255 < faddr.toNat)
  | 5 => true
  | 6 => true
  | 7 => decide (faddr.toNat < 4096)
  | _ => faddr == 0#64

/-- STATUS and FADDR as the spec says they read (R32, R33, R240): reserved bits 0; everything 0 while FAULT = 0;
otherwise one of the seven codes, with FCMD = 0 for BAD_ACCESS and a FADDR the code allows. -/
def State.statusShaped (s : State) : Bool :=
  s.status.extractLsb' 1 7 == 0#7 && s.status.extractLsb' 16 16 == 0#16 &&
  if s.faulted then
    decide (1 ≤ s.fcode.toNat ∧ s.fcode.toNat ≤ 7) &&
    (!(s.fcode == 0x07#8) || s.fcmd == 0#32) && faddrFits s.fcode s.faddr
  else s.status == 0#64 && s.faddr == 0#64

/-- The invariant of the block: reserved fields read as the spec says, STATUS and FADDR record a fault of R240 or
none, and DMEM is in its canonical form. -/
def State.Inv (s : State) : Prop :=
  s.cfgReservedZero = true ∧ s.statusShaped = true ∧ s.dmem.wf = true

/-- The block can start a command's own work: FAULT = 0 and W ∈ 1..64 (R245, R246). -/
def State.ready (s : State) : Prop := s.faulted = false ∧ 1 ≤ s.width ∧ s.width ≤ 64

/-- The data buffer [ADDR, ADDR + LEN) holds exactly the bytes `d` and every one can be read (R63, R64). -/
def State.bufferHolds (s : State) (d : List Byte) : Prop :=
  (s.read .len).toNat = d.length ∧
  (0 < d.length → (s.read .addr).toNat + d.length ≤ 2 ^ s.addrW) ∧
  ∀ k, (h : k < d.length) → s.memRead ((s.read .addr).toNat + k) = some d[k]

/-- The buffer's first bytes are `d`, and they can be read (R63, R64). -/
def State.bufferStarts (s : State) (d : List Byte) : Prop :=
  d.length ≤ (s.read .len).toNat ∧ ∀ k, (h : k < d.length) → s.memRead ((s.read .addr).toNat + k) = some d[k]

/-- The buffer lies inside DMEM's address space, or is empty, so that no DATA_RANGE arises (R64). -/
def State.bufferInRange (s : State) : Prop :=
  (s.read .len).toNat = 0 ∨ (s.read .addr).toNat + (s.read .len).toNat ≤ 2 ^ s.addrW

/-- The entries that a walk of the table path over `d` reads from CRC state `c`, in order, up to a lookup that has no
entry (R200, R247 step 8). -/
def tableReads (W : Nat) (RF : Bool) (T : Byte → Word) : Word → List Byte → List Byte
  | _, [] => []
  | c, b :: d =>
    match tableIndex W RF c b with
    | .error _ => []
    | .ok j => j :: tableReads W RF T (tableCombine W RF (T j) c) d

/-- Operation `i` runs command `c`: it is that command, or a CMD write of that command's word (R34, R92). -/
def startsCommand (i c : Instr) : Prop := i = c ∨ ∃ d, i = .wr .eight 0x060#12 d ∧ decodeCommand d = .ok c

/-- The next operation reads `x`, which nothing has written: the spec's run ends at it with UNWRITTEN_READ, while the
block itself goes on (R250, log entry 2). -/
def State.stopsUnwritten (s : State) (x : Source) : Prop :=
  strictStep s = .fault (.unwrittenRead x) ∧ ∃ t, step s = .next t ∧ t.unwrittenRead = some x

/-- TABLE is the table that TABLE_INIT builds for polynomial `poly` under the current CFG (R190, R192). -/
def State.tableBuiltFor (s : State) (poly : Word) : Prop :=
  ∀ i : Byte, s.entrySlot i = Slot.of (tbl s.width s.refl poly i)

/-- The window offset of a register (R20). -/
def regOffset : DataReg → Offset
  | .poly => 0x008#12
  | .iv => 0x010#12
  | .xorout => 0x018#12
  | .value => 0x020#12
  | .npoly => 0x028#12
  | .state => 0x030#12
  | .out => 0x038#12
  | .addr => 0x040#12
  | .len => 0x048#12

/-- The window offset of table entry `i`: 0x800 + 8*i (R20, R68). -/
def entryOffset (i : Byte) : Offset := 0x800#12 + 8#12 * i.setWidth 12

/-- The window offset of a place (R20). -/
def placeOffset : Place → Offset
  | .cfg => 0x000#12
  | .reg r => regOffset r
  | .status => 0x050#12
  | .faddr => 0x058#12
  | .cmd => 0x060#12
  | .entry i => entryOffset i

/-- A host access that R97 refuses whatever its direction: not 8 bytes, not a multiple of 8, or
unmapped. -/
def badPlace (size : AccessSize) (off : Offset) : Prop :=
  size ≠ .eight ∨ off.toNat % 8 ≠ 0 ∨ (0x068 ≤ off.toNat ∧ off.toNat < 0x800)

/-- The host writes that are refused: also those of OUT, STATUS and FADDR (R97). -/
def refusedWrite (size : AccessSize) (off : Offset) : Prop :=
  badPlace size off ∨ off = 0x038#12 ∨ off = 0x050#12 ∨ off = 0x058#12

/-- The host reads that are refused: also those of CMD (R97). -/
def refusedRead (size : AccessSize) (off : Offset) : Prop :=
  badPlace size off ∨ off = 0x060#12

/-- The illegal command words of R96, as the data of a CMD write. -/
def illegalCommandData (d : Word) : Prop :=
  (d >>> 24 &&& 0xFF#64) = 0#64 ∨ 0x0F ≤ (d >>> 24 &&& 0xFF#64).toNat ∨
  (d >>> 8 &&& 0xFFFF#64) ≠ 0#64 ∨
  ((d &&& 0xFF#64) ≠ 0#64 ∧ (d >>> 24 &&& 0xFF#64) ≠ 0x04#64 ∧ (d >>> 24 &&& 0xFF#64) ≠ 0x08#64) ∨
  d >>> 32 ≠ 0#64

/-- The record of unwritten reads after the registers `rs` are read, in that order (R247 step 6, R250). -/
def State.recordOf (s : State) (rs : List DataReg) : Option Source :=
  s.firstUnwritten s.unwrittenRead (rs.map .reg)

/-- `t` differs from `s` at most in STATUS, FADDR, the values observed and the record of unwritten reads: no
register that a program computes with, no table entry, no byte of DMEM, no mark (R243, R244). -/
def State.sameWork (s t : State) : Prop :=
  t = { s with
    status := t.status
    faddr := t.faddr
    observed := t.observed
    unwrittenRead := t.unwrittenRead }

end Sys2Proof.Machine
end

