-- ==== Sys2Proof/Certificates/Slice0/Obligations.lean ====
section
/-! DEFINITION. The statements for the provers. Where a statement gives a next state as `{ s with … }`, that IS its frame:
every other field of the state, every other register, table entry, written mark and byte of DMEM among them, is
unchanged. -/

open Sys2Proof Sys2Proof.Machine

/-! ## Encoding -/

/-- Decoding the encoding of a well-formed instruction gives it back, for all instructions and every operand
value (30_encoding.md). -/
def Obligations.EncodedInstructionsDecodeToThemselves : Prop :=
  ∀ i : Instr, i.wf = true → decodeTransaction (encode i) = i

/-- R93: a word encodes a row's command exactly when `w & mask = match`; every other word encodes none. -/
def Obligations.OpcodeMapMatchesMaskAndMatch : Prop :=
  ∀ (w : BitVec 32) (i : Instr), decodeCommand (w.setWidth 64) = .ok i ↔
    (i = .reflect ∧ w &&& 0xFFFFFFFF#32 = 0x01000000#32) ∨
    (i = .setupPoly ∧ w &&& 0xFFFFFFFF#32 = 0x02000000#32) ∨
    (i = .setupState ∧ w &&& 0xFFFFFFFF#32 = 0x03000000#32) ∨
    (i = .update (w.extractLsb' 0 8) ∧ w &&& 0xFFFFFF00#32 = 0x04000000#32) ∨
    (i = .result ∧ w &&& 0xFFFFFFFF#32 = 0x05000000#32) ∨
    (i = .crc ∧ w &&& 0xFFFFFFFF#32 = 0x06000000#32) ∨
    (i = .tableInit ∧ w &&& 0xFFFFFFFF#32 = 0x07000000#32) ∨
    (i = .tableUpdate (w.extractLsb' 0 8) ∧ w &&& 0xFFFFFF00#32 = 0x08000000#32) ∨
    (i = .tableCrc ∧ w &&& 0xFFFFFFFF#32 = 0x09000000#32) ∨
    (i = .mask ∧ w &&& 0xFFFFFFFF#32 = 0x0A000000#32) ∨
    (i = .reflect8 ∧ w &&& 0xFFFFFFFF#32 = 0x0B000000#32) ∨
    (i = .reflect16 ∧ w &&& 0xFFFFFFFF#32 = 0x0C000000#32) ∨
    (i = .reflect32 ∧ w &&& 0xFFFFFFFF#32 = 0x0D000000#32) ∨
    (i = .reflect64 ∧ w &&& 0xFFFFFFFF#32 = 0x0E000000#32)

/-- R96: the illegal command words are exactly those listed, and a CMD write of one, with FAULT = 0, raises
ILLEGAL_CMD with bits [31:0] as FCMD. -/
def Obligations.IllegalCommandWordsRaiseIllegalCmd : Prop :=
  (∀ d : Word, (∃ e, decodeCommand d = .error e) ↔ illegalCommandData d) ∧
  ∀ (s : State) (d : Word), s.faulted = false → illegalCommandData d →
    exec (.wr .eight 0x060#12 d) s =
      .next { s with status := (d <<< 32) ||| 0x101#64, faddr := 0#64 }

/-- A few words written out from the opcode map and the transaction format decode to what they stand for
(30_encoding.md). -/
def Obligations.SampleWordsDecode : Prop :=
  decodeTableWord 32 0x01000000 = some .reflect ∧
  decodeTableWord 32 0x040000AB = some (.update 0xAB#8) ∧
  decodeTableWord 32 0x08000031 = some (.tableUpdate 0x31#8) ∧
  decodeTableWord 32 0x0E000000 = some .reflect64 ∧
  decodeTableWord 32 0x0F000000 = none ∧
  decodeTableWord 32 0x05000001 = none ∧
  decodeTableWord 80 0x700000000000000000A0 = some (.wr .eight 0x000#12 0xA0#64) ∧
  decodeTableWord 80 0x68080000000000000000 = some (.rd .eight 0x808#12) ∧
  decodeTableWord 80 0x7060000000000E000000 = some .reflect64

/-! ## The step -/

/-- A step runs the instruction that the host's next transaction decodes to, on the state with that transaction
taken off; on the encoding of a well-formed instruction that is the instruction itself. With no input the
block is idle (R60, R280). -/
def Obligations.StepRunsTheDecodedInstruction : Prop :=
  ∀ s : State,
    (s.inputs = [] → step s = .next s) ∧
    (∀ (t : Transaction) (rest : List Input), s.inputs = .transaction t :: rest →
      step s = exec (decodeTransaction t) { s with inputs := rest }) ∧
    (∀ (i : Instr) (rest : List Input), i.wf = true → s.inputs = .transaction (encode i) :: rest →
      step s = exec i { s with inputs := rest })

/-- A word of the opcode table that decodes is run as the very next step when the host issues it (log
entries 1 and 10). -/
def Obligations.TableWordRunsAsTheNextStep : Prop :=
  ∀ (s : State) (nbits w : Nat) (i : Instr), decodeTableWord nbits w = some i →
    step (s.withFetchWord nbits w) = exec i s

/-- R34: CMD is not storage. A write starts the command its data encodes; a read is BAD_ACCESS. -/
def Obligations.CmdWriteStartsItsCommandAndCmdReadIsRefused : Prop :=
  ∀ s : State,
    (∀ (d : Word) (i : Instr), decodeCommand d = .ok i → exec (.wr .eight 0x060#12 d) s = exec i s) ∧
    (∀ size : AccessSize, s.faulted = false →
      exec (.rd size 0x060#12) s =
        .next { s with status := 0x701#64, faddr := 0x060#64, observed := s.observed ++ [0#64] })

/-- No operation and no step stops the machine: every transaction has an outcome, in every state (60_exceptions.md R260
(3) and (4), R261). That the machine goes on after an unwritten read and after a recorded fault, where R260 (1) and (2)
let a model end the run, is the model's choice (log entries 2 and 11). -/
def Obligations.EveryOperationAndStepAnswersANextState : Prop :=
  (∀ (i : Instr) (s : State), ∃ t, exec i s = .next t) ∧ (∀ s : State, ∃ t, step s = .next t)

/-! ## Reset and the invariant -/

/-- The state the model starts in has the reset values of 10_state.md R42: CFG = STATUS = FADDR = 0 and every
written mark clear. -/
def Obligations.ResetLeavesTheSpecifiedState : Prop :=
  State.reset.cfg = 0#64 ∧ State.reset.status = 0#64 ∧ State.reset.faddr = 0#64 ∧
  (∀ r : DataReg, (State.reset.slot r).written = false) ∧
  (∀ i : Byte, (State.reset.entrySlot i).written = false)

/-- R281, with the reset values of R42: the reset input leaves CFG = STATUS = FADDR = 0 and every written mark clear, the table's too,
from any state, and does not touch DMEM. -/
def Obligations.ResetInputClearsTheBlockAndKeepsDmem : Prop :=
  ∀ (s : State) (rest : List Input), s.inputs = .reset :: rest →
    ∃ t, step s = .next t ∧
      t.cfg = 0#64 ∧ t.status = 0#64 ∧ t.faddr = 0#64 ∧
      (∀ r : DataReg, (t.slot r).written = false) ∧ (∀ i : Byte, (t.entrySlot i).written = false) ∧
      t.dmem = s.dmem ∧ (∀ a, t.memRead a = s.memRead a) ∧ t.inputs = rest

/-- R43: while WIDTH is illegal, as after reset, a legal command word faults with WIDTH_RANGE and an illegal one
with ILLEGAL_CMD. -/
def Obligations.EveryCommandFaultsUntilCfgIsLegal : Prop :=
  State.reset.width = 0 ∧
  ∀ (s : State) (d : Word), s.faulted = false → (s.width < 1 ∨ 64 < s.width) →
    exec (.wr .eight 0x060#12 d) s =
      .next { s with
        status := (d <<< 32) ||| (match decodeCommand d with | .ok _ => 0x201#64 | .error _ => 0x101#64)
        faddr := 0#64 }

/-- The invariant holds right after reset. -/
def Obligations.ResetSatisfiesTheInvariant : Prop := State.reset.Inv

/-- Every step keeps the invariant: CFG's and STATUS's reserved bits read 0, STATUS and FADDR record no fault or one
of the seven with the FCMD and FADDR it allows, and DMEM stays canonical (10_state.md). -/
def Obligations.EveryStepKeepsTheInvariant : Prop :=
  ∀ s t : State, s.Inv → step s = .next t → t.Inv

/-- The core never writes DMEM: after any step but a store by the platform every byte reads as before (00_scope.md,
R14); a store by the platform changes that byte and nothing else of the block or its memory (log entry 7). -/
def Obligations.OnlyThePlatformChangesDmem : Prop :=
  ∀ s t : State, step s = .next t →
    ((∀ a v rest, s.inputs ≠ .dmem a v :: rest) →
      t.dmem = s.dmem ∧ t.addrW = s.addrW ∧ ∀ b, t.memRead b = s.memRead b) ∧
    (∀ a v rest, s.inputs = .dmem a v :: rest →
      t = { s with inputs := rest, dmem := t.dmem } ∧ (a < 2 ^ s.addrW → t.memRead a = some v) ∧
      ∀ b, b ≠ a → t.memRead b = s.memRead b)

/-! ## Faults -/

/-- R245: faults are sticky. With FAULT = 1 every operation but RD changes nothing; RD is still served, and returns the
place it reads, or 0 where it is refused, and changes nothing the block holds; every step but reset keeps STATUS and
FADDR; and reset clears FAULT. (`unwrittenRead` is the model's own record, log entry 2.) -/
def Obligations.FaultsAreStickyUntilReset : Prop :=
  ∀ s : State, s.faulted = true →
    (∀ i : Instr, (∀ size off, i ≠ .rd size off) → exec i s = .next s) ∧
    (∀ p : Place, p.allows .read = true → (∀ x ∈ p.sources, s.isWritten x = true) →
      exec (.rd .eight (placeOffset p)) s = .next { s with observed := s.observed ++ [s.readPlace p] }) ∧
    (∀ size off, refusedRead size off →
      exec (.rd size off) s = .next { s with observed := s.observed ++ [0#64] }) ∧
    (∀ size off, ∃ v u,
      exec (.rd size off) s = .next { s with observed := s.observed ++ [v], unwrittenRead := u }) ∧
    (∀ t, step s = .next t → (∀ rest, s.inputs ≠ .reset :: rest) →
      t.status = s.status ∧ t.faddr = s.faddr) ∧
    (∀ rest, s.inputs = .reset :: rest → ∃ t, step s = .next t ∧ t.faulted = false)

/-- R244, with R243's words in STATUS: an operation that faults changes STATUS and FADDR and nothing that a program
computes with; and TABLE_INIT cannot fault after its width check. -/
def Obligations.FaultsArePreciseAndAtomic : Prop :=
  (∀ (i : Instr) (s t : State), exec i s = .next t → s.faulted = false → t.faulted = true →
    s.sameWork t ∧
    ∃ (code : FaultCode) (fcmd : BitVec 32),
      t.status = (fcmd.setWidth 64 <<< 32) ||| (code.number.setWidth 64 <<< 8) ||| 1#64 ∧
      (code = .badAccess → fcmd = 0#32) ∧ (i.isCommand = true → fcmd = commandWord i) ∧
      (∀ size off d, i = .wr size off d → code ≠ .badAccess → fcmd = d.extractLsb' 0 32)) ∧
  (∀ s t : State, s.ready → exec .tableInit s = .next t → t.faulted = false)

/-- What FADDR holds after each fault (10_state.md R33, 60_exceptions.md R240): a refused address inside the buffer, ADDR,
the offset, the index `b ^ s` of the byte that has no entry, or 0; for a platform whose addresses fit a register
(log entry 6). -/
def Obligations.FaddrRecordsWhereTheFaultWas : Prop :=
  ∀ (i : Instr) (s t : State), exec i s = .next t → s.faulted = false → t.faulted = true → s.addrW ≤ 64 →
    (t.fcode = 0x06#8 → s.memRead t.faddr.toNat = none ∧ (s.read .addr).toNat ≤ t.faddr.toNat ∧
      t.faddr.toNat < (s.read .addr).toNat + (s.read .len).toNat) ∧
    (t.fcode = 0x05#8 → t.faddr = s.read .addr) ∧
    (t.fcode = 0x07#8 → ∃ size off, t.faddr = off.setWidth 64 ∧ (i = .rd size off ∨ ∃ d, i = .wr size off d)) ∧
    (t.fcode = 0x04#8 → 255 < t.faddr.toNat ∧
      ((∃ b : Byte, startsCommand i (.tableUpdate b) ∧ t.faddr = b.setWidth 64 ^^^ s.read .state) ∨
       (startsCommand i .tableCrc ∧ ∃ (d : List Byte) (b : Byte) (c : Word), s.bufferStarts (d ++ [b]) ∧
         tupdAll s.width s.refl s.readEntry (normOf s.width s.refl (s.read .iv)) d = .ok c ∧
         t.faddr = b.setWidth 64 ^^^ c))) ∧
    (t.fcode = 0x01#8 ∨ t.fcode = 0x02#8 ∨ t.fcode = 0x03#8 → t.faddr = 0#64)

/-- R241: the faults each operation can raise. -/
def Obligations.EachOperationRaisesOnlyItsFaults : Prop :=
  ∀ (i : Instr) (s t : State), exec i s = .next t → s.faulted = false → t.faulted = true →
    match i with
    | .reflect | .reflect64 | .setupPoly | .setupState | .update _ | .mask | .result | .tableInit =>
      t.fcode = 0x02#8
    | .reflect8 | .reflect16 | .reflect32 => t.fcode = 0x02#8 ∨ t.fcode = 0x03#8
    | .tableUpdate _ => t.fcode = 0x02#8 ∨ t.fcode = 0x04#8
    | .crc => t.fcode = 0x02#8 ∨ t.fcode = 0x05#8 ∨ t.fcode = 0x06#8
    | .tableCrc => t.fcode = 0x02#8 ∨ t.fcode = 0x05#8 ∨ t.fcode = 0x06#8 ∨ t.fcode = 0x04#8
    | .rd _ _ => t.fcode = 0x07#8
    | .wr _ off d =>
      t.fcode = 0x07#8 ∨
      (off = 0x060#12 ∧
        match decodeCommand d with
        | .error _ => t.fcode = 0x01#8
        | .ok c => exec c s = .next t)

/-- R246: every command, before anything else of its own, faults with WIDTH_RANGE when W is outside 1..64, with
FADDR = 0. -/
def Obligations.EveryCommandChecksWidthFirst : Prop :=
  ∀ (i : Instr) (s : State), i.isCommand = true → s.faulted = false → (s.width < 1 ∨ 64 < s.width) →
    exec i s =
      .next { s with status := ((commandWord i).setWidth 64 <<< 32) ||| 0x201#64, faddr := 0#64 }

/-- Which registers and entries a command can change when it runs (10_state.md R40): OUT, NPOLY, STATE and TABLE
as the table says, and none of CFG, POLY, IV, XOROUT, VALUE, ADDR, LEN, DMEM, nor the host's side. -/
def Obligations.CommandsWriteOnlyTheirResults : Prop :=
  ∀ (i : Instr) (s t : State), i.isCommand = true → exec i s = .next t →
    t = { s with
      npoly := t.npoly, state := t.state, out := t.out, table := t.table
      status := t.status, faddr := t.faddr, unwrittenRead := t.unwrittenRead } ∧
    (t.npoly ≠ s.npoly → i = .setupPoly) ∧
    (t.state ≠ s.state → i = .setupState ∨ (∃ b, i = .update b) ∨ ∃ b, i = .tableUpdate b) ∧
    (t.table ≠ s.table → i = .tableInit) ∧
    (t.out ≠ s.out → i = .reflect ∨ i = .reflect8 ∨ i = .reflect16 ∨ i = .reflect32 ∨ i = .reflect64 ∨
      i = .mask ∨ i = .result ∨ i = .crc ∨ i = .tableCrc)

/-- The model-only fault UNWRITTEN_READ (60_exceptions.md R247, R250; log entry 2): a host read of an unwritten register
or table entry ends the strict run there, naming it, while the block goes on, records nothing in STATUS and changes
nothing it computes with; so does a command, at the first unwritten one of the registers it reads, in its rule's
order, and TABLE_UPDATE and TABLE_CRC at the first unwritten entry their lookups read. -/
def Obligations.UnwrittenReadIsTheModelOnlyFault : Prop :=
  ∀ (s : State) (rest : List Input), s.unwrittenRead = none →
    (∀ (p : Place) (x : Source), p.sources = [x] → s.isWritten x = false →
      s.inputs = .transaction (encode (.rd .eight (placeOffset p))) :: rest →
      strictStep s = .fault (.unwrittenRead x) ∧
      step s =
        .next { s with
          inputs := rest, observed := s.observed ++ [s.readPlace p], unwrittenRead := some x }) ∧
    (∀ (c : Instr) (r : DataReg), c.isCommand = true → s.inputs = .transaction (encode c) :: rest →
      s.ready → s.width ≤ commandLane c →
      (commandReads c).find? (fun q => !(s.slot q).written) = some r → s.stopsUnwritten (.reg r)) ∧
    (∀ b j : Byte, s.inputs = .transaction (encode (.tableUpdate b)) :: rest → s.ready →
      s.state.written = true → tableIndex s.width s.refl (s.read .state) b = .ok j →
      (s.entrySlot j).written = false → s.stopsUnwritten (.entry j)) ∧
    (∀ (d : List Byte) (j : Byte), s.inputs = .transaction (encode .tableCrc) :: rest → s.ready →
      (∀ q ∈ commandReads .tableCrc, (s.slot q).written = true) → s.bufferInRange → s.bufferStarts d →
      (tableReads s.width s.refl s.readEntry (normOf s.width s.refl (s.read .iv)) d).find?
        (fun k => !(s.entrySlot k).written) = some j →
      s.stopsUnwritten (.entry j))

/-! ## The register window -/

/-- R97: the transactions refused with BAD_ACCESS are exactly those listed, with FADDR the offset and FCMD = 0. -/
def Obligations.IllegalTransactionsAreExactlyRefused : Prop :=
  ∀ (s : State) (size : AccessSize) (off : Offset), s.faulted = false →
    (∀ d : Word,
      exec (.wr size off d) s = .next { s with status := 0x701#64, faddr := off.setWidth 64 } ↔
        refusedWrite size off) ∧
    (exec (.rd size off) s =
        .next { s with
          status := 0x701#64, faddr := off.setWidth 64, observed := s.observed ++ [0#64] } ↔
      refusedRead size off)

/-- R22: a write of `d` to CFG stores `d & 0xFF`, checks nothing and changes nothing else; an illegal WIDTH is stored
as written and reported as WIDTH_RANGE when a command uses it. -/
def Obligations.CfgWriteStoresTheLowByte : Prop :=
  ∀ (s : State) (d : Word), s.faulted = false →
    exec (.wr .eight 0x000#12 d) s = .next { s with cfg := d &&& 0xFF#64 } ∧
    ∀ (t : State) (i : Instr), exec (.wr .eight 0x000#12 d) s = .next t → i.isCommand = true →
      ((d &&& 0x7F#64) = 0#64 ∨ 64 < (d &&& 0x7F#64).toNat) →
      exec i t = .next (t.raiseFault .widthRange (commandWord i) 0#64)

/-- A host write to a writable register or table entry stores all 64 bits, sets the written mark and changes no other
register (49_host_access.md R220). -/
def Obligations.HostWriteStoresTheWholeRegister : Prop :=
  ∀ (s : State) (d : Word), s.faulted = false →
    (∀ r : DataReg, r ≠ .out →
      ∃ t, exec (.wr .eight (regOffset r) d) s = .next t ∧ t.slot r = { val := d, written := true } ∧
        (∀ q : DataReg, q ≠ r → t.slot q = s.slot q) ∧
        t = { s with
          poly := t.poly, iv := t.iv, xorout := t.xorout, value := t.value, npoly := t.npoly
          state := t.state, addr := t.addr, len := t.len }) ∧
    (∀ i : Byte,
      ∃ t, exec (.wr .eight (entryOffset i) d) s = .next t ∧ t.entrySlot i = { val := d, written := true } ∧
        (∀ j : Byte, j ≠ i → t.entrySlot j = s.entrySlot j) ∧
        t = { s with table := t.table })

/-- R221: a host read of a readable place returns it, whatever STATUS.FAULT is, and has no side effect; a refused
read returns 0, and raises BAD_ACCESS when FAULT = 0. -/
def Obligations.HostReadReturnsThePlace : Prop :=
  ∀ s : State,
    exec (.rd .eight 0x000#12) s = .next { s with observed := s.observed ++ [s.cfg] } ∧
    exec (.rd .eight 0x050#12) s = .next { s with observed := s.observed ++ [s.status] } ∧
    exec (.rd .eight 0x058#12) s = .next { s with observed := s.observed ++ [s.faddr] } ∧
    (∀ r : DataReg,
      exec (.rd .eight (regOffset r)) s =
        .next { s with
          observed := s.observed ++ [s.read r]
          unwrittenRead := s.firstUnwritten s.unwrittenRead [.reg r] }) ∧
    (∀ i : Byte,
      exec (.rd .eight (entryOffset i)) s =
        .next { s with
          observed := s.observed ++ [s.readEntry i]
          unwrittenRead := s.firstUnwritten s.unwrittenRead [.entry i] }) ∧
    (∀ size off, refusedRead size off →
      exec (.rd size off) s =
        .next { s with
          status := if s.faulted then s.status else 0x701#64
          faddr := if s.faulted then s.faddr else off.setWidth 64
          observed := s.observed ++ [0#64] })

/-- A register or entry holds the 64 bits written to it: a read right after the write returns them
(20_memory.md R65). -/
def Obligations.WrittenRegistersReadBack : Prop :=
  ∀ (s t : State) (off : Offset) (d : Word), s.faulted = false → ¬ refusedWrite .eight off →
    off ≠ 0x000#12 → off ≠ 0x060#12 → exec (.wr .eight off d) s = .next t →
    exec (.rd .eight off) t = .next { t with observed := t.observed ++ [d] }

/-! ## Reflector -/

/-- REFLECT (R132): bit j of OUT is bit W-1-j of VALUE for j < W, and 0 above; CFG.REFL is not read. -/
def Obligations.ReflectReversesTheLowBits : Prop :=
  decodeCommand 0x01000000#64 = .ok .reflect ∧
  (∀ s : State, s.ready →
    ∃ v : Word, exec .reflect s = .next { s with out := Slot.of v, unwrittenRead := s.recordOf [.value] } ∧
      ∀ j < 64, v.getLsbD j = (decide (j < s.width) && (s.read .value).getLsbD (s.width - 1 - j))) ∧
  (∀ s : State, s.faulted = false → (s.width < 1 ∨ 64 < s.width) →
    exec .reflect s = .next { s with status := 0x0100000000000201#64, faddr := 0#64 })

/-- REFLECT8, REFLECT16, REFLECT32 and REFLECT64 (R133 to R136): within its lane a command reverses the low W bits of
VALUE into OUT; with W above its lane it raises LANE_WIDTH; with an illegal W, WIDTH_RANGE. -/
def Obligations.LaneCommandsReverseWithinTheirLane : Prop :=
  ∀ (i : Instr) (S : Nat) (w : Word),
    (i = .reflect8 ∧ S = 8 ∧ w = 0x0B000000#64) ∨ (i = .reflect16 ∧ S = 16 ∧ w = 0x0C000000#64) ∨
    (i = .reflect32 ∧ S = 32 ∧ w = 0x0D000000#64) ∨ (i = .reflect64 ∧ S = 64 ∧ w = 0x0E000000#64) →
    decodeCommand w = .ok i ∧
    (∀ s : State, s.ready → s.width ≤ S →
      ∃ v : Word, exec i s = .next { s with out := Slot.of v, unwrittenRead := s.recordOf [.value] } ∧
        ∀ j < 64, v.getLsbD j = (decide (j < s.width) && (s.read .value).getLsbD (s.width - 1 - j))) ∧
    (∀ s : State, s.ready → S < s.width →
      exec i s = .next { s with status := (w <<< 32) ||| 0x301#64, faddr := 0#64 }) ∧
    (∀ s : State, s.faulted = false → (s.width < 1 ∨ 64 < s.width) →
      exec i s = .next { s with status := (w <<< 32) ||| 0x201#64, faddr := 0#64 })

/-- R138: the laws of the reflector: involution, range, lane independence, linearity. -/
def Obligations.ReflectorLaws : Prop :=
  (∀ (W : Nat) (v : Word), 1 ≤ W → W ≤ 64 →
    reflect W (reflect W v) = v &&& lowmask W ∧ (reflect W v).toNat < 2 ^ W ∧
    ∀ u : Word, reflect W (v ^^^ u) = reflect W v ^^^ reflect W u) ∧
  (∀ (s t u : State) (i : Instr) (S : Nat),
    (i = .reflect8 ∧ S = 8) ∨ (i = .reflect16 ∧ S = 16) ∨ (i = .reflect32 ∧ S = 32) ∨
      (i = .reflect64 ∧ S = 64) →
    s.ready → s.width ≤ S → exec .reflect s = .next t → exec i s = .next u → u.out = t.out)

/-- The swap network of a lane reverses the lane's bits, and the lane's shift leaves the reversal of the low W bits
(41_reflector.md R131, R137). -/
def Obligations.SwapNetworkReversesTheLane : Prop :=
  ∀ (S W : Nat) (v : Word), (S = 8 ∨ S = 16 ∨ S = 32 ∨ S = 64) → 1 ≤ W → W ≤ S →
    swapNetwork S (v &&& lowmask S) = rev S v ∧ swapNetwork S (v &&& lowmask S) >>> (S - W) = rev W v

/-! ## Normalizer -/

/-- SETUP_POLY (R151): NPOLY receives POLY reversed over W bits (RF = 1), shifted left by 8 - W modulo 2^64
(RF = 0, W < 8), or unchanged. -/
def Obligations.SetupPolyNormalizesPoly : Prop :=
  decodeCommand 0x02000000#64 = .ok .setupPoly ∧
  (∀ s : State, s.ready →
    ∃ v : Word, exec .setupPoly s = .next { s with npoly := Slot.of v, unwrittenRead := s.recordOf [.poly] } ∧
      (s.refl = true →
        ∀ j < 64, v.getLsbD j = (decide (j < s.width) && (s.read .poly).getLsbD (s.width - 1 - j))) ∧
      (s.refl = false → s.width < 8 → v.toNat = (s.read .poly).toNat * 2 ^ (8 - s.width) % 2 ^ 64) ∧
      (s.refl = false → 8 ≤ s.width → v = s.read .poly)) ∧
  (∀ s : State, s.faulted = false → (s.width < 1 ∨ 64 < s.width) →
    exec .setupPoly s = .next { s with status := 0x0200000000000201#64, faddr := 0#64 })

/-- SETUP_STATE (R152): the same rule applied to IV, into STATE. -/
def Obligations.SetupStateNormalizesIv : Prop :=
  decodeCommand 0x03000000#64 = .ok .setupState ∧
  (∀ s : State, s.ready →
    ∃ v : Word, exec .setupState s = .next { s with state := Slot.of v, unwrittenRead := s.recordOf [.iv] } ∧
      (s.refl = true →
        ∀ j < 64, v.getLsbD j = (decide (j < s.width) && (s.read .iv).getLsbD (s.width - 1 - j))) ∧
      (s.refl = false → s.width < 8 → v.toNat = (s.read .iv).toNat * 2 ^ (8 - s.width) % 2 ^ 64) ∧
      (s.refl = false → 8 ≤ s.width → v = s.read .iv)) ∧
  (∀ s : State, s.faulted = false → (s.width < 1 ∨ 64 < s.width) →
    exec .setupState s = .next { s with status := 0x0300000000000201#64, faddr := 0#64 })

/-- R153: the laws of `norm`. -/
def Obligations.NormalizerLaws : Prop :=
  ∀ (W : Nat) (v u : Word), 1 ≤ W → W ≤ 64 →
    (normOf W true v = reflect W v ∧ (normOf W true v).toNat < 2 ^ W ∧
      normOf W true v = normOf W true (v &&& lowmask W)) ∧
    (W < 8 → v.toNat < 2 ^ W →
      (normOf W false v).toNat < 256 ∧ ∀ j < 8 - W, (normOf W false v).getLsbD j = false) ∧
    (8 ≤ W → normOf W false v = v) ∧
    ∀ RF : Bool, normOf W RF (v ^^^ u) = normOf W RF v ^^^ normOf W RF u

/-! ## Bitwise Update Engine -/

/-- UPDATE b (R160, R161): STATE receives the eight micro-steps of its mode, written out; each shifts first and then
XORs NPOLY if the bit tested before the shift was 1. -/
def Obligations.UpdateRunsEightMicroSteps : Prop :=
  ∀ b : Byte,
    decodeCommand (0x04000000#64 ||| b.setWidth 64) = .ok (.update b) ∧
    (∀ s : State, s.ready →
      ∃ v : Word,
        exec (.update b) s =
          .next { s with state := Slot.of v, unwrittenRead := s.recordOf [.npoly, .state] } ∧
        (s.refl = true → ∀ f : Word → Word,
          (∀ x, f x = if x.getLsbD 0 then (x >>> 1) ^^^ s.read .npoly else x >>> 1) →
          v = f (f (f (f (f (f (f (f (s.read .state ^^^ b.setWidth 64))))))))) ∧
        (s.refl = false → s.width < 8 → ∀ f : Word → Word,
          (∀ x, f x = if x.getLsbD 7 then (x <<< 1) ^^^ s.read .npoly else x <<< 1) →
          v = f (f (f (f (f (f (f (f (s.read .state ^^^ b.setWidth 64))))))))) ∧
        (s.refl = false → 8 ≤ s.width → ∀ f : Word → Word,
          (∀ x, f x = if x.getLsbD (s.width - 1) then (x <<< 1) ^^^ s.read .npoly else x <<< 1) →
          v = f (f (f (f (f (f (f (f (s.read .state ^^^ (b.setWidth 64 <<< (s.width - 8))))))))))))
      ∧
    (∀ s : State, s.faulted = false → (s.width < 1 ∨ 64 < s.width) →
      exec (.update b) s =
        .next { s with status := 0x0400000000000201#64 ||| (b.setWidth 64 <<< 32), faddr := 0#64 })

/-- R163: the laws of `upd`: locality, range, linearity, and determinism, the last said of UPDATE itself. -/
def Obligations.UpdateLaws : Prop :=
  (∀ (W : Nat) (p s u : Word) (b c : Byte), 1 ≤ W → W ≤ 64 →
    mask W false (upd W false p s b) = mask W false (upd W false p (mask W false s) b) ∧
    (s.toNat < 2 ^ W → p.toNat < 2 ^ W → (upd W true p s b).toNat < 2 ^ W) ∧
    ∀ RF : Bool, upd W RF p (s ^^^ u) (b ^^^ c) = upd W RF p s b ^^^ upd W RF p u c ∧
      upd W RF p 0#64 0#8 = 0#64) ∧
  (∀ (s t s' t' : State) (b : Byte), s.ready → s.width = t.width → s.refl = t.refl → t.faulted = false →
    s.read .npoly = t.read .npoly → s.read .state = t.read .state →
    exec (.update b) s = .next s' → exec (.update b) t = .next t' → s'.state = t'.state)

/-- Non-reflected UPDATE above the CRC field of B = max W 8 bits (43_bitwise_update.md R162): bits [B+7:B] hold the eight
tested bits, first at the top, and every higher bit is the old bit eight places below. -/
def Obligations.UpdateKeepsShiftedOutBits : Prop :=
  ∀ (W B : Nat) (p s : Word) (b : Byte), 1 ≤ W → W ≤ 64 → B = max W 8 → p.toNat < 2 ^ B →
    (∀ j, B + 8 ≤ j → j < 64 → (upd W false p s b).getLsbD j = s.getLsbD (j - 8)) ∧
    (∀ k < 8, B + 7 - k < 64 →
      (upd W false p s b).getLsbD (B + 7 - k) =
        ((microLeft (B - 1) p)^[k] (s ^^^ (b.setWidth 64 <<< (B - 8)))).getLsbD (B - 1))

/-! ## Finalizer -/

/-- MASK (R172): OUT is VALUE unchanged (RF = 1), its low byte (RF = 0, W < 8) or its low W bits, all 64 for
W = 64. -/
def Obligations.MaskKeepsTheCrcField : Prop :=
  decodeCommand 0x0A000000#64 = .ok .mask ∧
  (∀ s : State, s.ready →
    ∃ v : Word, exec .mask s = .next { s with out := Slot.of v, unwrittenRead := s.recordOf [.value] } ∧
      (s.refl = true → v = s.read .value) ∧
      (s.refl = false → s.width < 8 → v.toNat = (s.read .value).toNat % 256) ∧
      (s.refl = false → 8 ≤ s.width → v.toNat = (s.read .value).toNat % 2 ^ s.width)) ∧
  (∀ s : State, s.faulted = false → (s.width < 1 ∨ 64 < s.width) →
    exec .mask s = .next { s with status := 0x0A00000000000201#64, faddr := 0#64 })

/-- RESULT (R173): OUT is the Finalizer's value of STATE with XOROUT unmasked, and STATE is unchanged. -/
def Obligations.ResultFinalizesState : Prop :=
  decodeCommand 0x05000000#64 = .ok .result ∧
  (∀ s : State, s.ready →
    ∃ c : Word,
      exec .result s =
        .next { s with
          out := Slot.of (c ^^^ s.read .xorout), unwrittenRead := s.recordOf [.xorout, .state] } ∧
      (s.refl = true → c = s.read .state) ∧
      (s.refl = false → s.width < 8 → c.toNat = (s.read .state).toNat % 256 / 2 ^ (8 - s.width)) ∧
      (s.refl = false → 8 ≤ s.width → c.toNat = (s.read .state).toNat % 2 ^ s.width)) ∧
  (∀ s : State, s.faulted = false → (s.width < 1 ∨ 64 < s.width) →
    exec .result s = .next { s with status := 0x0500000000000201#64, faddr := 0#64 })

/-- R174: the laws of the Finalizer. -/
def Obligations.FinalizerLaws : Prop :=
  ∀ (W : Nat) (RF : Bool) (xo s v : Word), 1 ≤ W → W ≤ 64 →
    (mask 64 RF v = v ∧ fin 64 false xo s = s ^^^ xo) ∧
    mask W RF (mask W RF v) = mask W RF v ∧
    fin W RF xo s = fin W RF xo (mask W RF s) ∧
    (xo.toNat < 2 ^ W → (RF = false ∨ s.toNat < 2 ^ W) → (fin W RF xo s).toNat < 2 ^ W)

/-! ## One-shot commands -/

/-- CRC on a readable buffer (45_oneshot_bitwise.md R180, R181): normalize, fold the LEN bytes in order, finalize into OUT;
NPOLY and STATE are left alone. -/
def Obligations.CrcFoldsTheBuffer : Prop :=
  decodeCommand 0x06000000#64 = .ok .crc ∧
  ∀ (s : State) (d : List Byte), s.ready → s.bufferHolds d →
    exec .crc s =
      .next { s with
        out := Slot.of (crcOf s.width s.refl (s.read .poly) (s.read .iv) (s.read .xorout) d)
        unwrittenRead := s.recordOf [.poly, .iv, .xorout, .addr, .len] }

/-- TABLE_CRC on a readable buffer (48_oneshot_table.md R210, R211): OUT receives `tcrc`, or TABLE_INDEX is raised at the first byte
that has no entry, with nothing written. POLY, NPOLY and STATE play no part. -/
def Obligations.TableCrcFoldsTheBuffer : Prop :=
  decodeCommand 0x09000000#64 = .ok .tableCrc ∧
  ∀ (s : State) (d : List Byte), s.ready → s.bufferHolds d →
    (∀ v, tcrcOf s.width s.refl s.readEntry (s.read .iv) (s.read .xorout) d = .ok v →
      ∃ u, exec .tableCrc s = .next { s with out := Slot.of v, unwrittenRead := u } ∧
        ((∀ i : Byte, (s.entrySlot i).written = true) →
          u = s.recordOf [.iv, .xorout, .addr, .len])) ∧
    (∀ idx, tcrcOf s.width s.refl s.readEntry (s.read .iv) (s.read .xorout) d = .error idx →
      255 < idx.toNat ∧
      ∃ u, exec .tableCrc s =
        .next { s with status := 0x0900000000000401#64, faddr := idx, unwrittenRead := u })

/-- A buffer that passes the top of DMEM raises DATA_RANGE in both one-shot commands before any read; one that ends
exactly at the top does not, and LEN = 0 checks no address (20_memory.md R64). -/
def Obligations.BufferPastTheTopIsDataRange : Prop :=
  ∀ (i : Instr) (w : Word) (rs : List DataReg) (s : State),
    (i = .crc ∧ w = 0x06000000#64 ∧ rs = [.poly, .iv, .xorout, .addr, .len]) ∨
      (i = .tableCrc ∧ w = 0x09000000#64 ∧ rs = [.iv, .xorout, .addr, .len]) →
    s.ready →
    (0 < (s.read .len).toNat → 2 ^ s.addrW < (s.read .addr).toNat + (s.read .len).toNat →
      exec i s =
        .next { s with
          status := (w <<< 32) ||| 0x501#64, faddr := s.read .addr, unwrittenRead := s.recordOf rs }) ∧
    (((s.read .len).toNat = 0 ∨ (s.read .addr).toNat + (s.read .len).toNat ≤ 2 ^ s.addrW) →
      ∀ t, exec i s = .next t → t.faulted = true → t.fcode ≠ 0x05#8)

/-- CRC stops at its first refused byte with DATA_READ; TABLE_CRC does the same if no byte before it has a TABLE_INDEX, and
raises that TABLE_INDEX otherwise (20_memory.md R63, 60_exceptions.md R247 step 8). FADDR is the refused byte's
address where ADDR_W ≤ 64, and the 64-bit cut of it above that (log entry 6). -/
def Obligations.FirstRefusedByteIsDataRead : Prop :=
  ∀ (s : State) (d : List Byte), s.ready → s.bufferStarts d → d.length < (s.read .len).toNat →
    s.bufferInRange → s.memRead ((s.read .addr).toNat + d.length) = none →
    exec .crc s =
      .next { s with
        status := 0x0600000000000601#64
        faddr := BitVec.ofNat 64 ((s.read .addr).toNat + d.length)
        unwrittenRead := s.recordOf [.poly, .iv, .xorout, .addr, .len] } ∧
    ((∃ c, tupdAll s.width s.refl s.readEntry (normOf s.width s.refl (s.read .iv)) d = .ok c) →
      ∃ u, exec .tableCrc s =
        .next { s with
          status := 0x0900000000000601#64
          faddr := BitVec.ofNat 64 ((s.read .addr).toNat + d.length)
          unwrittenRead := u }) ∧
    (∀ idx, tupdAll s.width s.refl s.readEntry (normOf s.width s.refl (s.read .iv)) d = .error idx →
      255 < idx.toNat ∧
      ∃ u, exec .tableCrc s =
        .next { s with status := 0x0900000000000401#64, faddr := idx, unwrittenRead := u }) ∧
    (s.addrW ≤ 64 →
      (BitVec.ofNat 64 ((s.read .addr).toNat + d.length)).toNat = (s.read .addr).toNat + d.length)

/-- R212: with LEN = 0, CRC and TABLE_CRC give the same OUT, `fin(W, RF, XOROUT, norm(W, RF, IV))`, whatever TABLE, POLY
and ADDR hold. -/
def Obligations.EmptyInputGivesTheFinalizedIv : Prop :=
  ∀ s : State, s.ready → s.read .len = 0#64 →
    exec .crc s =
      .next { s with
        out := Slot.of (fin s.width s.refl (s.read .xorout) (normOf s.width s.refl (s.read .iv)))
        unwrittenRead := s.recordOf [.poly, .iv, .xorout, .addr, .len] } ∧
    exec .tableCrc s =
      .next { s with
        out := Slot.of (fin s.width s.refl (s.read .xorout) (normOf s.width s.refl (s.read .iv)))
        unwrittenRead := s.recordOf [.iv, .xorout, .addr, .len] }

/-- Composition (45_oneshot_bitwise.md R182 (2)): the host program SETUP_POLY; SETUP_STATE; UPDATE for each byte; RESULT, run by
the machine's steps, leaves in OUT what CRC leaves there, and only NPOLY and STATE differ afterwards. Where POLY, IV or
XOROUT is unwritten this rests on log entries 2 and 4. -/
def Obligations.IncrementalBitwisePathEqualsCrc : Prop :=
  ∀ (s : State) (d : List Byte), s.ready → s.bufferHolds d →
    ∃ t u, exec .crc s = .next t ∧ t.faulted = false ∧
      runProgram (pseudoSetup ++ pseudoFeed d ++ [.result]) s = .next u ∧ u.out = t.out ∧
      u = { t with
        inputs := [], npoly := u.npoly, state := u.state, unwrittenRead := u.unwrittenRead }

/-- CRC reads only its operands: two states that agree on CFG, POLY, IV, XOROUT, ADDR, LEN and DMEM get the same OUT, or the
same fault (45_oneshot_bitwise.md R182 (3)). -/
def Obligations.CrcDependsOnItsOperandsOnly : Prop :=
  ∀ s t s' t' : State, s.ready → s.cfg = t.cfg → s.status = t.status → s.faddr = t.faddr →
    (∀ r : DataReg, r = .poly ∨ r = .iv ∨ r = .xorout ∨ r = .addr ∨ r = .len → s.read r = t.read r) →
    s.addrW = t.addrW → (∀ a, s.memRead a = t.memRead a) →
    exec .crc s = .next s' → exec .crc t = .next t' →
    s'.status = t'.status ∧ s'.faddr = t'.faddr ∧ (s'.faulted = false → s'.out = t'.out)

/-! ## Table -/

/-- TABLE_INIT (R191): all 256 entries are written, each the masked one-byte update of zero state with the polynomial
normalized once; NPOLY is not written, and neither is anything else. -/
def Obligations.TableInitBuildsEveryEntry : Prop :=
  decodeCommand 0x07000000#64 = .ok .tableInit ∧
  (∀ s : State, s.ready →
    ∃ t, exec .tableInit s = .next t ∧
      (∀ i : Byte, t.entrySlot i =
        { val := mask s.width s.refl (upd s.width s.refl (normOf s.width s.refl (s.read .poly)) 0#64 i)
          written := true }) ∧
      t.readEntry 0#8 = 0#64 ∧
      t = { s with table := t.table, unwrittenRead := s.recordOf [.poly] }) ∧
  (∀ s : State, s.faulted = false → (s.width < 1 ∨ 64 < s.width) →
    exec .tableInit s = .next { s with status := 0x0700000000000201#64, faddr := 0#64 })

/-- R192: right after TABLE_INIT the table is the one of the current W, RF and POLY, and it stays so, for those parameters,
through every operation but a host write to a table entry and the next TABLE_INIT. -/
def Obligations.TableInvariantHoldsUntilRewritten : Prop :=
  (∀ s t : State, s.ready → exec .tableInit s = .next t → t.tableBuiltFor (t.read .poly)) ∧
  (∀ (i : Instr) (s t : State), exec i s = .next t → i ≠ .tableInit →
    (∀ size off d, i = .wr size off d → off.toNat < 0x800 ∧ (off = 0x060#12 → decodeCommand d ≠ .ok .tableInit)) →
    ∀ j : Byte, t.entrySlot j = s.entrySlot j)

/-- R193: every entry that TABLE_INIT builds, from any POLY, is below 2^W, or below 256 for RF = 0 with W < 8. -/
def Obligations.BuiltEntriesFitTheirField : Prop :=
  ∀ (s t : State) (i : Byte), s.ready → exec .tableInit s = .next t →
    ((s.refl = true ∨ 8 ≤ s.width) → (t.readEntry i).toNat < 2 ^ s.width) ∧
    (s.refl = false → s.width < 8 → (t.readEntry i).toNat < 256)

/-- TABLE_UPDATE b (R200, R201): the three modes' lookups, written out; TABLE_INDEX, with STATE unchanged, exactly when
RF = 0, W ≤ 8 and `b ^ s > 255`. -/
def Obligations.TableUpdateLooksUpOneEntry : Prop :=
  ∀ b : Byte,
    decodeCommand (0x08000000#64 ||| b.setWidth 64) = .ok (.tableUpdate b) ∧
    (∀ s : State, s.ready →
      (s.refl = true ∨ 8 < s.width ∨ (b.setWidth 64 ^^^ s.read .state).toNat ≤ 255) →
      ∃ j : Byte, ∃ v : Word,
        exec (.tableUpdate b) s =
          .next { s with
            state := Slot.of v
            unwrittenRead := s.firstUnwritten s.unwrittenRead [.reg .state, .entry j] } ∧
        (s.refl = true →
          j.toNat = (b.setWidth 64 ^^^ s.read .state).toNat % 256 ∧
          v = s.readEntry j ^^^ (s.read .state >>> 8)) ∧
        (s.refl = false → s.width ≤ 8 →
          j.toNat = (b.setWidth 64 ^^^ s.read .state).toNat ∧ v = s.readEntry j) ∧
        (s.refl = false → 8 < s.width →
          j.toNat = (b.setWidth 64 ^^^ (s.read .state >>> (s.width - 8))).toNat % 256 ∧
          v = s.readEntry j ^^^ (s.read .state <<< 8))) ∧
    (∀ s : State, s.ready → s.refl = false → s.width ≤ 8 →
      255 < (b.setWidth 64 ^^^ s.read .state).toNat →
      exec (.tableUpdate b) s =
        .next { s with
          status := 0x0800000000000401#64 ||| (b.setWidth 64 <<< 32)
          faddr := b.setWidth 64 ^^^ s.read .state
          unwrittenRead := s.recordOf [.state] }) ∧
    (∀ s : State, s.faulted = false → (s.width < 1 ∨ 64 < s.width) →
      exec (.tableUpdate b) s =
        .next { s with status := 0x0800000000000201#64 ||| (b.setWidth 64 <<< 32), faddr := 0#64 })

/-- R202: per-byte equivalence of the two engines, exact when reflected, under `mask` when not, with R202's example of
two raw states that differ above the CRC field. -/
def Obligations.TableEngineEqualsBitwiseEngine : Prop :=
  (∀ (W : Nat) (poly s : Word) (b : Byte), 1 ≤ W → W ≤ 64 →
    tupd W true (tbl W true poly) s b = .ok (upd W true (normOf W true poly) s b) ∧
    (∀ v, tupd W false (tbl W false poly) s b = .ok v →
      mask W false v = mask W false (upd W false (normOf W false poly) s b))) ∧
  upd 16 false (normOf 16 false 0x1021#64) 0xFFFF#64 0x31#8 = 0xC2C782#64 ∧
  tupd 16 false (tbl 16 false 0x1021#64) 0xFFFF#64 0x31#8 = .ok 0xFFC782#64

/-- The core correctness property (48_oneshot_table.md R213): with the table built for the current CFG and POLY, a TABLE_CRC that does
not fault writes the OUT that CRC writes on the same buffer. Where IV or XOROUT is unwritten this rests on log
entries 2 and 4. -/
def Obligations.TableCrcEqualsCrc : Prop :=
  ∀ s t : State, s.ready → s.tableBuiltFor (s.read .poly) → exec .tableCrc s = .next t → t.faulted = false →
    ∃ u, exec .crc s = .next u ∧ u.faulted = false ∧ u.out = t.out

/-- With the table built, TABLE_CRC and CRC raise the same fault at the same place or none when IV < 2^W; TABLE_CRC faults alone
only by TABLE_INDEX, with RF = 0, W ≤ 8 and IV ≥ 2^W (48_oneshot_table.md R213). Where a register they read is unwritten
this rests on log entries 2 and 4. -/
def Obligations.TableCrcFaultsAloneOnlyByTableIndex : Prop :=
  ∀ s t u : State, s.ready → s.tableBuiltFor (s.read .poly) →
    exec .tableCrc s = .next t → exec .crc s = .next u →
    ((s.read .iv).toNat < 2 ^ s.width →
      t.faulted = u.faulted ∧ (t.faulted = true → t.fcode = u.fcode ∧ t.faddr = u.faddr)) ∧
    (t.faulted = true → u.faulted = false →
      t.fcode = 0x04#8 ∧ s.refl = false ∧ s.width ≤ 8 ∧ 2 ^ s.width ≤ (s.read .iv).toNat)

/-- When TABLE_CRC on a built table and a nonempty readable buffer faults, for RF = 0 and W ≤ 8, it is with TABLE_INDEX, and exactly for IV ≥ 256
at W = 8, and for a 1 in some bit i of IV with W ≤ i ≤ 55 + W below it (48_oneshot_table.md R211 (b), 90_conflicts.md
C8). -/
def Obligations.WideIvIsExactlyTableIndex : Prop :=
  ∀ (s t : State) (d : List Byte) (poly : Word), s.ready → s.refl = false → s.width ≤ 8 →
    s.tableBuiltFor poly → s.bufferHolds d → d ≠ [] → exec .tableCrc s = .next t →
    (t.faulted = true → t.fcode = 0x04#8) ∧
    (t.faulted = true ↔
      if s.width = 8 then 256 ≤ (s.read .iv).toNat
      else ∃ i, s.width ≤ i ∧ i ≤ 55 + s.width ∧ (s.read .iv).getLsbD i = true)

/-- The incremental paths agree (48_oneshot_table.md R213): on a built table, SETUP_STATE, TABLE_UPDATE per byte and RESULT give the OUT
of SETUP_POLY, SETUP_STATE, UPDATE per byte and RESULT, unless the table path faults. The programs are run from a queue
(log entry 1); where a register they read is unwritten this rests on log entries 2 and 4. -/
def Obligations.IncrementalTablePathEqualsBitwisePath : Prop :=
  ∀ (s t : State) (d : List Byte), s.ready → s.tableBuiltFor (s.read .poly) →
    runProgram ([.setupState] ++ pseudoTfeed d ++ [.result]) s = .next t → t.faulted = false →
    ∃ u, runProgram (pseudoSetup ++ pseudoFeed d ++ [.result]) s = .next u ∧ u.faulted = false ∧ u.out = t.out

/-! ## Runs -/

/-- The run of a host program (70_reset_and_hazards.md R296) beside what the block does with it (log entry 2): without an
unwritten read the two are one; with one, the spec's run ends faulted at the operation that made the first,
in the state the operations before it left. Either way the end of the block's run tells whether the spec's run is
faulted. -/
def Obligations.RunsEndAtTheFirstUnwrittenRead : Prop :=
  ∀ (is : List Instr) (s : State), s.unwrittenRead = none →
    ∃ t, runProgram is s = .next t ∧ (hostRun is s).faulted = t.runFaulted ∧
      (t.unwrittenRead = none → hostRun is s = .completed t) ∧
      (∀ x, t.unwrittenRead = some x →
        ∃ n u, n < is.length ∧ stepN n (s.withInputs (program is)) = .next u ∧ u.unwrittenRead = none ∧
          strictStep u = .fault (.unwrittenRead x) ∧
          hostRun is s = .fault (.unwrittenRead x) u)
end

