-- ==== Sys2Proof/Laws/Decode.lean ====
section
/-! SUPPORT. The fields of an encoded transaction and of a command word, and what the decoders read back from
them. -/

namespace Sys2Proof

/-! ### Fields of a transaction -/

variable (z : AccessSize) (dir : Direction) (off : Offset) (d : Word)

/-- A transaction bit by bit (R90). -/
theorem transactionOf_getLsbD (i : Nat) :
    (transactionOf z dir off d).getLsbD i =
      if i < 64 then d.getLsbD i
      else if i < 76 then off.getLsbD (i - 64)
      else if i < 77 then decide (dir = .write)
      else (sizeField z).getLsbD (i - 77) := by
  show BitVec.getLsbD (w := 2 + 1 + 12 + 64) (sizeField z ++ (if dir = .write then 1#1 else 0#1) ++ off ++ d) i = _
  rw [BitVec.getLsbD_append, BitVec.getLsbD_append, BitVec.getLsbD_append]
  by_cases h1 : i < 64
  · simp [h1]
  · by_cases h2 : i < 76
    · simp [h1, h2, show i - 64 < 12 by omega]
    · by_cases h3 : i < 77
      · have : i = 76 := by omega
        subst this
        cases dir <;> simp
      · simp only [h1, h2, h3, if_false, show ¬ i - 64 < 12 by omega,
          show ¬ i - 64 - 12 < 1 by omega]
        congr 1

@[simp] theorem transactionOf_size : (transactionOf z dir off d).extractLsb' 77 2 = sizeField z := by
  apply BitVec.eq_of_getLsbD_eq
  intro i hi
  simp [transactionOf_getLsbD, hi, show ¬ 77 + i < 64 by omega,
    show ¬ 77 + i < 76 by omega]

@[simp] theorem transactionOf_dir :
    (transactionOf z dir off d).getLsbD 76 = decide (dir = .write) := by
  rw [transactionOf_getLsbD]
  simp

@[simp] theorem transactionOf_off : (transactionOf z dir off d).extractLsb' 64 12 = off := by
  apply BitVec.eq_of_getLsbD_eq
  intro i hi
  simp [transactionOf_getLsbD, hi, show 64 + i < 76 by omega]

@[simp] theorem transactionOf_data : (transactionOf z dir off d).extractLsb' 0 64 = d := by
  apply BitVec.eq_of_getLsbD_eq
  intro i hi
  simp [transactionOf_getLsbD, hi]

@[simp] theorem sizeOfField_sizeField : sizeOfField (sizeField z) = z := by
  cases z <;> rfl

theorem decodeTransaction_write :
    decodeTransaction (transactionOf z .write off d) = decodeWrite z off d := by
  rw [decodeTransaction, transactionOf_dir]
  simp

theorem decodeTransaction_read :
    decodeTransaction (transactionOf z .read off d) = .rd z off := by
  rw [decodeTransaction, transactionOf_dir]
  simp

/-! ### Fields of a command word -/

variable (opc imm : Byte)

/-- A command word bit by bit (R91). -/
theorem commandWordOf_getLsbD (i : Nat) :
    ((commandWordOf opc imm).setWidth 64).getLsbD i =
      if i < 8 then imm.getLsbD i
      else if i < 24 then false
      else opc.getLsbD (i - 24) := by
  rw [BitVec.getLsbD_setWidth]
  show (decide (i < 64) && BitVec.getLsbD (w := 8 + 16 + 8) (opc ++ 0#16 ++ imm) i) = _
  rw [BitVec.getLsbD_append, BitVec.getLsbD_append]
  by_cases h1 : i < 8
  · simp [h1, show i < 64 by omega]
  · by_cases h2 : i < 24
    · simp [h1, h2, show i - 8 < 16 by omega]
    · by_cases h3 : i < 32
      · simp [h1, h2, show i < 64 by omega, show ¬ i - 8 < 16 by omega, Nat.sub_sub]
      · simp [h1, h2, show ¬ i - 8 < 16 by omega, Nat.sub_sub, BitVec.getLsbD_of_ge opc (i - 24) (by omega)]

@[simp] theorem commandWordOf_high :
    ((commandWordOf opc imm).setWidth 64).extractLsb' 32 32 = 0#32 := by
  apply BitVec.eq_of_getLsbD_eq
  intro i hi
  rw [BitVec.getLsbD_extractLsb', commandWordOf_getLsbD]
  simp [show ¬ 32 + i < 8 by omega, show ¬ 32 + i < 24 by omega, BitVec.getLsbD_of_ge opc (32 + i - 24) (by omega)]

@[simp] theorem commandWordOf_opc :
    ((commandWordOf opc imm).setWidth 64).extractLsb' 24 8 = opc := by
  apply BitVec.eq_of_getLsbD_eq
  intro i hi
  rw [BitVec.getLsbD_extractLsb', commandWordOf_getLsbD]
  simp [hi, show ¬ 24 + i < 8 by omega]

@[simp] theorem commandWordOf_rsv :
    ((commandWordOf opc imm).setWidth 64).extractLsb' 8 16 = 0#16 := by
  apply BitVec.eq_of_getLsbD_eq
  intro i hi
  rw [BitVec.getLsbD_extractLsb', commandWordOf_getLsbD]
  simp [show ¬ 8 + i < 8 by omega, show 8 + i < 24 by omega]

@[simp] theorem commandWordOf_imm :
    ((commandWordOf opc imm).setWidth 64).extractLsb' 0 8 = imm := by
  apply BitVec.eq_of_getLsbD_eq
  intro i hi
  rw [BitVec.getLsbD_extractLsb', commandWordOf_getLsbD]
  simp [hi]

/-- The command decoder on a word with RSV = 0 and the upper half 0. -/
theorem decodeCommand_commandWordOf :
    decodeCommand ((commandWordOf opc imm).setWidth 64) =
      match opcodeMap opc imm with
      | none => .error .reservedOpcode
      | some i =>
        if opc ≠ 0x04#8 ∧ opc ≠ 0x08#8 ∧ imm ≠ 0#8 then .error .immediateNonzero else .ok i := by
  rw [decodeCommand, commandWordOf_high, commandWordOf_opc, commandWordOf_rsv, commandWordOf_imm]
  cases opcodeMap opc imm <;> simp

/-- The command decoder reads back every command's own word (R93). -/
theorem decodeCommand_commandWord {i : Instr} (h : i.isCommand = true) :
    decodeCommand ((commandWord i).setWidth 64) = .ok i := by
  cases i <;> simp_all [commandWord, decodeCommand_commandWordOf, opcodeMap, Instr.isCommand]

/-- What the opcode map answers is a command. -/
theorem opcodeMap_isCommand {opc b : Byte} {i : Instr} (h : opcodeMap opc b = some i) :
    i.isCommand = true := by
  unfold opcodeMap at h
  split at h <;> cases h <;> rfl

/-- What the command decoder answers is a command. -/
theorem decodeCommand_isCommand {d : Word} {i : Instr} (h : decodeCommand d = .ok i) :
    i.isCommand = true := by
  unfold decodeCommand at h
  split at h
  · cases h
  · split at h
    · cases h
    · next hm =>
      split at h
      · cases h
      · split at h
        · cases h
        · cases h; exact opcodeMap_isCommand hm

/-- A word whose bits outside OPC and IMM8 are 0 is put together from its two fields (R91). -/
theorem commandWordOf_fields {d : Word} (h32 : d.extractLsb' 32 32 = 0#32) (hr : d.extractLsb' 8 16 = 0#16) :
    d = (commandWordOf (d.extractLsb' 24 8) (d.extractLsb' 0 8)).setWidth 64 := by
  apply BitVec.eq_of_getLsbD_eq
  intro i hi
  rw [commandWordOf_getLsbD]
  have h32 : ∀ j < 32, d.getLsbD (32 + j) = false := fun j hj => by
    simpa [BitVec.getLsbD_extractLsb', hj] using congrArg (·.getLsbD j) h32
  have hr : ∀ j < 16, d.getLsbD (8 + j) = false := fun j hj => by
    simpa [BitVec.getLsbD_extractLsb', hj] using congrArg (·.getLsbD j) hr
  split
  · next h => rw [BitVec.getLsbD_extractLsb']; simp [h]
  · split
    · next h1 h2 => rw [← hr (i - 8) (by omega)]; congr 1; omega
    · next h1 h2 =>
      rw [BitVec.getLsbD_extractLsb', show 24 + (i - 24) = i by omega]
      by_cases h3 : i < 32
      · simp [show i - 24 < 8 by omega]
      · rw [show i = 32 + (i - 32) by omega, h32 (i - 32) (by omega), Bool.and_false]

/-- The command decoder accepts exactly the commands' own words (R93, R96). -/
theorem decodeCommand_eq_ok {d : Word} {i : Instr} :
    decodeCommand d = .ok i ↔ i.isCommand = true ∧ d = (commandWord i).setWidth 64 := by
  refine ⟨fun h => ⟨decodeCommand_isCommand h, ?_⟩, fun ⟨h, hd⟩ => hd ▸ decodeCommand_commandWord h⟩
  unfold decodeCommand at h
  split at h
  · cases h
  next h32 =>
  split at h
  · cases h
  next j hj =>
  split at h
  · cases h
  next hr =>
  split at h
  · cases h
  next hi =>
  simp only [ne_eq, not_not] at h32 hr
  cases h
  rw [commandWordOf_fields h32 hr]
  congr 1
  generalize d.extractLsb' 24 8 = o at *
  generalize d.extractLsb' 0 8 = b at *
  unfold opcodeMap at hj
  have ho : o = BitVec.ofNat 8 o.toNat := by simp
  split at hj <;> cases hj <;> rename_i hn <;> rw [hn] at ho <;> subst ho <;> simp_all [commandWord]

/-- A legal command word is the low half of the data that carries it (R91, R240). -/
theorem commandWord_of_decodeCommand {d : Word} {i : Instr} (h : decodeCommand d = .ok i) :
    commandWord i = d.extractLsb' 0 32 := by
  rw [(decodeCommand_eq_ok.mp h).2]
  apply BitVec.eq_of_getLsbD_eq
  intro j hj
  simp [hj, show j < 64 by omega]

/-- What the command decoder accepts is a legal command word of the well-formedness check. -/
theorem legalCommandData_of_ok {d : Word} {i : Instr} (h : decodeCommand d = .ok i) : legalCommandData d = true := by
  unfold decodeCommand at h
  split at h
  · cases h
  next h32 =>
  split at h
  · cases h
  next j hj =>
  split at h
  · cases h
  next hr =>
  split at h
  · cases h
  next hi =>
  unfold legalCommandData
  simp only [ne_eq, not_not] at h32 hr
  have : 1 ≤ (d.extractLsb' 24 8).toNat ∧ (d.extractLsb' 24 8).toNat ≤ 14 := by
    unfold opcodeMap at hj
    split at hj <;> first | omega | cases hj
  simp only [h32, hr, this, beq_self_eq_true, Bool.true_and, and_self, decide_true, Bool.or_eq_true, beq_iff_eq]
  by_contra hc
  apply hi
  tauto

end Sys2Proof
end

