-- ==== Sys2Proof/Laws/Engine.lean ====
section
/-! SUPPORT. The pure functions of the block bit by bit, and their linearity over XOR. -/

namespace Sys2Proof.Machine

/-! ### Bits -/

/-- The Reflector bit by bit (R13). -/
theorem rev_getLsbD (w : Nat) (v : Word) (i : Nat) (hw : w ≤ 64) :
    (rev w v).getLsbD i = (decide (i < w) && v.getLsbD (w - 1 - i)) := by
  induction w generalizing v i with
  | zero => simp [rev]
  | succ w ih =>
    rw [rev, BitVec.getLsbD_or, ih _ _ (by omega), BitVec.getLsbD_shiftLeft, BitVec.getLsbD_and,
      BitVec.getLsbD_ushiftRight, BitVec.getLsbD_one]
    rcases Nat.lt_trichotomy i w with h | h | h
    · simp [h, show i < w + 1 by omega, show 1 + (w - 1 - i) = w - i by omega]
    · subst h
      simp [show i < 64 by omega]
    · simp [show ¬ i < w by omega, show ¬ i < w + 1 by omega, show i - w ≠ 0 by omega]

/-- The low mask bit by bit (R12). -/
theorem lowmask_getLsbD (w i : Nat) : (lowmask w).getLsbD i = decide (i < w ∧ i < 64) := by
  unfold lowmask
  split
  · next h =>
    simp only [BitVec.getLsbD_allOnes]
    exact decide_eq_decide.mpr ⟨fun h' => ⟨by omega, h'⟩, And.right⟩
  · next h =>
    have hw : w < 64 := by omega
    have hp : 2 ^ w < 2 ^ 64 := Nat.pow_lt_pow_right (by norm_num) hw
    have hone : (1#64 <<< w) = BitVec.ofNat 64 (2 ^ w) := by
      apply BitVec.eq_of_toNat_eq
      simp [BitVec.toNat_shiftLeft, Nat.shiftLeft_eq]
    have hsub : BitVec.ofNat 64 (2 ^ w) - 1#64 = BitVec.ofNat 64 (2 ^ w - 1) := by
      apply BitVec.eq_of_toNat_eq
      have h1 : 1 ≤ 2 ^ w := Nat.one_le_two_pow
      rw [BitVec.toNat_sub, BitVec.toNat_ofNat, BitVec.toNat_ofNat, BitVec.toNat_ofNat]
      rw [Nat.mod_eq_of_lt hp]
      omega
    rw [hone, hsub, BitVec.getLsbD_ofNat, Nat.testBit_two_pow_sub_one]
    by_cases h1 : i < w <;> by_cases h2 : i < 64 <;> simp [h1, h2]

/-! ### Linearity over XOR -/

/-- A reflected micro-step is linear in the state (R163 (3)). -/
theorem microRight_xor (p s t : Word) :
    microRight p (s ^^^ t) = microRight p s ^^^ microRight p t := by
  unfold microRight
  simp only [BitVec.getLsbD_xor, BitVec.ushiftRight_xor_distrib]
  cases s.getLsbD 0 <;> cases t.getLsbD 0 <;>
    (ext i hi; simp [Bool.xor_comm, Bool.xor_left_comm])

/-- A non-reflected micro-step is linear in the state (R163 (3)). -/
theorem microLeft_xor (k : Nat) (p s t : Word) :
    microLeft k p (s ^^^ t) = microLeft k p s ^^^ microLeft k p t := by
  unfold microLeft
  simp only [BitVec.getLsbD_xor, BitVec.shiftLeft_xor_distrib]
  cases s.getLsbD k <;> cases t.getLsbD k <;>
    simp only [Bool.xor_false, Bool.xor_true, Bool.not_false, Bool.not_true, if_true,
      Bool.false_eq_true, if_false] <;>
    (apply BitVec.eq_of_getLsbD_eq; intro i hi; simp only [BitVec.getLsbD_xor];
     generalize (s <<< 1).getLsbD i = x; generalize (t <<< 1).getLsbD i = y;
     generalize p.getLsbD i = z; revert x y z; decide)

/-- Repeating a linear map is linear. -/
theorem iterate_xor {f : Word → Word} (hf : ∀ s t, f (s ^^^ t) = f s ^^^ f t) (n : Nat) (s t : Word) :
    f^[n] (s ^^^ t) = f^[n] s ^^^ f^[n] t := by
  induction n generalizing s t with
  | zero => rfl
  | succ n ih => rw [Function.iterate_succ_apply, hf, ih]; rfl

/-- A linear map sends 0 to 0. -/
theorem linear_zero {f : Word → Word} (hf : ∀ s t, f (s ^^^ t) = f s ^^^ f t) : f 0#64 = 0#64 := by
  have h := hf 0#64 0#64
  simpa using h

/-! ### Micro-steps that test only zeros just shift -/

theorem microRight_iterate_of_low_zero (p : Word) (n : Nat) {s : Word}
    (h : ∀ i < n, s.getLsbD i = false) : (microRight p)^[n] s = s >>> n := by
  induction n generalizing s with
  | zero => simp
  | succ n ih =>
    rw [Function.iterate_succ_apply, microRight, h 0 (by omega)]
    simp only [Bool.false_eq_true, if_false]
    rw [ih fun i hi => by rw [BitVec.getLsbD_ushiftRight]; exact h _ (by omega),
      ← BitVec.shiftRight_add, Nat.add_comm]

theorem microLeft_iterate_of_tested_zero (k : Nat) (p : Word) (n : Nat) {s : Word}
    (h : ∀ j < n, s.getLsbD (k - j) = false) (hn : n ≤ k + 1) : (microLeft k p)^[n] s = s <<< n := by
  induction n generalizing s with
  | zero => simp
  | succ n ih =>
    rw [Function.iterate_succ_apply, microLeft, show s.getLsbD k = false from h 0 (by omega)]
    simp only [Bool.false_eq_true, if_false]
    rw [ih (fun j hj => ?_) (by omega), ← BitVec.shiftLeft_add, Nat.add_comm]
    rw [BitVec.getLsbD_shiftLeft, show k - j - 1 = k - (j + 1) by omega, h (j + 1) (by omega)]
    simp

/-! ### The field a non-reflected micro-step keeps to itself -/

/-- The low k + 1 bits after a step that tests bit k depend on those bits only (R163 (1)). -/
theorem microLeft_iterate_local (k : Nat) (p : Word) (n : Nat) {s t : Word}
    (h : ∀ i ≤ k, s.getLsbD i = t.getLsbD i) :
    ∀ i ≤ k, ((microLeft k p)^[n] s).getLsbD i = ((microLeft k p)^[n] t).getLsbD i := by
  induction n generalizing s t with
  | zero => exact h
  | succ n ih =>
    simp only [Function.iterate_succ_apply]
    refine ih fun i hi => ?_
    unfold microLeft
    rw [h k le_rfl]
    cases t.getLsbD k <;> simp only [if_true, Bool.false_eq_true, if_false, BitVec.getLsbD_xor,
      BitVec.getLsbD_shiftLeft, h (i - 1) (by omega)]

/-- Bits above the tested bit and the polynomial only move up (R162). -/
theorem microLeft_iterate_high (k : Nat) {p : Word} (hp : ∀ i, k < i → p.getLsbD i = false) (n : Nat)
    (s : Word) (i : Nat) (hi : k + n < i) :
    ((microLeft k p)^[n] s).getLsbD i = (decide (i < 64) && s.getLsbD (i - n)) := by
  induction n generalizing s with
  | zero =>
    by_cases h : i < 64
    · simp [h]
    · simp [h, BitVec.getLsbD_of_ge s i (by omega)]
  | succ n ih =>
    rw [Function.iterate_succ_apply, ih _ (by omega)]
    have hstep : (microLeft k p s).getLsbD (i - n) = (decide (i - n < 64) && s.getLsbD (i - (n + 1))) := by
      unfold microLeft
      split <;>
        simp only [BitVec.getLsbD_xor, BitVec.getLsbD_shiftLeft, hp (i - n) (by omega), Bool.xor_false,
          show i - n - 1 = i - (n + 1) by omega, show ¬ i - n < 1 by omega, decide_false, Bool.not_false,
          Bool.and_true]
    rw [hstep]
    by_cases h : i < 64
    · simp [h, show i - n < 64 by omega]
    · simp [h]

end Sys2Proof.Machine
end

