-- ==== Sys2Proof/Laws/Memory.lean ====
section
/-! SUPPORT. DMEM's canonical form: every operation keeps it, a placed byte reads back, and equal readings are equal
data. -/

namespace Sys2Proof.Machine

/-- Every listed address is at or above `b`. -/
def Memory.from (b : Nat) (m : Memory) : Prop := ∀ c ∈ m, b ≤ c.1

theorem Memory.wf_cons {c : Host.Cell} {m : Memory} :
    Memory.wf (c :: m) = true ↔ Memory.from (c.1 + 1) m ∧ Memory.wf m = true := by
  induction m generalizing c with
  | nil => simp [Memory.wf, Memory.from]
  | cons d m ih =>
    obtain ⟨a, v⟩ := c
    obtain ⟨b, w⟩ := d
    simp only [Memory.wf, Bool.and_eq_true, decide_eq_true_eq, ih, Memory.from]
    constructor
    · rintro ⟨h, hf, hw⟩
      refine ⟨fun c hc => ?_, hf, hw⟩
      rcases List.mem_cons.mp hc with rfl | hc
      · exact h
      · have := hf c hc; omega
    · rintro ⟨hf, hb, hw⟩
      exact ⟨hf (b, w) (by simp), hb, hw⟩

theorem Memory.read_eq_none_of_from {m : Memory} {a b : Nat} (h : Memory.from b m) (hab : a < b) :
    Memory.read m a = none := by
  induction m with
  | nil => rfl
  | cons c m ih =>
    obtain ⟨x, v⟩ := c
    have hx : b ≤ x := h (x, v) (by simp)
    simp only [Memory.read]
    rw [if_neg (by omega)]
    exact ih fun c hc => h c (by simp [hc])

theorem Memory.place_from {m : Memory} {a b : Nat} (v : Byte) (h : Memory.from b m) (hba : b ≤ a) :
    Memory.from b (Memory.place m a v) := by
  induction m with
  | nil => intro c hc; simp [Memory.place] at hc; simp [hc, hba]
  | cons d m ih =>
    obtain ⟨x, w⟩ := d
    have hx : b ≤ x := h (x, w) (by simp)
    have hm : Memory.from b m := fun c hc => h c (by simp [hc])
    simp only [Memory.place]
    split
    · intro c hc
      rcases List.mem_cons.mp hc with rfl | hc
      · exact hba
      · exact h c hc
    · split
      · intro c hc
        rcases List.mem_cons.mp hc with rfl | hc
        · exact hba
        · exact hm c hc
      · intro c hc
        rcases List.mem_cons.mp hc with rfl | hc
        · exact hx
        · exact ih hm c hc

/-- Placing a byte keeps the canonical form. -/
theorem Memory.place_wf {m : Memory} (a : Nat) (v : Byte) (h : Memory.wf m = true) :
    Memory.wf (Memory.place m a v) = true := by
  induction m with
  | nil => rfl
  | cons d m ih =>
    obtain ⟨x, w⟩ := d
    obtain ⟨hf, hm⟩ := Memory.wf_cons.mp h
    simp only [Memory.place]
    split
    · next hax =>
      refine Memory.wf_cons.mpr ⟨fun c hc => ?_, h⟩
      rcases List.mem_cons.mp hc with rfl | hc
      · exact hax
      · have := hf c hc; simp only at this ⊢; omega
    · split
      · next hax => subst hax; exact Memory.wf_cons.mpr ⟨hf, hm⟩
      · next h1 h2 =>
        exact Memory.wf_cons.mpr ⟨Memory.place_from v hf (by simp only; omega), ih hm⟩

theorem Memory.read_place_same (m : Memory) (a : Nat) (v : Byte) :
    Memory.read (Memory.place m a v) a = some v := by
  induction m with
  | nil => simp [Memory.place, Memory.read]
  | cons d m ih =>
    obtain ⟨x, w⟩ := d
    simp only [Memory.place]
    split
    · simp [Memory.read]
    · split
      · simp [Memory.read]
      · simp only [Memory.read]
        rw [if_neg (by omega)]
        exact ih

theorem Memory.read_place_other (m : Memory) {a b : Nat} (v : Byte) (h : b ≠ a) :
    Memory.read (Memory.place m a v) b = Memory.read m b := by
  induction m with
  | nil => simp [Memory.place, Memory.read, h.symm]
  | cons d m ih =>
    obtain ⟨x, w⟩ := d
    simp only [Memory.place]
    split
    · rw [Memory.read, if_neg h.symm]
    · split
      · next hax => subst hax; simp [Memory.read, h.symm]
      · simp only [Memory.read, ih]

/-- What the core reads after the platform has stored a byte: that byte there, and what it read before elsewhere
(R63). -/
theorem State.memRead_platformStore (s : State) (a b : Nat) (v : Byte) :
    (s.platformStore a v).memRead b = if b = a then (if a < 2 ^ s.addrW then some v else none) else s.memRead b := by
  unfold State.memRead State.platformStore
  by_cases h : b = a
  · subst h; simp [Memory.read_place_same]
  · simp [Memory.read_place_other s.dmem v h, h]

/-- Two canonical memories that read the same everywhere are the same list. -/
theorem Memory.eq_of_read_eq {m n : Memory} (hm : Memory.wf m = true) (hn : Memory.wf n = true)
    (h : ∀ a, Memory.read m a = Memory.read n a) : m = n := by
  induction m generalizing n with
  | nil =>
    cases n with
    | nil => rfl
    | cons d n => have := h d.1; simp [Memory.read] at this
  | cons c m ih =>
    obtain ⟨a, v⟩ := c
    cases n with
    | nil => have := h a; simp [Memory.read] at this
    | cons d n =>
      obtain ⟨b, w⟩ := d
      obtain ⟨hfm, hm'⟩ := Memory.wf_cons.mp hm
      obtain ⟨hfn, hn'⟩ := Memory.wf_cons.mp hn
      have ha := h a
      have hb := h b
      simp only [Memory.read, if_true] at ha hb
      have hab : a = b := by
        by_contra hne
        rw [if_neg (Ne.symm hne)] at ha
        rw [if_neg hne] at hb
        rcases Nat.lt_or_gt_of_ne hne with hlt | hlt
        · rw [Memory.read_eq_none_of_from hfn (by simp only; omega)] at ha; simp at ha
        · rw [Memory.read_eq_none_of_from hfm (by simp only; omega)] at hb; simp at hb
      subst hab
      simp only [if_true, Option.some.injEq] at ha
      subst ha
      congr 1
      refine ih hm' hn' fun x => ?_
      by_cases hx : a = x
      · subst hx
        rw [Memory.read_eq_none_of_from hfm (by simp), Memory.read_eq_none_of_from hfn (by simp)]
      · have := h x
        simpa [Memory.read, hx] using this

end Sys2Proof.Machine
end

