-- ==== Sys2Proof/Laws/State.lean ====
section
/-! SUPPORT. One lemma per field and update of State: what each shared update does to each field. -/

namespace Sys2Proof.Machine

variable (s : State)

/-! ### Writing a marked register -/

@[simp] theorem State.write_cfg (r : DataReg) (v : Word) : (s.write r v).cfg = s.cfg := by cases r <;> rfl
@[simp] theorem State.write_status (r : DataReg) (v : Word) : (s.write r v).status = s.status := by cases r <;> rfl
@[simp] theorem State.write_faddr (r : DataReg) (v : Word) : (s.write r v).faddr = s.faddr := by cases r <;> rfl
@[simp] theorem State.write_table (r : DataReg) (v : Word) : (s.write r v).table = s.table := by cases r <;> rfl
@[simp] theorem State.write_dmem (r : DataReg) (v : Word) : (s.write r v).dmem = s.dmem := by cases r <;> rfl
@[simp] theorem State.write_addrW (r : DataReg) (v : Word) : (s.write r v).addrW = s.addrW := by cases r <;> rfl
@[simp] theorem State.write_inputs (r : DataReg) (v : Word) : (s.write r v).inputs = s.inputs := by cases r <;> rfl
@[simp] theorem State.write_observed (r : DataReg) (v : Word) : (s.write r v).observed = s.observed := by cases r <;> rfl
@[simp] theorem State.write_epoch (r : DataReg) (v : Word) : (s.write r v).epoch = s.epoch := by cases r <;> rfl
@[simp] theorem State.write_unwrittenRead (r : DataReg) (v : Word) : (s.write r v).unwrittenRead = s.unwrittenRead := by cases r <;> rfl

theorem State.slot_write (r q : DataReg) (v : Word) :
    (s.write r v).slot q = if q = r then Slot.of v else s.slot q := by
  cases r <;> cases q <;> rfl

@[simp] theorem State.write_poly_eq (v : Word) : s.write .poly v = { s with poly := Slot.of v } := rfl
@[simp] theorem State.write_iv_eq (v : Word) : s.write .iv v = { s with iv := Slot.of v } := rfl
@[simp] theorem State.write_xorout_eq (v : Word) : s.write .xorout v = { s with xorout := Slot.of v } := rfl
@[simp] theorem State.write_value_eq (v : Word) : s.write .value v = { s with value := Slot.of v } := rfl
@[simp] theorem State.write_npoly_eq (v : Word) : s.write .npoly v = { s with npoly := Slot.of v } := rfl
@[simp] theorem State.write_state_eq (v : Word) : s.write .state v = { s with state := Slot.of v } := rfl
@[simp] theorem State.write_out_eq (v : Word) : s.write .out v = { s with out := Slot.of v } := rfl
@[simp] theorem State.write_addr_eq (v : Word) : s.write .addr v = { s with addr := Slot.of v } := rfl
@[simp] theorem State.write_len_eq (v : Word) : s.write .len v = { s with len := Slot.of v } := rfl

/-! ### Writing a table entry -/

@[simp] theorem State.writeEntry_cfg (i : Byte) (v : Word) : (s.writeEntry i v).cfg = s.cfg := rfl
@[simp] theorem State.writeEntry_poly (i : Byte) (v : Word) : (s.writeEntry i v).poly = s.poly := rfl
@[simp] theorem State.writeEntry_iv (i : Byte) (v : Word) : (s.writeEntry i v).iv = s.iv := rfl
@[simp] theorem State.writeEntry_xorout (i : Byte) (v : Word) : (s.writeEntry i v).xorout = s.xorout := rfl
@[simp] theorem State.writeEntry_value (i : Byte) (v : Word) : (s.writeEntry i v).value = s.value := rfl
@[simp] theorem State.writeEntry_npoly (i : Byte) (v : Word) : (s.writeEntry i v).npoly = s.npoly := rfl
@[simp] theorem State.writeEntry_state (i : Byte) (v : Word) : (s.writeEntry i v).state = s.state := rfl
@[simp] theorem State.writeEntry_out (i : Byte) (v : Word) : (s.writeEntry i v).out = s.out := rfl
@[simp] theorem State.writeEntry_addr (i : Byte) (v : Word) : (s.writeEntry i v).addr = s.addr := rfl
@[simp] theorem State.writeEntry_len (i : Byte) (v : Word) : (s.writeEntry i v).len = s.len := rfl
@[simp] theorem State.writeEntry_status (i : Byte) (v : Word) : (s.writeEntry i v).status = s.status := rfl
@[simp] theorem State.writeEntry_faddr (i : Byte) (v : Word) : (s.writeEntry i v).faddr = s.faddr := rfl
@[simp] theorem State.writeEntry_table (i : Byte) (v : Word) : (s.writeEntry i v).table = s.table.set i.toNat (Slot.of v) i.isLt := rfl
@[simp] theorem State.writeEntry_dmem (i : Byte) (v : Word) : (s.writeEntry i v).dmem = s.dmem := rfl
@[simp] theorem State.writeEntry_addrW (i : Byte) (v : Word) : (s.writeEntry i v).addrW = s.addrW := rfl
@[simp] theorem State.writeEntry_inputs (i : Byte) (v : Word) : (s.writeEntry i v).inputs = s.inputs := rfl
@[simp] theorem State.writeEntry_observed (i : Byte) (v : Word) : (s.writeEntry i v).observed = s.observed := rfl
@[simp] theorem State.writeEntry_epoch (i : Byte) (v : Word) : (s.writeEntry i v).epoch = s.epoch := rfl
@[simp] theorem State.writeEntry_unwrittenRead (i : Byte) (v : Word) : (s.writeEntry i v).unwrittenRead = s.unwrittenRead := rfl

/-! ### The record of unwritten reads -/

@[simp] theorem State.noteReads_cfg (xs : List Source) : (s.noteReads xs).cfg = s.cfg := rfl
@[simp] theorem State.noteReads_poly (xs : List Source) : (s.noteReads xs).poly = s.poly := rfl
@[simp] theorem State.noteReads_iv (xs : List Source) : (s.noteReads xs).iv = s.iv := rfl
@[simp] theorem State.noteReads_xorout (xs : List Source) : (s.noteReads xs).xorout = s.xorout := rfl
@[simp] theorem State.noteReads_value (xs : List Source) : (s.noteReads xs).value = s.value := rfl
@[simp] theorem State.noteReads_npoly (xs : List Source) : (s.noteReads xs).npoly = s.npoly := rfl
@[simp] theorem State.noteReads_state (xs : List Source) : (s.noteReads xs).state = s.state := rfl
@[simp] theorem State.noteReads_out (xs : List Source) : (s.noteReads xs).out = s.out := rfl
@[simp] theorem State.noteReads_addr (xs : List Source) : (s.noteReads xs).addr = s.addr := rfl
@[simp] theorem State.noteReads_len (xs : List Source) : (s.noteReads xs).len = s.len := rfl
@[simp] theorem State.noteReads_status (xs : List Source) : (s.noteReads xs).status = s.status := rfl
@[simp] theorem State.noteReads_faddr (xs : List Source) : (s.noteReads xs).faddr = s.faddr := rfl
@[simp] theorem State.noteReads_table (xs : List Source) : (s.noteReads xs).table = s.table := rfl
@[simp] theorem State.noteReads_dmem (xs : List Source) : (s.noteReads xs).dmem = s.dmem := rfl
@[simp] theorem State.noteReads_addrW (xs : List Source) : (s.noteReads xs).addrW = s.addrW := rfl
@[simp] theorem State.noteReads_inputs (xs : List Source) : (s.noteReads xs).inputs = s.inputs := rfl
@[simp] theorem State.noteReads_observed (xs : List Source) : (s.noteReads xs).observed = s.observed := rfl
@[simp] theorem State.noteReads_epoch (xs : List Source) : (s.noteReads xs).epoch = s.epoch := rfl
@[simp] theorem State.noteReads_unwrittenRead (xs : List Source) : (s.noteReads xs).unwrittenRead = s.firstUnwritten s.unwrittenRead xs := rfl

/-! ### Fault entry -/

@[simp] theorem State.raiseFault_cfg (c : FaultCode) (w : BitVec 32) (a : Word) : (s.raiseFault c w a).cfg = s.cfg := rfl
@[simp] theorem State.raiseFault_poly (c : FaultCode) (w : BitVec 32) (a : Word) : (s.raiseFault c w a).poly = s.poly := rfl
@[simp] theorem State.raiseFault_iv (c : FaultCode) (w : BitVec 32) (a : Word) : (s.raiseFault c w a).iv = s.iv := rfl
@[simp] theorem State.raiseFault_xorout (c : FaultCode) (w : BitVec 32) (a : Word) : (s.raiseFault c w a).xorout = s.xorout := rfl
@[simp] theorem State.raiseFault_value (c : FaultCode) (w : BitVec 32) (a : Word) : (s.raiseFault c w a).value = s.value := rfl
@[simp] theorem State.raiseFault_npoly (c : FaultCode) (w : BitVec 32) (a : Word) : (s.raiseFault c w a).npoly = s.npoly := rfl
@[simp] theorem State.raiseFault_state (c : FaultCode) (w : BitVec 32) (a : Word) : (s.raiseFault c w a).state = s.state := rfl
@[simp] theorem State.raiseFault_out (c : FaultCode) (w : BitVec 32) (a : Word) : (s.raiseFault c w a).out = s.out := rfl
@[simp] theorem State.raiseFault_addr (c : FaultCode) (w : BitVec 32) (a : Word) : (s.raiseFault c w a).addr = s.addr := rfl
@[simp] theorem State.raiseFault_len (c : FaultCode) (w : BitVec 32) (a : Word) : (s.raiseFault c w a).len = s.len := rfl
@[simp] theorem State.raiseFault_status (c : FaultCode) (w : BitVec 32) (a : Word) : (s.raiseFault c w a).status = statusWord w c := rfl
@[simp] theorem State.raiseFault_faddr (c : FaultCode) (w : BitVec 32) (a : Word) : (s.raiseFault c w a).faddr = a := rfl
@[simp] theorem State.raiseFault_table (c : FaultCode) (w : BitVec 32) (a : Word) : (s.raiseFault c w a).table = s.table := rfl
@[simp] theorem State.raiseFault_dmem (c : FaultCode) (w : BitVec 32) (a : Word) : (s.raiseFault c w a).dmem = s.dmem := rfl
@[simp] theorem State.raiseFault_addrW (c : FaultCode) (w : BitVec 32) (a : Word) : (s.raiseFault c w a).addrW = s.addrW := rfl
@[simp] theorem State.raiseFault_inputs (c : FaultCode) (w : BitVec 32) (a : Word) : (s.raiseFault c w a).inputs = s.inputs := rfl
@[simp] theorem State.raiseFault_observed (c : FaultCode) (w : BitVec 32) (a : Word) : (s.raiseFault c w a).observed = s.observed := rfl
@[simp] theorem State.raiseFault_epoch (c : FaultCode) (w : BitVec 32) (a : Word) : (s.raiseFault c w a).epoch = s.epoch := rfl
@[simp] theorem State.raiseFault_unwrittenRead (c : FaultCode) (w : BitVec 32) (a : Word) : (s.raiseFault c w a).unwrittenRead = s.unwrittenRead := rfl

/-! ### A value returned to the host -/

@[simp] theorem State.observe_cfg (v : Word) : (s.observe v).cfg = s.cfg := rfl
@[simp] theorem State.observe_poly (v : Word) : (s.observe v).poly = s.poly := rfl
@[simp] theorem State.observe_iv (v : Word) : (s.observe v).iv = s.iv := rfl
@[simp] theorem State.observe_xorout (v : Word) : (s.observe v).xorout = s.xorout := rfl
@[simp] theorem State.observe_value (v : Word) : (s.observe v).value = s.value := rfl
@[simp] theorem State.observe_npoly (v : Word) : (s.observe v).npoly = s.npoly := rfl
@[simp] theorem State.observe_state (v : Word) : (s.observe v).state = s.state := rfl
@[simp] theorem State.observe_out (v : Word) : (s.observe v).out = s.out := rfl
@[simp] theorem State.observe_addr (v : Word) : (s.observe v).addr = s.addr := rfl
@[simp] theorem State.observe_len (v : Word) : (s.observe v).len = s.len := rfl
@[simp] theorem State.observe_status (v : Word) : (s.observe v).status = s.status := rfl
@[simp] theorem State.observe_faddr (v : Word) : (s.observe v).faddr = s.faddr := rfl
@[simp] theorem State.observe_table (v : Word) : (s.observe v).table = s.table := rfl
@[simp] theorem State.observe_dmem (v : Word) : (s.observe v).dmem = s.dmem := rfl
@[simp] theorem State.observe_addrW (v : Word) : (s.observe v).addrW = s.addrW := rfl
@[simp] theorem State.observe_inputs (v : Word) : (s.observe v).inputs = s.inputs := rfl
@[simp] theorem State.observe_observed (v : Word) : (s.observe v).observed = s.observed ++ [v] := rfl
@[simp] theorem State.observe_epoch (v : Word) : (s.observe v).epoch = s.epoch := rfl
@[simp] theorem State.observe_unwrittenRead (v : Word) : (s.observe v).unwrittenRead = s.unwrittenRead := rfl

/-! ### The inputs still to come -/

@[simp] theorem State.withInputs_cfg (xs : List Input) : (s.withInputs xs).cfg = s.cfg := rfl
@[simp] theorem State.withInputs_poly (xs : List Input) : (s.withInputs xs).poly = s.poly := rfl
@[simp] theorem State.withInputs_iv (xs : List Input) : (s.withInputs xs).iv = s.iv := rfl
@[simp] theorem State.withInputs_xorout (xs : List Input) : (s.withInputs xs).xorout = s.xorout := rfl
@[simp] theorem State.withInputs_value (xs : List Input) : (s.withInputs xs).value = s.value := rfl
@[simp] theorem State.withInputs_npoly (xs : List Input) : (s.withInputs xs).npoly = s.npoly := rfl
@[simp] theorem State.withInputs_state (xs : List Input) : (s.withInputs xs).state = s.state := rfl
@[simp] theorem State.withInputs_out (xs : List Input) : (s.withInputs xs).out = s.out := rfl
@[simp] theorem State.withInputs_addr (xs : List Input) : (s.withInputs xs).addr = s.addr := rfl
@[simp] theorem State.withInputs_len (xs : List Input) : (s.withInputs xs).len = s.len := rfl
@[simp] theorem State.withInputs_status (xs : List Input) : (s.withInputs xs).status = s.status := rfl
@[simp] theorem State.withInputs_faddr (xs : List Input) : (s.withInputs xs).faddr = s.faddr := rfl
@[simp] theorem State.withInputs_table (xs : List Input) : (s.withInputs xs).table = s.table := rfl
@[simp] theorem State.withInputs_dmem (xs : List Input) : (s.withInputs xs).dmem = s.dmem := rfl
@[simp] theorem State.withInputs_addrW (xs : List Input) : (s.withInputs xs).addrW = s.addrW := rfl
@[simp] theorem State.withInputs_inputs (xs : List Input) : (s.withInputs xs).inputs = xs := rfl
@[simp] theorem State.withInputs_observed (xs : List Input) : (s.withInputs xs).observed = s.observed := rfl
@[simp] theorem State.withInputs_epoch (xs : List Input) : (s.withInputs xs).epoch = s.epoch := rfl
@[simp] theorem State.withInputs_unwrittenRead (xs : List Input) : (s.withInputs xs).unwrittenRead = s.unwrittenRead := rfl

/-! ### Building the table -/

@[simp] theorem State.buildTable_cfg (p : Word) : (s.buildTable p).cfg = s.cfg := by unfold State.buildTable; rfl
@[simp] theorem State.buildTable_poly (p : Word) : (s.buildTable p).poly = s.poly := by unfold State.buildTable; rfl
@[simp] theorem State.buildTable_iv (p : Word) : (s.buildTable p).iv = s.iv := by unfold State.buildTable; rfl
@[simp] theorem State.buildTable_xorout (p : Word) : (s.buildTable p).xorout = s.xorout := by unfold State.buildTable; rfl
@[simp] theorem State.buildTable_value (p : Word) : (s.buildTable p).value = s.value := by unfold State.buildTable; rfl
@[simp] theorem State.buildTable_npoly (p : Word) : (s.buildTable p).npoly = s.npoly := by unfold State.buildTable; rfl
@[simp] theorem State.buildTable_state (p : Word) : (s.buildTable p).state = s.state := by unfold State.buildTable; rfl
@[simp] theorem State.buildTable_out (p : Word) : (s.buildTable p).out = s.out := by unfold State.buildTable; rfl
@[simp] theorem State.buildTable_addr (p : Word) : (s.buildTable p).addr = s.addr := by unfold State.buildTable; rfl
@[simp] theorem State.buildTable_len (p : Word) : (s.buildTable p).len = s.len := by unfold State.buildTable; rfl
@[simp] theorem State.buildTable_status (p : Word) : (s.buildTable p).status = s.status := by unfold State.buildTable; rfl
@[simp] theorem State.buildTable_faddr (p : Word) : (s.buildTable p).faddr = s.faddr := by unfold State.buildTable; rfl
@[simp] theorem State.buildTable_table (p : Word) : (s.buildTable p).table = builtTable s.width s.refl p := by unfold State.buildTable; rfl
@[simp] theorem State.buildTable_dmem (p : Word) : (s.buildTable p).dmem = s.dmem := by unfold State.buildTable; rfl
@[simp] theorem State.buildTable_addrW (p : Word) : (s.buildTable p).addrW = s.addrW := by unfold State.buildTable; rfl
@[simp] theorem State.buildTable_inputs (p : Word) : (s.buildTable p).inputs = s.inputs := by unfold State.buildTable; rfl
@[simp] theorem State.buildTable_observed (p : Word) : (s.buildTable p).observed = s.observed := by unfold State.buildTable; rfl
@[simp] theorem State.buildTable_epoch (p : Word) : (s.buildTable p).epoch = s.epoch := by unfold State.buildTable; rfl
@[simp] theorem State.buildTable_unwrittenRead (p : Word) : (s.buildTable p).unwrittenRead = s.unwrittenRead := by unfold State.buildTable; rfl

/-! ### Reset -/

@[simp] theorem State.resetBlock_cfg : (s.resetBlock).cfg = 0#64 := rfl
@[simp] theorem State.resetBlock_poly : (s.resetBlock).poly = Slot.unwritten := rfl
@[simp] theorem State.resetBlock_iv : (s.resetBlock).iv = Slot.unwritten := rfl
@[simp] theorem State.resetBlock_xorout : (s.resetBlock).xorout = Slot.unwritten := rfl
@[simp] theorem State.resetBlock_value : (s.resetBlock).value = Slot.unwritten := rfl
@[simp] theorem State.resetBlock_npoly : (s.resetBlock).npoly = Slot.unwritten := rfl
@[simp] theorem State.resetBlock_state : (s.resetBlock).state = Slot.unwritten := rfl
@[simp] theorem State.resetBlock_out : (s.resetBlock).out = Slot.unwritten := rfl
@[simp] theorem State.resetBlock_addr : (s.resetBlock).addr = Slot.unwritten := rfl
@[simp] theorem State.resetBlock_len : (s.resetBlock).len = Slot.unwritten := rfl
@[simp] theorem State.resetBlock_status : (s.resetBlock).status = 0#64 := rfl
@[simp] theorem State.resetBlock_faddr : (s.resetBlock).faddr = 0#64 := rfl
@[simp] theorem State.resetBlock_table : (s.resetBlock).table = Vector.replicate 256 Slot.unwritten := rfl
@[simp] theorem State.resetBlock_dmem : (s.resetBlock).dmem = s.dmem := rfl
@[simp] theorem State.resetBlock_addrW : (s.resetBlock).addrW = s.addrW := rfl
@[simp] theorem State.resetBlock_inputs : (s.resetBlock).inputs = s.inputs := rfl
@[simp] theorem State.resetBlock_observed : (s.resetBlock).observed = s.observed := rfl
@[simp] theorem State.resetBlock_epoch : (s.resetBlock).epoch = s.epoch + 1 := rfl
@[simp] theorem State.resetBlock_unwrittenRead : (s.resetBlock).unwrittenRead = s.unwrittenRead := rfl

/-! ### A byte the platform stores -/

@[simp] theorem State.platformStore_cfg (a : Nat) (v : Byte) : (s.platformStore a v).cfg = s.cfg := rfl
@[simp] theorem State.platformStore_poly (a : Nat) (v : Byte) : (s.platformStore a v).poly = s.poly := rfl
@[simp] theorem State.platformStore_iv (a : Nat) (v : Byte) : (s.platformStore a v).iv = s.iv := rfl
@[simp] theorem State.platformStore_xorout (a : Nat) (v : Byte) : (s.platformStore a v).xorout = s.xorout := rfl
@[simp] theorem State.platformStore_value (a : Nat) (v : Byte) : (s.platformStore a v).value = s.value := rfl
@[simp] theorem State.platformStore_npoly (a : Nat) (v : Byte) : (s.platformStore a v).npoly = s.npoly := rfl
@[simp] theorem State.platformStore_state (a : Nat) (v : Byte) : (s.platformStore a v).state = s.state := rfl
@[simp] theorem State.platformStore_out (a : Nat) (v : Byte) : (s.platformStore a v).out = s.out := rfl
@[simp] theorem State.platformStore_addr (a : Nat) (v : Byte) : (s.platformStore a v).addr = s.addr := rfl
@[simp] theorem State.platformStore_len (a : Nat) (v : Byte) : (s.platformStore a v).len = s.len := rfl
@[simp] theorem State.platformStore_status (a : Nat) (v : Byte) : (s.platformStore a v).status = s.status := rfl
@[simp] theorem State.platformStore_faddr (a : Nat) (v : Byte) : (s.platformStore a v).faddr = s.faddr := rfl
@[simp] theorem State.platformStore_table (a : Nat) (v : Byte) : (s.platformStore a v).table = s.table := rfl
@[simp] theorem State.platformStore_addrW (a : Nat) (v : Byte) : (s.platformStore a v).addrW = s.addrW := rfl
@[simp] theorem State.platformStore_inputs (a : Nat) (v : Byte) : (s.platformStore a v).inputs = s.inputs := rfl
@[simp] theorem State.platformStore_observed (a : Nat) (v : Byte) : (s.platformStore a v).observed = s.observed := rfl
@[simp] theorem State.platformStore_epoch (a : Nat) (v : Byte) : (s.platformStore a v).epoch = s.epoch := rfl
@[simp] theorem State.platformStore_unwrittenRead (a : Nat) (v : Byte) : (s.platformStore a v).unwrittenRead = s.unwrittenRead := rfl
@[simp] theorem State.platformStore_dmem (a : Nat) (v : Byte) : (s.platformStore a v).dmem = s.dmem.place a v := rfl
@[simp] theorem State.platformStore_width (a : Nat) (v : Byte) : (s.platformStore a v).width = s.width := rfl
@[simp] theorem State.platformStore_refl (a : Nat) (v : Byte) : (s.platformStore a v).refl = s.refl := rfl
@[simp] theorem State.platformStore_faulted (a : Nat) (v : Byte) : (s.platformStore a v).faulted = s.faulted := rfl

/-! ### What is read through these updates -/

@[simp] theorem Slot.of_val (v : Word) : (Slot.of v).val = v := rfl
@[simp] theorem Slot.of_written (v : Word) : (Slot.of v).written = true := rfl
@[simp] theorem Slot.unwritten_written : Slot.unwritten.written = false := rfl
@[simp] theorem Slot.read_of (v free : Word) : (Slot.of v).read free = v := rfl
@[simp] theorem Slot.read_unwritten (free : Word) : Slot.unwritten.read free = free := rfl

@[simp] theorem State.noteReads_width (xs : List Source) : (s.noteReads xs).width = s.width := rfl
@[simp] theorem State.noteReads_refl (xs : List Source) : (s.noteReads xs).refl = s.refl := rfl
@[simp] theorem State.noteReads_slot (xs : List Source) (r : DataReg) : (s.noteReads xs).slot r = s.slot r := by cases r <;> rfl
@[simp] theorem State.noteReads_read (xs : List Source) (r : DataReg) : (s.noteReads xs).read r = s.read r := by cases r <;> rfl
@[simp] theorem State.noteReads_entrySlot (xs : List Source) (i : Byte) : (s.noteReads xs).entrySlot i = s.entrySlot i := rfl
@[simp] theorem State.noteReads_readEntry (xs : List Source) (i : Byte) : (s.noteReads xs).readEntry i = s.readEntry i := rfl
@[simp] theorem State.noteReads_memRead (xs : List Source) (a : Nat) : (s.noteReads xs).memRead a = s.memRead a := rfl
@[simp] theorem State.noteReads_faulted (xs : List Source) : (s.noteReads xs).faulted = s.faulted := rfl
@[simp] theorem State.raiseFault_width (c : FaultCode) (w : BitVec 32) (a : Word) : (s.raiseFault c w a).width = s.width := rfl
@[simp] theorem State.raiseFault_refl (c : FaultCode) (w : BitVec 32) (a : Word) : (s.raiseFault c w a).refl = s.refl := rfl
@[simp] theorem State.raiseFault_slot (c : FaultCode) (w : BitVec 32) (a : Word) (r : DataReg) : (s.raiseFault c w a).slot r = s.slot r := by cases r <;> rfl
@[simp] theorem State.raiseFault_read (c : FaultCode) (w : BitVec 32) (a : Word) (r : DataReg) : (s.raiseFault c w a).read r = s.read r := by cases r <;> rfl
@[simp] theorem State.raiseFault_entrySlot (c : FaultCode) (w : BitVec 32) (a : Word) (i : Byte) : (s.raiseFault c w a).entrySlot i = s.entrySlot i := rfl
@[simp] theorem State.raiseFault_readEntry (c : FaultCode) (w : BitVec 32) (a : Word) (i : Byte) : (s.raiseFault c w a).readEntry i = s.readEntry i := rfl
@[simp] theorem State.raiseFault_memRead (c : FaultCode) (w : BitVec 32) (a : Word) (b : Nat) : (s.raiseFault c w a).memRead b = s.memRead b := rfl
@[simp] theorem State.observe_width (v : Word) : (s.observe v).width = s.width := rfl
@[simp] theorem State.observe_refl (v : Word) : (s.observe v).refl = s.refl := rfl
@[simp] theorem State.observe_slot (v : Word) (r : DataReg) : (s.observe v).slot r = s.slot r := by cases r <;> rfl
@[simp] theorem State.observe_read (v : Word) (r : DataReg) : (s.observe v).read r = s.read r := by cases r <;> rfl
@[simp] theorem State.observe_entrySlot (v : Word) (i : Byte) : (s.observe v).entrySlot i = s.entrySlot i := rfl
@[simp] theorem State.observe_readEntry (v : Word) (i : Byte) : (s.observe v).readEntry i = s.readEntry i := rfl
@[simp] theorem State.observe_memRead (v : Word) (a : Nat) : (s.observe v).memRead a = s.memRead a := rfl
@[simp] theorem State.observe_faulted (v : Word) : (s.observe v).faulted = s.faulted := rfl
@[simp] theorem State.withInputs_width (xs : List Input) : (s.withInputs xs).width = s.width := rfl
@[simp] theorem State.withInputs_refl (xs : List Input) : (s.withInputs xs).refl = s.refl := rfl
@[simp] theorem State.withInputs_slot (xs : List Input) (r : DataReg) : (s.withInputs xs).slot r = s.slot r := by cases r <;> rfl
@[simp] theorem State.withInputs_read (xs : List Input) (r : DataReg) : (s.withInputs xs).read r = s.read r := by cases r <;> rfl
@[simp] theorem State.withInputs_entrySlot (xs : List Input) (i : Byte) : (s.withInputs xs).entrySlot i = s.entrySlot i := rfl
@[simp] theorem State.withInputs_readEntry (xs : List Input) (i : Byte) : (s.withInputs xs).readEntry i = s.readEntry i := rfl
@[simp] theorem State.withInputs_memRead (xs : List Input) (a : Nat) : (s.withInputs xs).memRead a = s.memRead a := rfl
@[simp] theorem State.withInputs_faulted (xs : List Input) : (s.withInputs xs).faulted = s.faulted := rfl
@[simp] theorem State.write_width (r : DataReg) (v : Word) : (s.write r v).width = s.width := by cases r <;> rfl
@[simp] theorem State.writeEntry_width (i : Byte) (v : Word) : (s.writeEntry i v).width = s.width := rfl
@[simp] theorem State.buildTable_width (p : Word) : (s.buildTable p).width = s.width := by simp only [State.width, State.buildTable_cfg]
@[simp] theorem State.write_refl (r : DataReg) (v : Word) : (s.write r v).refl = s.refl := by cases r <;> rfl
@[simp] theorem State.writeEntry_refl (i : Byte) (v : Word) : (s.writeEntry i v).refl = s.refl := rfl
@[simp] theorem State.buildTable_refl (p : Word) : (s.buildTable p).refl = s.refl := by simp only [State.refl, State.buildTable_cfg]
@[simp] theorem State.write_faulted (r : DataReg) (v : Word) : (s.write r v).faulted = s.faulted := by cases r <;> rfl
@[simp] theorem State.writeEntry_faulted (i : Byte) (v : Word) : (s.writeEntry i v).faulted = s.faulted := rfl
@[simp] theorem State.buildTable_faulted (p : Word) : (s.buildTable p).faulted = s.faulted := by simp only [State.faulted, State.buildTable_status]
@[simp] theorem State.buildTable_slot (p : Word) (r : DataReg) : (s.buildTable p).slot r = s.slot r := by
  cases r <;> simp only [State.slot, State.buildTable_poly, State.buildTable_iv, State.buildTable_xorout,
    State.buildTable_value, State.buildTable_npoly, State.buildTable_state, State.buildTable_out,
    State.buildTable_addr, State.buildTable_len]
@[simp] theorem State.buildTable_read (p : Word) (r : DataReg) : (s.buildTable p).read r = s.read r := by
  simp only [State.read, State.buildTable_slot, State.buildTable_epoch]
@[simp] theorem State.buildTable_memRead (p : Word) (a : Nat) : (s.buildTable p).memRead a = s.memRead a := by
  simp only [State.memRead, State.buildTable_dmem, State.buildTable_addrW]
@[simp] theorem State.write_entrySlot (r : DataReg) (v : Word) (i : Byte) : (s.write r v).entrySlot i = s.entrySlot i := by
  simp only [State.entrySlot, State.write_table]
@[simp] theorem State.write_readEntry (r : DataReg) (v : Word) (i : Byte) : (s.write r v).readEntry i = s.readEntry i := by
  simp only [State.readEntry, State.write_entrySlot, State.write_epoch]
@[simp] theorem State.write_memRead (r : DataReg) (v : Word) (a : Nat) : (s.write r v).memRead a = s.memRead a := by
  simp only [State.memRead, State.write_dmem, State.write_addrW]
@[simp] theorem State.writeEntry_slot (i : Byte) (v : Word) (r : DataReg) : (s.writeEntry i v).slot r = s.slot r := by
  cases r <;> rfl
@[simp] theorem State.writeEntry_read (i : Byte) (v : Word) (r : DataReg) : (s.writeEntry i v).read r = s.read r := by
  cases r <;> rfl
@[simp] theorem State.resetBlock_faulted : s.resetBlock.faulted = false := by
  simp [State.faulted]

/-- After `x[NAME] <- v`, reading NAME gives `v` and every other register reads as before. -/
theorem State.read_write (r q : DataReg) (v : Word) :
    (s.write r v).read q = if q = r then v else s.read q := by
  cases r <;> cases q <;> rfl

/-- After `T[i] <- v`, entry `i` is `v`, written, and every other entry is as before. -/
theorem State.entrySlot_writeEntry (i j : Byte) (v : Word) :
    (s.writeEntry i v).entrySlot j = if j = i then Slot.of v else s.entrySlot j := by
  by_cases h : j = i
  · subst h; simp [State.entrySlot]
  · have : i.toNat ≠ j.toNat := fun e => h (BitVec.eq_of_toNat_eq e.symm)
    simp [State.entrySlot, this, h]

/-- After the table is built, every entry is the Table Builder's, written. -/
theorem State.entrySlot_buildTable (p : Word) (i : Byte) :
    (s.buildTable p).entrySlot i = Slot.of (tableEntry s.width s.refl p i) := by
  simp [State.entrySlot, builtTable]

end Sys2Proof.Machine
end

