-- ==== Sys2Proof/Laws/Ops.lean ====
section
/-! SUPPORT. What each shared operation can do, said once: the command prologue, the walk over a buffer, and their
ends. -/

namespace Sys2Proof.Machine

/-! ### Readiness -/

theorem State.widthLegal_iff (s : State) : s.widthLegal = true ↔ 1 ≤ s.width ∧ s.width ≤ 64 := by
  simp [State.widthLegal]

theorem State.ready_iff (s : State) : s.ready ↔ s.faulted = false ∧ s.widthLegal = true := by
  rw [State.widthLegal_iff]; rfl

@[simp] theorem State.noteReads_ready (s : State) (xs : List Source) : (s.noteReads xs).ready ↔ s.ready := Iff.rfl

/-- STATUS's low half as fault entry writes it: FCODE and FAULT beside the reserved zeros (R32, R243). -/
theorem statusWord_eq (w : BitVec 32) (c : FaultCode) :
    statusWord w c = (w.setWidth 64 <<< 32) ||| BitVec.ofNat 64 (256 * c.number.toNat + 1) := by
  rw [statusWord, BitVec.or_assoc]
  congr 1
  cases c <;> decide

/-- The FAULT bit that fault entry writes (R243). -/
@[simp] theorem statusWord_fault (w : BitVec 32) (c : FaultCode) : (statusWord w c).getLsbD 0 = true := by
  simp [statusWord]

/-- FCODE as fault entry writes it (R240, R243). -/
@[simp] theorem statusWord_fcode (w : BitVec 32) (c : FaultCode) :
    (statusWord w c).extractLsb' 8 8 = c.number := by
  rw [statusWord_eq]
  apply BitVec.eq_of_getLsbD_eq
  intro i hi
  have h0 : ∀ c : FaultCode, (BitVec.ofNat 64 (256 * c.number.toNat + 1)).extractLsb' 8 8 = c.number := by
    intro c; cases c <;> decide
  have h := congrArg (fun x => x.getLsbD i) (h0 c)
  simp only [BitVec.getLsbD_extractLsb', hi, decide_true, Bool.true_and] at h
  simp [BitVec.getLsbD_or, BitVec.getLsbD_shiftLeft, hi, h, show 8 + i < 32 by omega]

/-- FCMD as fault entry writes it (R240, R243). -/
@[simp] theorem statusWord_fcmd (w : BitVec 32) (c : FaultCode) :
    (statusWord w c).extractLsb' 32 32 = w := by
  rw [statusWord_eq]
  apply BitVec.eq_of_getLsbD_eq
  intro i hi
  have h0 : ∀ c : FaultCode, (BitVec.ofNat 64 (256 * c.number.toNat + 1)).extractLsb' 32 32 = 0#32 := by
    intro c; cases c <;> decide
  have h := congrArg (fun x => x.getLsbD i) (h0 c)
  simp only [BitVec.getLsbD_extractLsb', hi, decide_true, Bool.true_and, BitVec.getLsbD_zero] at h
  rw [BitVec.getLsbD_extractLsb', BitVec.getLsbD_or, h, BitVec.getLsbD_shiftLeft, BitVec.getLsbD_setWidth]
  simp [hi, show 32 + i < 64 by omega, show i < 64 by omega]

@[simp] theorem State.raiseFault_faulted (s : State) (c : FaultCode) (w : BitVec 32) (a : Word) :
    (s.raiseFault c w a).faulted = true := by
  simp only [State.faulted, State.raiseFault_status, statusWord_fault]

/-! ### The command prologue -/

section Prologue

variable {word : BitVec 32} {L : Nat} {rs : List DataReg} {s : State} {body : State → State}

theorem withCommand_faulted (h : s.faulted = true) : withCommand word L rs s body = .next s := by
  simp [withCommand, h]

theorem withCommand_widthRange (hf : s.faulted = false) (hw : s.widthLegal = false) :
    withCommand word L rs s body = .next (s.raiseFault .widthRange word 0#64) := by
  simp [withCommand, hf, hw]

theorem withCommand_laneWidth (h : s.ready) (hl : L < s.width) :
    withCommand word L rs s body = .next (s.raiseFault .laneWidth word 0#64) := by
  obtain ⟨hf, hw⟩ := s.ready_iff.mp h
  simp [withCommand, hf, hw, hl]

theorem withCommand_runs (h : s.ready) (hl : s.width ≤ L) :
    withCommand word L rs s body = .next (body (s.noteReads (rs.map .reg))) := by
  obtain ⟨hf, hw⟩ := s.ready_iff.mp h
  simp [withCommand, hf, hw, Nat.not_lt.mpr hl]

/-- Everything a command can do: nothing while FAULT = 1, a width or lane fault, or its own work. -/
theorem withCommand_cases {t : State} (h : withCommand word L rs s body = .next t) :
    (s.faulted = true ∧ t = s) ∨
    (s.faulted = false ∧ s.widthLegal = false ∧ t = s.raiseFault .widthRange word 0#64) ∨
    (s.ready ∧ L < s.width ∧ t = s.raiseFault .laneWidth word 0#64) ∨
    (s.ready ∧ s.width ≤ L ∧ t = body (s.noteReads (rs.map .reg))) := by
  rw [State.ready_iff]
  unfold withCommand at h
  cases hf : s.faulted <;> cases hw : s.widthLegal <;> simp [hf, hw] at h ⊢
  · exact h.symm
  · split at h
    · next hl => left; exact ⟨hl, by simpa using h.symm⟩
    · next hl => right; exact ⟨by omega, by simpa using h.symm⟩
  · exact h.symm
  · exact h.symm

/-- A command always answers a next state. -/
theorem withCommand_next : ∃ t, withCommand word L rs s body = .next t := by
  unfold withCommand
  split
  · exact ⟨_, rfl⟩
  · split
    · exact ⟨_, rfl⟩
    · split <;> exact ⟨_, rfl⟩

end Prologue

/-! ### The walk over a buffer -/

section Buffer

variable (s : State)

/-- A walk whose bytes can all be read folds them in order (R64). -/
theorem State.walkBuffer_bitwise (W : Nat) (RF : Bool) (p : Word) (d : List Byte) (a : Nat) (w : Walk)
    (h : ∀ k, (hk : k < d.length) → s.memRead (a + k) = some d[k]) :
    s.walkBuffer (bitwiseStep W RF p) a d.length w = .ok { w with crc := d.foldl (upd W RF p) w.crc } := by
  induction d generalizing a w with
  | nil => rfl
  | cons b d ih =>
    have h0 : s.memRead a = some b := h 0 (by simp)
    simp only [List.length_cons, State.walkBuffer, h0, bitwiseStep, List.foldl_cons]
    exact ih (a + 1) _ fun k hk => by
      have := h (k + 1) (by simpa using hk)
      simpa [Nat.add_assoc, Nat.add_comm 1 k] using this

/-- The crc a table walk ends with, or the index of its TABLE_INDEX, is the pure function's (R210). -/
theorem State.walkBuffer_table (d : List Byte) (a : Nat) (w : Walk)
    (h : ∀ k, (hk : k < d.length) → s.memRead (a + k) = some d[k]) :
    (∀ c, tupdAll s.width s.refl s.readEntry w.crc d = .ok c →
      ∃ u, s.walkBuffer s.tableStep a d.length w = .ok { crc := c, unwritten := u }) ∧
    (∀ idx, tupdAll s.width s.refl s.readEntry w.crc d = .error idx →
      ∃ u, s.walkBuffer s.tableStep a d.length w =
        .error { code := .tableIndex, faddr := idx, unwritten := u }) := by
  induction d generalizing a w with
  | nil =>
    refine ⟨fun c hc => ?_, fun idx hi => ?_⟩
    · simp only [tupdAll, Except.ok.injEq] at hc
      subst hc
      exact ⟨w.unwritten, rfl⟩
    · simp [tupdAll] at hi
  | cons b d ih =>
    have h0 : s.memRead a = some b := h 0 (by simp)
    have hd : ∀ k, (hk : k < d.length) → s.memRead (a + 1 + k) = some d[k] := fun k hk => by
      have := h (k + 1) (by simpa using hk)
      simpa [Nat.add_assoc, Nat.add_comm 1 k] using this
    simp only [tupdAll, tupd, List.length_cons, State.walkBuffer, h0, State.tableStep]
    cases hi : tableIndex s.width s.refl w.crc b with
    | error idx => exact ⟨fun c hc => by simp at hc, fun x hx => ⟨w.unwritten, by simp_all⟩⟩
    | ok i =>
      exact ih (a + 1)
        { crc := tableCombine s.width s.refl (s.readEntry i) w.crc
          unwritten := s.firstUnwritten w.unwritten [.entry i] } hd

/-- A walk that meets a refused byte before anything else stops there (R63, R247 step 8). -/
theorem State.walkBuffer_bitwise_refused (W : Nat) (RF : Bool) (p : Word) (n k a : Nat) (w : Walk) (hk : k < n)
    (hread : ∀ j < k, (s.memRead (a + j)).isSome = true) (href : s.memRead (a + k) = none) :
    s.walkBuffer (bitwiseStep W RF p) a n w =
      .error { code := .dataRead, faddr := BitVec.ofNat 64 (a + k), unwritten := w.unwritten } := by
  induction n generalizing k a w with
  | zero => omega
  | succ n ih =>
    cases k with
    | zero =>
      have h0 : s.memRead a = none := href
      simp [State.walkBuffer, h0]
    | succ k =>
      obtain ⟨b, hb⟩ := Option.isSome_iff_exists.mp (hread 0 (by omega))
      have hb' : s.memRead a = some b := hb
      simp only [State.walkBuffer, hb', bitwiseStep]
      rw [ih k (a + 1) _ (by omega)
        (fun j hj => by have := hread (j + 1) (by omega); rwa [show a + 1 + j = a + (j + 1) by omega])
        (by rwa [show a + 1 + k = a + (k + 1) by omega])]
      simp [show a + 1 + k = a + (k + 1) by omega]

/-- A walk that ends well has read every byte of its buffer. -/
theorem State.walkBuffer_ok_reads {f : Walk → Byte → Except Abort Walk} {a n : Nat} {w r : Walk}
    (h : s.walkBuffer f a n w = .ok r) :
    ∃ d : List Byte, d.length = n ∧ ∀ k, (hk : k < d.length) → s.memRead (a + k) = some d[k] := by
  induction n generalizing a w with
  | zero => exact ⟨[], rfl, fun k hk => by simp at hk⟩
  | succ n ih =>
    rw [State.walkBuffer] at h
    cases hb : s.memRead a with
    | none => rw [hb] at h; simp at h
    | some b =>
      rw [hb] at h
      cases hf : f w b with
      | error e => simp [hf] at h
      | ok w' =>
        simp only [hf] at h
        obtain ⟨d, hd, hr⟩ := ih h
        refine ⟨b :: d, by simp [hd], fun k hk => ?_⟩
        cases k with
        | zero => simpa using hb
        | succ k =>
          have := hr k (by simpa using hk)
          rw [show a + 1 + k = a + (k + 1) by omega] at this
          simpa using this

theorem State.finishWalk_ok (word : BitVec 32) (w : Walk) (k : State → Word → State) :
    s.finishWalk word (.ok w) k = k { s with unwrittenRead := w.unwritten } w.crc := rfl

theorem State.finishWalk_error (word : BitVec 32) (e : Abort) (k : State → Word → State) :
    s.finishWalk word (.error e) k =
      { s with unwrittenRead := e.unwritten }.raiseFault e.code word e.faddr := rfl

/-- Everything a one-shot command's own work can do: OUT is written, or DATA_RANGE is raised, or the walk's own
fault is. -/
theorem State.oneShot_cases (word : BitVec 32) (f : Walk → Byte → Except Abort Walk) :
    (∃ v u, s.oneShot word f = { s with out := Slot.of v, unwrittenRead := u }) ∨
    (s.oneShot word f = s.raiseFault .dataRange word (s.read .addr)) ∨
    (∃ c a u, s.oneShot word f = { s with unwrittenRead := u }.raiseFault c word a) := by
  unfold State.oneShot
  split
  · exact .inr (.inl rfl)
  · generalize s.walkBuffer f _ _ _ = r
    cases r with
    | ok w => exact .inl ⟨_, _, rfl⟩
    | error e => exact .inr (.inr ⟨_, _, _, rfl⟩)

/-- A one-shot command on a readable buffer goes on to its walk (R64). -/
theorem State.oneShot_walks (word : BitVec 32) (f : Walk → Byte → Except Abort Walk) {d : List Byte}
    (h : s.bufferHolds d) :
    s.oneShot word f =
      s.finishWalk word
        (s.walkBuffer f (s.read .addr).toNat d.length
          { crc := normOf s.width s.refl (s.read .iv), unwritten := s.unwrittenRead })
        fun t c => t.write .out (fin s.width s.refl (s.read .xorout) c) := by
  obtain ⟨hl, hr, _⟩ := h
  rw [State.oneShot, if_neg (by omega), hl]

end Buffer

/-! ### Commands and host accesses always answer a next state -/

/-- A command's own work, after its prologue. -/
def commandBody (i : Instr) (t : State) : State :=
  match i with
  | .reflect => t.write .out (reflect t.width (t.read .value))
  | .reflect8 => t.write .out (laneReflect 8 t.width (t.read .value))
  | .reflect16 => t.write .out (laneReflect 16 t.width (t.read .value))
  | .reflect32 => t.write .out (laneReflect 32 t.width (t.read .value))
  | .reflect64 => t.write .out (laneReflect 64 t.width (t.read .value))
  | .mask => t.write .out (mask t.width t.refl (t.read .value))
  | .setupPoly => t.write .npoly (normOf t.width t.refl (t.read .poly))
  | .setupState => t.write .state (normOf t.width t.refl (t.read .iv))
  | .update b => t.write .state (upd t.width t.refl (t.read .npoly) (t.read .state) b)
  | .result => t.write .out (fin t.width t.refl (t.read .xorout) (t.read .state))
  | .tableInit => t.buildTable (normOf t.width t.refl (t.read .poly))
  | .crc => t.oneShot (commandWord .crc) (bitwiseStep t.width t.refl (normOf t.width t.refl (t.read .poly)))
  | .tableCrc => t.oneShot (commandWord .tableCrc) t.tableStep
  | .tableUpdate b =>
    t.finishWalk (commandWord (.tableUpdate b))
      (t.tableStep { crc := t.read .state, unwritten := t.unwrittenRead } b) fun u c => u.write .state c
  | .wr _ _ _ | .rd _ _ => t

/-- Every command is its own work inside the shared prologue, with its own command word (R92, R246, R247). -/
theorem exec_command_eq {i : Instr} (h : i.isCommand = true) (s : State) :
    exec i s = withCommand (commandWord i) (commandLane i) (commandReads i) s (commandBody i) := by
  cases i <;> first | rfl | cases h

/-- A command run from a CMD write is the command itself (R92). -/
theorem runCommand_eq_exec {i : Instr} (h : i.isCommand = true) (s : State) : runCommand i s = exec i s := by
  cases i <;> first | rfl | cases h

theorem exec_command_next {i : Instr} (h : i.isCommand = true) (s : State) : ∃ t, exec i s = .next t := by
  rw [exec_command_eq h]
  exact withCommand_next

theorem exec_wr (z : AccessSize) (off : Offset) (d : Word) (s : State) :
    exec (.wr z off d) s = execWr z off d s := rfl

theorem exec_rd (z : AccessSize) (off : Offset) (s : State) : exec (.rd z off) s = execRd z off s := rfl

/-! ### Writes to CMD -/

/-- CMD at its offset is admitted for an 8-byte write (R20, R62). -/
theorem admitted_cmd_write : admitted .eight cmdOffset .write = some .cmd := by decide

theorem execWr_cmd_ok {d : Word} {i : Instr} {s : State} (hf : s.faulted = false) (h : decodeCommand d = .ok i)
    (hi : i.isCommand = true) : execWr .eight cmdOffset d s = exec i s := by
  simp [execWr, hf, admitted_cmd_write, cmdWritten, h, runCommand_eq_exec hi]

theorem execWr_cmd_error {d : Word} {e : DecodeError} {s : State} (hf : s.faulted = false)
    (h : decodeCommand d = .error e) :
    execWr .eight cmdOffset d s = .next (s.raiseFault .illegalCmd (d.extractLsb' 0 32) 0#64) := by
  simp [execWr, hf, admitted_cmd_write, cmdWritten, h]

end Sys2Proof.Machine
end

