-- ==== Sys2Proof/Laws/PerInstr.lean ====
section
/-! SUPPORT. One law for every instruction, one lemma per constructor: its transaction's fields and its command word. -/

namespace Sys2Proof.Laws

open Sys2Proof

/-- What the encoding of an instruction looks like: a command is an 8-byte write to CMD whose word has RSV = 0 and is
read back as that command (R91, R93, R99); WR and RD carry their own SIZE, DIR and OFFSET (R90). -/
def EncodedFields.Statement (i : Instr) : Prop :=
  match i with
  | .wr z off d =>
    sizeOfField ((encode i).extractLsb' 77 2) = z ∧ (encode i).getLsbD 76 = true ∧
      (encode i).extractLsb' 64 12 = off ∧ (encode i).extractLsb' 0 64 = d
  | .rd z off =>
    sizeOfField ((encode i).extractLsb' 77 2) = z ∧ (encode i).getLsbD 76 = false ∧
      (encode i).extractLsb' 64 12 = off
  | c =>
    encode c = cmdWrite (commandWord c) ∧ ((commandWord c).setWidth 64).extractLsb' 8 16 = 0#16 ∧
      decodeCommand ((commandWord c).setWidth 64) = .ok c

namespace EncodedFields

theorem reflect : Statement .reflect := ⟨rfl, commandWordOf_rsv .., decodeCommand_commandWord rfl⟩
theorem setupPoly : Statement .setupPoly := ⟨rfl, commandWordOf_rsv .., decodeCommand_commandWord rfl⟩
theorem setupState : Statement .setupState := ⟨rfl, commandWordOf_rsv .., decodeCommand_commandWord rfl⟩
theorem update (b : Byte) : Statement (.update b) := ⟨rfl, commandWordOf_rsv .., decodeCommand_commandWord rfl⟩
theorem result : Statement .result := ⟨rfl, commandWordOf_rsv .., decodeCommand_commandWord rfl⟩
theorem crc : Statement .crc := ⟨rfl, commandWordOf_rsv .., decodeCommand_commandWord rfl⟩
theorem tableInit : Statement .tableInit := ⟨rfl, commandWordOf_rsv .., decodeCommand_commandWord rfl⟩
theorem tableUpdate (b : Byte) : Statement (.tableUpdate b) :=
  ⟨rfl, commandWordOf_rsv .., decodeCommand_commandWord rfl⟩
theorem tableCrc : Statement .tableCrc := ⟨rfl, commandWordOf_rsv .., decodeCommand_commandWord rfl⟩
theorem mask : Statement .mask := ⟨rfl, commandWordOf_rsv .., decodeCommand_commandWord rfl⟩
theorem reflect8 : Statement .reflect8 := ⟨rfl, commandWordOf_rsv .., decodeCommand_commandWord rfl⟩
theorem reflect16 : Statement .reflect16 := ⟨rfl, commandWordOf_rsv .., decodeCommand_commandWord rfl⟩
theorem reflect32 : Statement .reflect32 := ⟨rfl, commandWordOf_rsv .., decodeCommand_commandWord rfl⟩
theorem reflect64 : Statement .reflect64 := ⟨rfl, commandWordOf_rsv .., decodeCommand_commandWord rfl⟩

theorem wr (z : AccessSize) (off : Offset) (d : Word) : Statement (.wr z off d) := by
  refine ⟨?_, transactionOf_dir .., transactionOf_off .., transactionOf_data ..⟩
  rw [encode, transactionOf_size, sizeOfField_sizeField]

theorem rd (z : AccessSize) (off : Offset) : Statement (.rd z off) := by
  refine ⟨?_, transactionOf_dir .., transactionOf_off ..⟩
  rw [encode, transactionOf_size, sizeOfField_sizeField]

end EncodedFields
end Sys2Proof.Laws
end

