-- ==== Sys2Proof/Laws/Step.lean ====
section
/-! SUPPORT. Everything a command, a host access and a step can do to the state, said once. -/

namespace Sys2Proof.Machine

variable {s t : State}

/-! ### Commands -/

/-- Where a command's own work can fault, and with what (R33, R241). -/
def commandFault (i : Instr) (s : State) (code : FaultCode) (a : Word) : Prop :=
  match code with
  | .illegalCmd => False
  | .badAccess => False
  | .widthRange => a = 0#64
  | .laneWidth => a = 0#64 ∧ (i = .reflect8 ∨ i = .reflect16 ∨ i = .reflect32)
  | .tableIndex =>
    255 < a.toNat ∧
    ((∃ b, i = .tableUpdate b ∧ a = b.setWidth 64 ^^^ s.read .state) ∨
     (i = .tableCrc ∧ ∃ d b c, s.bufferStarts (d ++ [b]) ∧
       tupdAll s.width s.refl s.readEntry (normOf s.width s.refl (s.read .iv)) d = .ok c ∧
       a = b.setWidth 64 ^^^ c))
  | .dataRange =>
    a = s.read .addr ∧ (i = .crc ∨ i = .tableCrc) ∧
    0 < (s.read .len).toNat ∧ 2 ^ s.addrW < (s.read .addr).toNat + (s.read .len).toNat
  | .dataRead =>
    (i = .crc ∨ i = .tableCrc) ∧
    (s.read .addr).toNat + (s.read .len).toNat ≤ 2 ^ s.addrW ∧
    ∃ k < (s.read .len).toNat,
      a = BitVec.ofNat 64 ((s.read .addr).toNat + k) ∧ s.memRead ((s.read .addr).toNat + k) = none

/-- What a command that runs to its end can write (R40). -/
def commandResult (i : Instr) (s t : State) : Prop :=
  (∃ v u, t = { s with out := Slot.of v, unwrittenRead := u } ∧
    (i = .reflect ∨ i = .reflect8 ∨ i = .reflect16 ∨ i = .reflect32 ∨ i = .reflect64 ∨
      i = .mask ∨ i = .result ∨ i = .crc ∨ i = .tableCrc)) ∨
  (∃ v u, t = { s with npoly := Slot.of v, unwrittenRead := u } ∧ i = .setupPoly) ∨
  (∃ v u, t = { s with state := Slot.of v, unwrittenRead := u } ∧
    (i = .setupState ∨ (∃ b, i = .update b) ∨ ∃ b, i = .tableUpdate b)) ∨
  (∃ T u, t = { s with table := T, unwrittenRead := u } ∧ i = .tableInit)

/-- Reading `b :: d` from `a` is reading `b` at `a` and `d` from the next address. -/
theorem State.memRead_cons {a : Nat} {b : Byte} {d : List Byte} :
    (∀ k, (h : k < (b :: d).length) → s.memRead (a + k) = some (b :: d)[k]) ↔
      s.memRead a = some b ∧ ∀ k, (h : k < d.length) → s.memRead (a + 1 + k) = some d[k] := by
  constructor
  · intro h
    refine ⟨h 0 (by simp), fun k hk => ?_⟩
    have := h (k + 1) (by simpa using hk)
    rwa [show a + (k + 1) = a + 1 + k by omega] at this
  · rintro ⟨h0, h⟩ k hk
    cases k with
    | zero => exact h0
    | succ k =>
      rw [show a + (k + 1) = a + 1 + k by omega]
      exact h k (by simpa using hk)

/-- A walk that ends early stopped at a byte that cannot be read, or in its step function at a byte `b` that follows
the bytes `d` it had folded (R247 step 8). -/
theorem State.walkBuffer_error {f : Walk → Byte → Except Abort Walk} {a n : Nat} {w : Walk} {e : Abort}
    (h : s.walkBuffer f a n w = .error e) :
    (∃ k < n, s.memRead (a + k) = none ∧ e.code = .dataRead ∧ e.faddr = BitVec.ofNat 64 (a + k)) ∨
    ∃ d b x, (d ++ [b]).length ≤ n ∧
      (∀ k, (h : k < (d ++ [b]).length) → s.memRead (a + k) = some (d ++ [b])[k]) ∧
      d.foldlM f w = .ok x ∧ f x b = .error e := by
  induction n generalizing a w with
  | zero => simp [State.walkBuffer] at h
  | succ n ih =>
    rw [State.walkBuffer] at h
    cases hb : s.memRead a with
    | none =>
      rw [hb] at h
      cases h
      exact .inl ⟨0, by omega, hb, rfl, rfl⟩
    | some b =>
      rw [hb] at h
      cases hf : f w b with
      | error e' =>
        simp only [hf, Except.error.injEq] at h
        subst h
        refine .inr ⟨[], b, w, by simp, State.memRead_cons.mpr ⟨hb, fun k hk => ?_⟩, rfl, hf⟩
        simp at hk
      | ok w' =>
        simp only [hf] at h
        rcases ih h with ⟨k, hk, hr, hc, ha⟩ | ⟨d, b', x, hl, hr, hx, he⟩
        · rw [show a + 1 + k = a + (k + 1) by omega] at hr ha
          exact .inl ⟨k + 1, by omega, hr, hc, ha⟩
        · refine .inr ⟨b :: d, b', x, by simpa using hl, State.memRead_cons.mpr ⟨hb, hr⟩, ?_, he⟩
          rw [List.foldlM_cons, hf]
          exact hx

/-- The crc of a table walk is the pure function's (R210). -/
theorem State.foldlM_tableStep {d : List Byte} {w x : Walk} (h : d.foldlM s.tableStep w = .ok x) :
    tupdAll s.width s.refl s.readEntry w.crc d = .ok x.crc := by
  induction d generalizing w with
  | nil => cases h; rfl
  | cons b d ih =>
    rw [List.foldlM_cons] at h
    cases hi : tableIndex s.width s.refl w.crc b with
    | error e => simp only [State.tableStep, hi] at h; cases h
    | ok j =>
      simp only [State.tableStep, hi] at h
      simpa only [tupdAll, tupd, hi] using ih h

/-- Where the table path faults, it is TABLE_INDEX with the index `b ^ s`, above 255 (R200, R240). -/
theorem State.tableStep_error {w : Walk} {b : Byte} {e : Abort} (h : s.tableStep w b = .error e) :
    e.code = .tableIndex ∧ 255 < e.faddr.toNat ∧ e.faddr = b.setWidth 64 ^^^ w.crc := by
  unfold State.tableStep at h
  split at h
  · next idx hi =>
    cases h
    unfold tableIndex at hi
    split at hi
    · cases hi
    · split at hi
      · split at hi
        · next hlt => cases hi; exact ⟨rfl, hlt, rfl⟩
        · cases hi
      · cases hi
  · cases h

/-- Everything a one-shot command's own work can do, with where it faults. -/
theorem State.oneShot_outcome (s : State) (word : BitVec 32) (f : Walk → Byte → Except Abort Walk) :
    (∃ v u, s.oneShot word f = { s with out := Slot.of v, unwrittenRead := u }) ∨
    (0 < (s.read .len).toNat ∧ 2 ^ s.addrW < (s.read .addr).toNat + (s.read .len).toNat ∧
      s.oneShot word f = s.raiseFault .dataRange word (s.read .addr)) ∨
    (∃ k u, k < (s.read .len).toNat ∧ (s.read .addr).toNat + (s.read .len).toNat ≤ 2 ^ s.addrW ∧
      s.memRead ((s.read .addr).toNat + k) = none ∧
      s.oneShot word f =
        { s with unwrittenRead := u }.raiseFault .dataRead word
          (BitVec.ofNat 64 ((s.read .addr).toNat + k))) ∨
    (∃ d b x e, s.bufferStarts (d ++ [b]) ∧
      d.foldlM f { crc := normOf s.width s.refl (s.read .iv), unwritten := s.unwrittenRead } = .ok x ∧
      f x b = .error e ∧
      s.oneShot word f = { s with unwrittenRead := e.unwritten }.raiseFault e.code word e.faddr) := by
  unfold State.oneShot
  split
  · next hr => exact .inr (.inl ⟨hr.1, hr.2, rfl⟩)
  · next hr =>
    cases hw : s.walkBuffer f (s.read .addr).toNat (s.read .len).toNat
      { crc := normOf s.width s.refl (s.read .iv), unwritten := s.unwrittenRead } with
    | ok w => exact .inl ⟨_, _, rfl⟩
    | error e =>
      rcases State.walkBuffer_error hw with ⟨k, hk, hm, hc, ha⟩ | ⟨d, b, x, hl, hd, hx, he⟩
      · refine .inr (.inr (.inl ⟨k, e.unwritten, hk, by omega, hm, ?_⟩))
        rw [State.finishWalk_error, hc, ha]
      · exact .inr (.inr (.inr ⟨d, b, x, e, ⟨hl, hd⟩, hx, he, rfl⟩))

/-- The table path's step does not look at the record it is given beside the state. -/
theorem State.noteReads_tableStep (xs : List Source) : (s.noteReads xs).tableStep = s.tableStep := by
  funext w d
  unfold State.tableStep
  simp only [State.noteReads_width, State.noteReads_refl, State.noteReads_readEntry]
  rfl

/-- A walk does not look at the record of the state it runs in. -/
theorem State.noteReads_walkBuffer (xs : List Source) (f : Walk → Byte → Except Abort Walk) (a n : Nat)
    (w : Walk) : (s.noteReads xs).walkBuffer f a n w = s.walkBuffer f a n w := by
  induction n generalizing a w with
  | zero => rfl
  | succ n ih =>
    simp only [State.walkBuffer, State.noteReads_memRead]
    cases s.memRead a with
    | none => rfl
    | some b =>
      simp only
      cases f w b with
      | error e => rfl
      | ok w => exact ih (a + 1) w

/-- Everything a command can do: nothing while FAULT = 1; a fault, which writes STATUS and FADDR; or its
result. -/
theorem exec_command_cases {i : Instr} (hi : i.isCommand = true) (h : exec i s = .next t) :
    (s.faulted = true ∧ t = s) ∨
    (s.faulted = false ∧ ∃ c a u, commandFault i s c a ∧ (s.ready → c ≠ .widthRange) ∧
      t = { s with unwrittenRead := u }.raiseFault c (commandWord i) a) ∨
    (s.ready ∧ commandResult i s t) := by
  rw [exec_command_eq hi] at h
  rcases withCommand_cases h with ⟨hf, rfl⟩ | ⟨hf, hw, rfl⟩ | ⟨hr, hl, rfl⟩ | ⟨hr, hl, ht⟩
  · exact .inl ⟨hf, rfl⟩
  · refine .inr (.inl ⟨hf, .widthRange, 0#64, s.unwrittenRead, rfl, fun hr => ?_, rfl⟩)
    rw [(s.ready_iff.mp hr).2] at hw
    cases hw
  · refine .inr (.inl ⟨hr.1, .laneWidth, 0#64, s.unwrittenRead, ⟨rfl, ?_⟩, by simp, rfl⟩)
    obtain ⟨_, _, hu⟩ := hr
    cases i <;> simp only [commandLane] at hl <;> first | omega | simp
  · have hone : ∀ (w : BitVec 32) (f : Walk → Byte → Except Abort Walk) (xs : List Source),
        w = commandWord i →
        (i = .crc ∧ (∀ x d e, f x d ≠ .error e) ∨ i = .tableCrc ∧ f = s.tableStep) →
        t = (s.noteReads xs).oneShot w f →
        (s.faulted = true ∧ t = s) ∨
        (s.faulted = false ∧ ∃ c a u, commandFault i s c a ∧ (s.ready → c ≠ .widthRange) ∧
          t = { s with unwrittenRead := u }.raiseFault c (commandWord i) a) ∨
        (s.ready ∧ commandResult i s t) := by
      intro w f xs hw hf ht
      subst hw
      have hi' : i = .crc ∨ i = .tableCrc := by rcases hf with ⟨h, _⟩ | ⟨h, _⟩ <;> simp [h]
      rcases State.oneShot_outcome (s.noteReads xs) (commandWord i) f with
        ⟨v, u, h⟩ | ⟨h0, hp, h⟩ | ⟨k, u, hk, hb, hm, h⟩ | ⟨d, b, x, e, hd, hf', hx, h⟩
      · refine .inr (.inr ⟨hr, .inl ⟨v, u, ht.trans h, ?_⟩⟩)
        rcases hi' with rfl | rfl <;> simp
      · refine .inr (.inl ⟨hr.1, .dataRange, s.read .addr, (s.noteReads xs).unwrittenRead, ⟨rfl, hi', ?_, ?_⟩,
          by simp, by rw [ht, h, State.noteReads_read]; rfl⟩)
        · simpa using h0
        · simpa using hp
      · refine .inr (.inl ⟨hr.1, .dataRead, _, u, ⟨hi', ?_, k, ?_, rfl, ?_⟩, by simp, ?_⟩)
        · simpa using hb
        · simpa using hk
        · simpa using hm
        · rw [ht, h, State.noteReads_read]; rfl
      · rcases hf with ⟨rfl, hf⟩ | ⟨rfl, hf⟩
        · exact absurd hx (hf x b e)
        · subst hf
          obtain ⟨hc, ha, hi⟩ := State.tableStep_error hx
          refine .inr (.inl ⟨hr.1, .tableIndex, e.faddr, e.unwritten,
            ⟨ha, .inr ⟨rfl, d, b, x.crc, ?_, ?_, hi⟩⟩, by simp, ?_⟩)
          · simpa only [State.bufferStarts, State.noteReads_read, State.noteReads_memRead] using hd
          · simpa only [State.noteReads_width, State.noteReads_refl, State.noteReads_read] using
              State.foldlM_tableStep hf'
          rw [ht, h, hc]
          rfl
    cases i with
    | wr z off d => cases hi
    | rd z off => cases hi
    | crc =>
      exact hone _ _ _ rfl (.inl ⟨rfl, fun x d e hx => by simp [bitwiseStep] at hx⟩) ht
    | tableCrc =>
      exact hone _ _ _ rfl (.inr ⟨rfl, State.noteReads_tableStep _⟩) ht
    | tableUpdate b =>
      subst ht
      simp only [commandBody]
      cases hs : (s.noteReads ((commandReads (.tableUpdate b)).map .reg)).tableStep
          { crc := (s.noteReads ((commandReads (.tableUpdate b)).map .reg)).read .state
            unwritten := (s.noteReads ((commandReads (.tableUpdate b)).map .reg)).unwrittenRead } b with
      | ok w =>
        refine .inr (.inr ⟨hr, .inr (.inr (.inl ⟨w.crc, w.unwritten, ?_, .inr (.inr ⟨b, rfl⟩)⟩))⟩)
        rfl
      | error e =>
        obtain ⟨hc, ha, hx⟩ := State.tableStep_error hs
        refine .inr (.inl ⟨hr.1, .tableIndex, e.faddr, e.unwritten, ⟨ha, .inl ⟨b, rfl, ?_⟩⟩, by simp, ?_⟩)
        · simpa using hx
        rw [State.finishWalk_error, hc]
        rfl
    | setupPoly => exact .inr (.inr ⟨hr, .inr (.inl ⟨_, _, ht, rfl⟩)⟩)
    | setupState => exact .inr (.inr ⟨hr, .inr (.inr (.inl ⟨_, _, ht, .inl rfl⟩))⟩)
    | update b => exact .inr (.inr ⟨hr, .inr (.inr (.inl ⟨_, _, ht, .inr (.inl ⟨b, rfl⟩)⟩))⟩)
    | tableInit =>
      refine .inr (.inr ⟨hr, .inr (.inr (.inr ⟨builtTable s.width s.refl (normOf s.width s.refl (s.read .poly)),
        s.firstUnwritten s.unwrittenRead [.reg .poly], ?_, rfl⟩))⟩)
      rw [ht]
      simp only [commandBody, State.buildTable, State.noteReads_read, State.noteReads_width, State.noteReads_refl]
      rfl
    | _ => exact .inr (.inr ⟨hr, .inl ⟨_, _, ht, by simp⟩⟩)

/-! ### Host accesses -/

theorem entryOffset_toNat (i : Byte) : (entryOffset i).toNat = 0x800 + 8 * i.toNat := by
  simp only [entryOffset, BitVec.toNat_add, BitVec.toNat_mul, BitVec.toNat_ofNat, BitVec.toNat_setWidth]
  omega

/-- The register map answers every place at its own offset (R20). -/
theorem placeAt_placeOffset (p : Place) : placeAt (placeOffset p) = some p := by
  cases p with
  | reg r => cases r <;> decide
  | entry i =>
    have h := entryOffset_toNat i
    unfold placeAt placeOffset
    rw [h]
    split <;> first | omega | skip
    rw [if_pos (by omega)]
    congr 2
    apply BitVec.eq_of_toNat_eq
    simp only [BitVec.toNat_ofNat]
    omega
  | _ => decide

/-- What the register map answers stands at that offset. -/
theorem placeOffset_of_placeAt {off : Offset} {p : Place} (h : placeAt off = some p) : placeOffset p = off := by
  have hoff : off = BitVec.ofNat 12 off.toNat := by simp
  unfold placeAt at h
  split at h <;> first
    | (rename_i hn; cases h; rw [hn] at hoff; rw [hoff]; rfl)
    | skip
  split at h
  · next hn =>
    cases h
    apply BitVec.eq_of_toNat_eq
    rw [placeOffset, entryOffset_toNat, BitVec.toNat_ofNat]
    omega
  · cases h

theorem placeAt_eq_some {off : Offset} {p : Place} : placeAt off = some p ↔ off = placeOffset p :=
  ⟨fun h => (placeOffset_of_placeAt h).symm, fun h => h ▸ placeAt_placeOffset p⟩

theorem placeOffset_aligned (p : Place) : (placeOffset p).toNat % 8 = 0 := by
  cases p with
  | reg r => cases r <;> decide
  | entry i => rw [placeOffset, entryOffset_toNat]; omega
  | _ => decide

/-- The accesses admitted: 8 bytes, at a place's own offset, in a direction the place allows (R62). -/
theorem admitted_eq_some {z : AccessSize} {off : Offset} {dir : Direction} {p : Place} :
    admitted z off dir = some p ↔ z = .eight ∧ off = placeOffset p ∧ p.allows dir = true := by
  unfold admitted
  constructor
  · intro h
    split at h
    · next hc =>
      obtain ⟨hp, ha⟩ := Option.filter_eq_some_iff.mp h
      exact ⟨hc.1, placeAt_eq_some.mp hp, by simpa using ha⟩
    · cases h
  · rintro ⟨rfl, rfl, ha⟩
    rw [if_pos ⟨rfl, placeOffset_aligned p⟩, placeAt_placeOffset]
    simp [ha]

/-- Everything a host write can do (R220). -/
theorem execWr_cases {z : AccessSize} {off : Offset} {d : Word} (h : execWr z off d s = .next t) :
    (s.faulted = true ∧ t = s) ∨
    (s.faulted = false ∧ admitted z off .write = none ∧ t = s.raiseFault .badAccess 0#32 (off.setWidth 64)) ∨
    (s.faulted = false ∧ z = .eight ∧
      ((off = 0x000#12 ∧ t = { s with cfg := d &&& 0xFF#64 }) ∨
       (∃ r, r ≠ .out ∧ off = regOffset r ∧ t = s.write r d) ∨
       (∃ i, off = entryOffset i ∧ t = s.writeEntry i d) ∨
       (off = cmdOffset ∧ ∃ e, decodeCommand d = .error e ∧
         t = s.raiseFault .illegalCmd (d.extractLsb' 0 32) 0#64) ∨
       (off = cmdOffset ∧ ∃ i, decodeCommand d = .ok i ∧ i.isCommand = true ∧ exec i s = .next t))) := by
  unfold execWr at h
  split at h
  · next hf => exact .inl ⟨hf, by simpa using h.symm⟩
  next hf =>
  simp only [Bool.not_eq_true] at hf
  cases ha : admitted z off .write with
  | none =>
    rw [ha] at h
    exact .inr (.inl ⟨hf, rfl, by simpa using h.symm⟩)
  | some p =>
    obtain ⟨rfl, rfl, hp⟩ := admitted_eq_some.mp ha
    rw [ha] at h
    refine .inr (.inr ⟨hf, rfl, ?_⟩)
    cases p with
    | cfg => exact .inl ⟨rfl, by simpa using h.symm⟩
    | reg r =>
      refine .inr (.inl ⟨r, ?_, rfl, by simpa using h.symm⟩)
      rintro rfl
      cases hp
    | status => cases hp
    | faddr => cases hp
    | entry i => exact .inr (.inr (.inl ⟨i, rfl, by simpa using h.symm⟩))
    | cmd =>
      simp only [cmdWritten] at h
      cases hd : decodeCommand d with
      | error e => exact .inr (.inr (.inr (.inl ⟨rfl, e, rfl, by simpa [hd] using h.symm⟩)))
      | ok i =>
        have hi := decodeCommand_isCommand hd
        rw [hd] at h
        exact .inr (.inr (.inr (.inr ⟨rfl, i, rfl, hi, by rw [← runCommand_eq_exec hi]; exact h⟩)))

/-- Everything a host read can do (R221). -/
theorem execRd_cases {z : AccessSize} {off : Offset} (h : execRd z off s = .next t) :
    (admitted z off .read = none ∧ s.faulted = true ∧ t = s.observe 0#64) ∨
    (admitted z off .read = none ∧ s.faulted = false ∧
      t = (s.raiseFault .badAccess 0#32 (off.setWidth 64)).observe 0#64) ∨
    (∃ p, admitted z off .read = some p ∧ t = (s.noteReads p.sources).observe (s.readPlace p)) := by
  unfold execRd at h
  cases ha : admitted z off .read with
  | none =>
    rw [ha] at h
    cases hf : s.faulted
    · exact .inr (.inl ⟨rfl, rfl, by simpa [hf] using h.symm⟩)
    · exact .inl ⟨rfl, rfl, by simpa [hf] using h.symm⟩
  | some p =>
    rw [ha] at h
    exact .inr (.inr ⟨p, rfl, by simpa using h.symm⟩)

/-! ### Operations -/

/-- Everything an operation can do: nothing but return a value while FAULT = 1; a fault, which writes STATUS and
FADDR; or its effect, which keeps STATUS, FADDR, DMEM and the inputs. -/
theorem exec_cases {i : Instr} (h : exec i s = .next t) :
    (s.faulted = true ∧ t.status = s.status ∧ t.faddr = s.faddr ∧
      t = { s with observed := t.observed, unwrittenRead := t.unwrittenRead } ∧
      ((∀ size off, i ≠ .rd size off) → t = s)) ∨
    (s.faulted = false ∧ ∃ c w a o u,
      t = { s with status := statusWord w c, faddr := a, observed := o, unwrittenRead := u } ∧
      (c = .badAccess → w = 0#32 ∧
        ∃ size off, a = off.setWidth 64 ∧ (i = .rd size off ∨ ∃ d, i = .wr size off d)) ∧
      (i.isCommand = true → w = commandWord i ∧ commandFault i s c a) ∧
      (∀ size off d, i = .wr size off d → c ≠ .badAccess → w = d.extractLsb' 0 32) ∧
      (c = .badAccess ∨ c = .illegalCmd ∧ a = 0#64 ∨ ∃ j, startsCommand i j ∧ commandFault j s c a)) ∨
    (s.faulted = false ∧ t.status = s.status ∧ t.faddr = s.faddr ∧ t.dmem = s.dmem ∧ t.addrW = s.addrW ∧
      t.inputs = s.inputs ∧ (t.cfg = s.cfg ∨ ∃ d, t.cfg = d &&& 0xFF#64)) := by
  have hcmd : ∀ i : Instr, i.isCommand = true → exec i s = .next t →
      (s.faulted = true ∧ t = s) ∨
      (s.faulted = false ∧ ∃ c w a o u,
        t = { s with status := statusWord w c, faddr := a, observed := o, unwrittenRead := u } ∧
        c ≠ .badAccess ∧ w = commandWord i ∧ commandFault i s c a) ∨
      (s.faulted = false ∧ t.status = s.status ∧ t.faddr = s.faddr ∧ t.dmem = s.dmem ∧ t.addrW = s.addrW ∧
        t.inputs = s.inputs ∧ (t.cfg = s.cfg ∨ ∃ d, t.cfg = d &&& 0xFF#64)) := by
    intro i hi h
    rcases exec_command_cases hi h with ⟨hf, rfl⟩ | ⟨hf, c, a, u, hc, -, rfl⟩ | ⟨hr, hres⟩
    · exact .inl ⟨hf, rfl⟩
    · exact .inr (.inl ⟨hf, c, commandWord i, a, s.observed, u, rfl, fun hb => by subst hb; exact hc, rfl, hc⟩)
    · refine .inr (.inr ⟨hr.1, ?_⟩)
      rcases hres with ⟨v, u, rfl, -⟩ | ⟨v, u, rfl, -⟩ | ⟨v, u, rfl, -⟩ | ⟨T, u, rfl, -⟩ <;> simp
  cases hi : i.isCommand
  · cases i <;> try cases hi
    case false.wr.refl z off d =>
      rw [exec_wr] at h
      rcases execWr_cases h with ⟨hf, rfl⟩ | ⟨hf, ha, rfl⟩ | ⟨hf, rfl, ⟨rfl, rfl⟩ | ⟨r, hr, rfl, rfl⟩ |
        ⟨i, rfl, rfl⟩ | ⟨rfl, e, he, rfl⟩ | ⟨rfl, i, hd, hi, hx⟩⟩
      · exact .inl ⟨hf, rfl, rfl, rfl, fun _ => rfl⟩
      · exact .inr (.inl ⟨hf, .badAccess, 0#32, _, s.observed, s.unwrittenRead, rfl,
          fun _ => ⟨rfl, z, off, rfl, .inr ⟨d, rfl⟩⟩, by simp, by simp, .inl rfl⟩)
      · exact .inr (.inr ⟨hf, rfl, rfl, rfl, rfl, rfl, .inr ⟨d, rfl⟩⟩)
      · exact .inr (.inr ⟨hf, by simp⟩)
      · exact .inr (.inr ⟨hf, by simp⟩)
      · exact .inr (.inl ⟨hf, .illegalCmd, _, _, s.observed, s.unwrittenRead, rfl, by simp,
          by simp, by rintro _ _ _ ⟨⟩ _; rfl, .inr (.inl ⟨rfl, rfl⟩)⟩)
      · rcases hcmd i hi hx with ⟨hf, rfl⟩ | ⟨hf, c, w, a, o, u, rfl, hc, rfl, hcf⟩ | h
        · exact .inl ⟨hf, rfl, rfl, rfl, fun _ => rfl⟩
        · exact .inr (.inl ⟨hf, c, commandWord i, a, o, u, rfl, fun h => absurd h hc,
            by simp, by rintro _ _ _ ⟨⟩ _; exact commandWord_of_decodeCommand hd,
            .inr (.inr ⟨i, .inr ⟨d, rfl, hd⟩, hcf⟩)⟩)
        · exact .inr (.inr h)
    case false.rd.refl z off =>
      rw [exec_rd] at h
      rcases execRd_cases h with ⟨ha, hf, rfl⟩ | ⟨ha, hf, rfl⟩ | ⟨p, ha, rfl⟩
      · exact .inl ⟨hf, rfl, rfl, rfl, fun hn => absurd rfl (hn z off)⟩
      · exact .inr (.inl ⟨hf, .badAccess, 0#32, _, _, s.unwrittenRead, rfl,
          fun _ => ⟨rfl, z, off, rfl, .inl rfl⟩, by simp, by simp, .inl rfl⟩)
      · cases hf : s.faulted
        · exact .inr (.inr ⟨rfl, by simp⟩)
        · exact .inl ⟨rfl, rfl, rfl, rfl, fun hn => absurd rfl (hn z off)⟩
  · rcases hcmd i hi h with ⟨hf, rfl⟩ | ⟨hf, c, w, a, o, u, rfl, hc, rfl, hcf⟩ | h
    · exact .inl ⟨hf, rfl, rfl, rfl, fun _ => rfl⟩
    · exact .inr (.inl ⟨hf, c, commandWord i, a, o, u, rfl, fun h => absurd h hc, fun _ => ⟨rfl, hcf⟩,
        fun _ _ _ hw => (by rw [hw] at hi; cases hi), .inr (.inr ⟨i, .inl rfl, hcf⟩)⟩)
    · exact .inr (.inr h)

/-- A command of a ready block, within its lane, does its own work (R92, R247). -/
theorem exec_runs {i : Instr} (hi : i.isCommand = true) (hr : s.ready) (hl : s.width ≤ commandLane i) :
    exec i s = .next (commandBody i (s.noteReads ((commandReads i).map .reg))) :=
  (exec_command_eq hi s).trans (withCommand_runs hr hl)

/-! ### Steps -/

/-- Everything a step can do: wait, reset the block, let the platform store a byte, or run the next transaction's operation. -/
theorem step_cases (h : step s = .next t) :
    (s.inputs = [] ∧ t = s) ∨
    (∃ rest, s.inputs = .reset :: rest ∧ t = (s.withInputs rest).resetBlock) ∨
    (∃ a v rest, s.inputs = .dmem a v :: rest ∧ t = (s.withInputs rest).platformStore a v) ∨
    (∃ tr rest, s.inputs = .transaction tr :: rest ∧
      exec (decodeTransaction tr) (s.withInputs rest) = .next t) := by
  unfold step at h
  split at h
  · next he => exact .inl ⟨he, by simpa using h.symm⟩
  · next rest he => exact .inr (.inl ⟨rest, he, by simpa using h.symm⟩)
  · next a v rest he => exact .inr (.inr (.inl ⟨a, v, rest, he, by simpa using h.symm⟩))
  · next tr rest he => exact .inr (.inr (.inr ⟨tr, rest, he, h⟩))

end Sys2Proof.Machine
end

