-- ==== Sys2Proof/Laws/Run.lean ====
section
/-! SUPPORT. The record of unwritten reads from one operation to the next, and what a strict step and a run of steps can
do. -/

namespace Sys2Proof.Machine

variable {s t : State}

/-! ### The first unwritten read stays on record -/

/-- A record once made stays, whatever is read after it (R247). -/
@[simp] theorem State.firstUnwritten_some (s : State) (x : Source) (xs : List Source) :
    s.firstUnwritten (some x) xs = some x := rfl

/-- The record of unwritten reads at the end of a walk, however it ended. -/
def walkRecord : Except Abort Walk → Option Source
  | .ok w => w.unwritten
  | .error e => e.unwritten

theorem State.tableStep_record {w : Walk} {b : Byte} {x : Source} (h : w.unwritten = some x) :
    walkRecord (s.tableStep w b) = some x := by
  unfold State.tableStep
  split <;> simp [walkRecord, h]

theorem bitwiseStep_record {W : Nat} {RF : Bool} {p : Word} {w : Walk} {b : Byte} {x : Source}
    (h : w.unwritten = some x) : walkRecord (bitwiseStep W RF p w b) = some x := h

/-- A walk keeps a record that its step function keeps. -/
theorem State.walkBuffer_record {f : Walk → Byte → Except Abort Walk} {x : Source}
    (hf : ∀ w b, w.unwritten = some x → walkRecord (f w b) = some x) (n a : Nat) (w : Walk)
    (h : w.unwritten = some x) : walkRecord (s.walkBuffer f a n w) = some x := by
  induction n generalizing a w with
  | zero => exact h
  | succ n ih =>
    rw [State.walkBuffer]
    cases s.memRead a with
    | none => exact h
    | some b =>
      have hw := hf w b h
      cases hfw : f w b with
      | error e => simpa [hfw] using hw
      | ok w' =>
        simp only [hfw]
        exact ih (a + 1) w' (by rw [hfw] at hw; exact hw)

/-- The end of a walk leaves the walk's record in the state. -/
theorem State.finishWalk_record {word : BitVec 32} {r : Except Abort Walk} {write : State → Word → State}
    (hw : ∀ t v, (write t v).unwrittenRead = t.unwrittenRead) :
    (s.finishWalk word r write).unwrittenRead = walkRecord r := by
  cases r with
  | ok w => rw [State.finishWalk_ok, hw]; rfl
  | error e => rw [State.finishWalk_error]; rfl

theorem State.oneShot_record {word : BitVec 32} {f : Walk → Byte → Except Abort Walk} {x : Source}
    (hf : ∀ w b, w.unwritten = some x → walkRecord (f w b) = some x) (h : s.unwrittenRead = some x) :
    (s.oneShot word f).unwrittenRead = some x := by
  unfold State.oneShot
  split
  · exact h
  · rw [State.finishWalk_record (by simp)]
    exact State.walkBuffer_record hf _ _ _ h

/-- A command's own work keeps a record of an unwritten read. -/
theorem commandBody_record {i : Instr} {x : Source} (h : s.unwrittenRead = some x) :
    (commandBody i s).unwrittenRead = some x := by
  cases i with
  | crc => exact State.oneShot_record (fun _ _ => bitwiseStep_record) h
  | tableCrc => exact State.oneShot_record (fun _ _ => State.tableStep_record) h
  | tableUpdate b =>
    simp only [commandBody]
    rw [State.finishWalk_record (by simp)]
    exact State.tableStep_record h
  | _ => simpa [commandBody, State.buildTable] using h

/-- Every operation keeps a record of an unwritten read. -/
theorem exec_record {i : Instr} {x : Source} (h : exec i s = .next t) (hx : s.unwrittenRead = some x) :
    t.unwrittenRead = some x := by
  have hcmd : ∀ i : Instr, i.isCommand = true → exec i s = .next t → t.unwrittenRead = some x := by
    intro i hi h
    rw [exec_command_eq hi] at h
    rcases withCommand_cases h with ⟨-, rfl⟩ | ⟨-, -, rfl⟩ | ⟨-, -, rfl⟩ | ⟨-, -, rfl⟩
    · exact hx
    · exact hx
    · exact hx
    · exact commandBody_record (by simp [hx])
  cases hi : i.isCommand
  · cases i <;> try cases hi
    case false.wr.refl z off d =>
      rw [exec_wr] at h
      rcases execWr_cases h with ⟨-, rfl⟩ | ⟨-, -, rfl⟩ | ⟨-, -, ⟨-, rfl⟩ | ⟨r, -, -, rfl⟩ | ⟨j, -, rfl⟩ |
        ⟨-, e, -, rfl⟩ | ⟨-, c, -, hc, hx'⟩⟩
      all_goals first | exact hcmd c hc hx' | simpa using hx
    case false.rd.refl z off =>
      rw [exec_rd] at h
      rcases execRd_cases h with ⟨-, -, rfl⟩ | ⟨-, -, rfl⟩ | ⟨p, -, rfl⟩ <;> simp [hx]
  · exact hcmd i hi h

/-- Every step keeps a record of an unwritten read, a reset too: it is the run's, not the block's. -/
theorem step_record {x : Source} (h : step s = .next t) (hx : s.unwrittenRead = some x) :
    t.unwrittenRead = some x := by
  rcases step_cases h with ⟨-, rfl⟩ | ⟨rest, -, rfl⟩ | ⟨a, v, rest, -, rfl⟩ | ⟨tr, rest, -, h⟩
  · exact hx
  · exact hx
  · exact hx
  · exact exec_record h hx

/-! ### Steps and runs -/

/-- A strict step is the block's step where that leaves no record of an unwritten read, and UNWRITTEN_READ where it does
(R250). -/
theorem strictStep_cases (s : State) {t : State} (h : step s = .next t) :
    (t.unwrittenRead = none ∧ strictStep s = .next t) ∨
    ∃ x, t.unwrittenRead = some x ∧ strictStep s = .fault (.unwrittenRead x) := by
  rw [strictStep, h]
  cases hu : t.unwrittenRead with
  | none => exact .inl ⟨rfl, by simp [hu]⟩
  | some x => exact .inr ⟨x, rfl, by simp [hu]⟩

/-- One more step of the block's run. -/
theorem stepN_succ {n : Nat} (h : step s = .next t) : stepN (n + 1) s = stepN n t := by rw [stepN, h]

/-- A run of steps keeps a record of an unwritten read. -/
theorem stepN_record {n : Nat} {x : Source} (h : stepN n s = .next t) (hx : s.unwrittenRead = some x) :
    t.unwrittenRead = some x := by
  induction n generalizing s with
  | zero => cases h; exact hx
  | succ n ih =>
    rw [stepN] at h
    cases hs : step s with
    | next u => rw [hs] at h; exact ih h (step_record hs hx)
    | fault r => rw [hs] at h; cases h
    | refused r => rw [hs] at h; cases h

/-- One more operation of a strict run that reads nothing unwritten. -/
theorem strictRun_succ_next {n : Nat} (h : strictStep s = .next t) :
    strictRun (n + 1) s = strictRun n t := by rw [strictRun, h]

/-- A strict run ends where its step does, with the state before it. -/
theorem strictRun_succ_fault {n : Nat} {r : Fault} (h : strictStep s = .fault r) :
    strictRun (n + 1) s = .fault r s := by rw [strictRun, h]

end Sys2Proof.Machine
end

