-- ==== Sys2Proof/Tests/Slice0.lean ====
section
/-! SUPPORT. Tests: words and results written out from the spec (95_test_vectors.md and the rules named), the
well-formedness smoke, and a witness for every statement that has hypotheses. -/

namespace Sys2Proof.Tests

open Sys2Proof Sys2Proof.Machine

/-! ### Small states -/

/-- Every marked register written, CFG as given: POLY 7, IV 0, XOROUT 0, VALUE 0xB4, NPOLY 7, STATE 0, OUT 0,
ADDR 0x100, LEN 2, and the bytes 0x31, 0x32 at 0x100. -/
def regs (cfg : Word) : State :=
  { State.reset with
    cfg := cfg
    poly := Slot.of 7#64
    iv := Slot.of 0#64
    xorout := Slot.of 0#64
    value := Slot.of 0xB4#64
    npoly := Slot.of 7#64
    state := Slot.of 0#64
    out := Slot.of 0#64
    addr := Slot.of 0x100#64
    len := Slot.of 2#64
    dmem := [(0x100, 0x31#8), (0x101, 0x32#8)] }

/-- `regs cfg` with the table that TABLE_INIT builds for POLY = 7. -/
def tabled (cfg : Word) : State := (regs cfg).buildTable (normOf (regs cfg).width (regs cfg).refl 7#64)

/-- A state with a fault recorded: BAD_ACCESS at offset 0x38. -/
def faulty : State := (regs 0x08#64).raiseFault .badAccess 0#32 0x38#64

/-- A field of the state that an outcome goes on with. -/
def after {α : Type} (f : State → α) : Host.Outcome State Fault Refusal → Option α
  | .next t => some (f t)
  | .fault _ => none
  | .refused _ => none

/-- STATUS and FADDR after an operation. -/
def faultOf (o : Host.Outcome State Fault Refusal) : Option (Word × Word) := after (fun t => (t.status, t.faddr)) o

/-! ### Decoding: words written out from 30_encoding.md -/

theorem test_decode_reflect : decodeTableWord 32 0b00000001000000000000000000000000 = some .reflect := by decide
theorem test_decode_setupPoly : decodeTableWord 32 0b00000010000000000000000000000000 = some .setupPoly := by decide
theorem test_decode_setupState : decodeTableWord 32 0b00000011000000000000000000000000 = some .setupState := by decide
theorem test_decode_update : decodeTableWord 32 0b00000100000000000000000000110001 = some (.update 0x31#8) := by decide
theorem test_decode_result : decodeTableWord 32 0b00000101000000000000000000000000 = some .result := by decide
theorem test_decode_crc : decodeTableWord 32 0b00000110000000000000000000000000 = some .crc := by decide
theorem test_decode_tableInit : decodeTableWord 32 0b00000111000000000000000000000000 = some .tableInit := by decide
theorem test_decode_tableUpdate :
    decodeTableWord 32 0b00001000000000000000000011111110 = some (.tableUpdate 0xFE#8) := by decide
theorem test_decode_tableCrc : decodeTableWord 32 0b00001001000000000000000000000000 = some .tableCrc := by decide
theorem test_decode_mask : decodeTableWord 32 0b00001010000000000000000000000000 = some .mask := by decide
theorem test_decode_reflect8 : decodeTableWord 32 0b00001011000000000000000000000000 = some .reflect8 := by decide
theorem test_decode_reflect16 : decodeTableWord 32 0b00001100000000000000000000000000 = some .reflect16 := by decide
theorem test_decode_reflect32 : decodeTableWord 32 0b00001101000000000000000000000000 = some .reflect32 := by decide
theorem test_decode_reflect64 : decodeTableWord 32 0b00001110000000000000000000000000 = some .reflect64 := by decide

/-- `WR POLY, 0x04C11DB7` is `3/1/008/0000000004C11DB7` (R90, R99). -/
theorem test_decode_wr :
    decodeTransaction (0b11#2 ++ 0b1#1 ++ 0x008#12 ++ 0x0000000004C11DB7#64) = .wr .eight 0x008#12 0x04C11DB7#64 := by
  decide

/-- A 4-byte write of POLY, `2/1/008/1` (95_test_vectors.md L2.9), decodes too: it has an outcome. -/
theorem test_decode_wr_small :
    decodeTransaction (0b10#2 ++ 0b1#1 ++ 0x008#12 ++ 0x0000000000000001#64) = .wr .four 0x008#12 1#64 := by decide

/-- `RD STATE` is `3/0/030/0` (R90, R99). -/
theorem test_decode_rd :
    decodeTransaction (0b11#2 ++ 0b0#1 ++ 0x030#12 ++ 0x0000000000000000#64) = .rd .eight 0x030#12 := by decide

/-- `CMD UPDATE 0x31` is `3/1/060/0000000004000031` (R99). -/
theorem test_decode_cmd :
    decodeTransaction (0b11#2 ++ 0b1#1 ++ 0x060#12 ++ 0x0000000004000031#64) = .update 0x31#8 := by decide

/-- The illegal command words of R96 are refused by name, in the order R92 checks. -/
theorem test_decode_illegal :
    decodeCommand 0x0000000000000000#64 = .error .reservedOpcode ∧
    decodeCommand 0x000000000F000000#64 = .error .reservedOpcode ∧
    decodeCommand 0x0000000004000131#64 = .error .reservedNonzero ∧
    decodeCommand 0x0000000005000001#64 = .error .immediateNonzero ∧
    decodeCommand 0x0000000105000000#64 = .error .highBitsNonzero := by
  refine ⟨?_, ?_, ?_, ?_, ?_⟩ <;> decide

/-- The encoder writes the spec's words: `CMD TABLE_UPDATE 0xFE` is `3/1/060/00000000080000FE`. -/
theorem test_encode :
    encode (.tableUpdate 0xFE#8) = 0b11#2 ++ 0b1#1 ++ 0x060#12 ++ 0x00000000080000FE#64 ∧
    encode (.rd .eight 0x030#12) = 0b11#2 ++ 0b0#1 ++ 0x030#12 ++ 0#64 := by
  refine ⟨?_, ?_⟩ <;> decide

/-! ### Well-formedness smoke -/

/-- Ill formed: a CMD write of a legal word written as WR; the same write with an illegal word, another size or another
offset is a form of its own. -/
theorem test_wf :
    (Instr.wr .eight 0x060#12 0x04000031#64).wf = false ∧
    (Instr.wr .eight 0x060#12 0x0E000000#64).wf = false ∧
    (Instr.wr .eight 0x060#12 0x0F000000#64).wf = true ∧
    (Instr.wr .four 0x060#12 0x04000031#64).wf = true ∧
    (Instr.wr .eight 0x068#12 0x04000031#64).wf = true := by
  refine ⟨?_, ?_, ?_, ?_, ?_⟩ <;> decide

/-! ### One step of each instruction (95_test_vectors.md) -/

/-- L2.1: W = 8, 0xB4 reversed is 0x2D; W = 12, 0xABC reversed is 0x3D5. -/
theorem test_reflect : after (·.out) (exec .reflect (regs 0x08#64)) = some (Slot.of 0x2D#64) := by decide
theorem test_reflect_12 :
    after (·.out) (exec .reflect { regs 0x0C#64 with value := Slot.of 0xABC#64 }) = some (Slot.of 0x3D5#64) := by decide

/-- L2.1: bits [63:8] are ignored; W = 9 is LANE_WIDTH. -/
theorem test_reflect8 :
    after (·.out) (exec .reflect8 { regs 0x08#64 with value := Slot.of 0x1B4#64 }) = some (Slot.of 0x2D#64) := by decide
theorem test_reflect8_lane :
    faultOf (exec .reflect8 (regs 0x09#64)) = some (0x0B00000000000301#64, 0#64) := by decide

theorem test_reflect16 : after (·.out) (exec .reflect16 (regs 0x08#64)) = some (Slot.of 0x2D#64) := by decide
theorem test_reflect16_lane :
    faultOf (exec .reflect16 (regs 0x11#64)) = some (0x0C00000000000301#64, 0#64) := by decide

theorem test_reflect32 :
    after (·.out) (exec .reflect32 { regs 0x11#64 with value := Slot.of 1#64 }) = some (Slot.of 0x10000#64) := by decide
theorem test_reflect32_lane :
    faultOf (exec .reflect32 (regs 0x21#64)) = some (0x0D00000000000301#64, 0#64) := by decide

theorem test_reflect64 :
    after (·.out) (exec .reflect64 { regs 0x40#64 with value := Slot.of 0x42F0E1EBA9EA3693#64 }) =
      some (Slot.of 0xC96C5795D7870F42#64) := by decide
theorem test_reflect64_width :
    faultOf (exec .reflect64 (regs 0x41#64)) = some (0x0E00000000000201#64, 0#64) := by decide

/-- L2.2: W = 3, RF = 0: 0x3 becomes 0x60; W = 32, RF = 1: 0x04C11DB7 becomes 0xEDB88320. -/
theorem test_setupPoly :
    after (·.npoly) (exec .setupPoly { regs 0x03#64 with poly := Slot.of 3#64 }) = some (Slot.of 0x60#64) := by decide
theorem test_setupPoly_refl :
    after (·.npoly) (exec .setupPoly { regs 0xA0#64 with poly := Slot.of 0x04C11DB7#64 }) =
      some (Slot.of 0xEDB88320#64) := by decide

/-- L2.2: bit 58 of IV lands at bit 63 for W = 3; bit 59 is shifted out of the u64. -/
theorem test_setupState :
    after (·.state) (exec .setupState { regs 0x03#64 with iv := Slot.of 0x0400000000000000#64 }) =
      some (Slot.of 0x8000000000000000#64) := by decide
theorem test_setupState_out :
    after (·.state) (exec .setupState { regs 0x03#64 with iv := Slot.of 0x0800000000000000#64 }) =
      some (Slot.of 0#64) := by decide

/-- L2.3: CRC-8 keeps the bits it shifts out; CRC-32 of one byte. -/
theorem test_update : after (·.state) (exec (.update 0x31#8) (regs 0x08#64)) = some (Slot.of 0x3197#64) := by decide
theorem test_update_refl :
    after (·.state) (exec (.update 0x31#8)
      { regs 0xA0#64 with npoly := Slot.of 0xEDB88320#64, state := Slot.of 0xFFFFFFFF#64 }) =
      some (Slot.of 0x7C231048#64) := by decide

/-- L2.4: W = 64 does not collapse to 0; W = 7 keeps 8 bits. -/
theorem test_mask_64 :
    after (·.out) (exec .mask { regs 0x40#64 with value := Slot.of (BitVec.allOnes 64) }) =
      some (Slot.of (BitVec.allOnes 64)) := by decide
theorem test_mask_7 :
    after (·.out) (exec .mask { regs 0x07#64 with value := Slot.of 0x3FF#64 }) = some (Slot.of 0xFF#64) := by decide

/-- L2.4: XOROUT is not masked; STATE is left alone. -/
theorem test_result :
    after (fun t => (t.out, t.state))
      (exec .result { regs 0x08#64 with xorout := Slot.of 0x100#64, state := Slot.of 0x12#64 }) =
      some (Slot.of 0x112#64, Slot.of 0x12#64) := by decide
theorem test_result_3 :
    after (·.out) (exec .result { regs 0x03#64 with xorout := Slot.of 7#64, state := Slot.of 0x60#64 }) =
      some (Slot.of 0x4#64) := by decide

/-- L2.5: CRC-8 after 0x31, 0x32 is 0x72, and CRC leaves NPOLY and STATE alone; L2.8: a refused byte. -/
theorem test_crc :
    after (fun t => (t.out, t.npoly, t.state)) (exec .crc (regs 0x08#64)) =
      some (Slot.of 0x72#64, Slot.of 7#64, Slot.of 0#64) := by decide +kernel
theorem test_crc_refused :
    faultOf (exec .crc { regs 0xA0#64 with len := Slot.of 9#64 }) =
      some (0x0600000000000601#64, 0x102#64) := by decide

/-- L2.6: CRC-8's entries 1, 0x80 and 0xFF. -/
theorem test_tableInit :
    after (fun t => (t.entrySlot 0x01#8, t.entrySlot 0x80#8, t.entrySlot 0xFF#8)) (exec .tableInit (regs 0x08#64)) =
      some (Slot.of 0x7#64, Slot.of 0x89#64, Slot.of 0xF3#64) := by decide +kernel

/-- L2.7: CRC-8 0x97, 0x32 gives 0x72; an index above 255 is TABLE_INDEX with the index in FADDR. -/
theorem test_tableUpdate :
    after (·.state) (exec (.tableUpdate 0x32#8) { tabled 0x08#64 with state := Slot.of 0x97#64 }) =
      some (Slot.of 0x72#64) := by decide +kernel
theorem test_tableUpdate_index :
    faultOf (exec (.tableUpdate 0x32#8) { tabled 0x08#64 with state := Slot.of 0x3197#64 }) =
      some (0x0800003200000401#64, 0x31A5#64) := by decide +kernel

theorem test_tableCrc : after (·.out) (exec .tableCrc (tabled 0x08#64)) = some (Slot.of 0x72#64) := by decide +kernel
/-- L2.8: past the top, with ADDR_W = 16. -/
theorem test_tableCrc_range :
    faultOf (exec .tableCrc { tabled 0x08#64 with addrW := 16, addr := Slot.of 0xFFF8#64, len := Slot.of 9#64 }) =
      some (0x0900000000000501#64, 0xFFF8#64) := by decide +kernel

/-- L2.9: CFG drops bits [63:8]; a write of OUT is BAD_ACCESS. -/
theorem test_wr : after (·.cfg) (exec (.wr .eight 0x000#12 0xFFFFFFFFFFFFFF08#64) State.reset) = some 0x08#64 := by
  decide
theorem test_wr_out : faultOf (exec (.wr .eight 0x038#12 5#64) State.reset) = some (0x701#64, 0x38#64) := by decide

/-- L2.9: a read of CMD returns 0 and is BAD_ACCESS; R221: a read of a table entry returns it. -/
theorem test_rd_cmd :
    after (fun t => (t.observed, t.status, t.faddr)) (exec (.rd .eight 0x060#12) State.reset) =
      some ([0#64], 0x701#64, 0x60#64) := by decide
theorem test_rd_entry :
    after (·.observed) (exec (.rd .eight 0x808#12) (tabled 0x08#64)) = some [0x7#64] := by decide +kernel

/-! ### The step, from reset -/

/-- The first command after reset is WIDTH_RANGE (95_test_vectors.md P4). -/
theorem test_step_first_command :
    faultOf (step (State.reset.withFetchWord 32 0x04000031)) = some (0x0400003100000201#64, 0#64) := by decide

/-- A CFG write as the first transaction after reset: CRC-32's CFG (R220). -/
theorem test_step_first_write :
    after (fun t => (t.cfg, t.inputs)) (step (State.reset.withFetchWord 80 0x700000000000000000A0)) =
      some (0xA0#64, []) := by decide

/-- Reset's memory has the canonical form, and so does memory a platform places bytes in. -/
theorem test_memory_wf :
    State.reset.dmem.wf = true ∧
    Memory.place (Memory.place (Memory.place [] 5 1#8) 3 2#8) 5 9#8 = [(3, 2#8), (5, 9#8)] := by
  refine ⟨?_, ?_⟩ <;> decide

/-- A read of a register nothing has written ends the strict run, and only the strict one (R250). -/
theorem test_strict :
    strictStep { State.reset with inputs := [.transaction (encode (.rd .eight 0x038#12))] } =
      .fault (.unwrittenRead (.reg .out)) ∧
    after (·.status) (step { State.reset with inputs := [.transaction (encode (.rd .eight 0x038#12))] }) =
      some 0#64 := ⟨rfl, by decide⟩

/-- `RD OUT; RD CFG` from reset: the spec's run ends at its first operation, with nothing returned; `RD CFG` alone
completes and returns 0 (R250, R296). -/
theorem test_run_ends_at_unwritten_read :
    hostRun [.rd .eight 0x038#12, .rd .eight 0x000#12] State.reset =
      .fault (.unwrittenRead (.reg .out))
        (State.reset.withInputs (program [.rd .eight 0x038#12, .rd .eight 0x000#12])) ∧
    (hostRun [.rd .eight 0x038#12, .rd .eight 0x000#12] State.reset).returned = [] ∧
    (hostRun [.rd .eight 0x000#12] State.reset).returned = [0#64] ∧
    (hostRun [.rd .eight 0x000#12] State.reset).faulted = false := ⟨rfl, rfl, rfl, by decide⟩

/-- A run goes on after a recorded fault, and is faulted at its end (R245, R296): a command with CFG = 0, then
`RD FADDR`. -/
theorem test_run_goes_on_after_fault :
    (hostRun [.mask, .rd .eight 0x058#12] State.reset).returned = [0#64] ∧
    (hostRun [.mask, .rd .eight 0x058#12] State.reset).faulted = true := ⟨by decide, by decide⟩

/-! ### Witnesses: for every statement with hypotheses, a state and operands that meet all of them together -/

theorem witness_EncodedInstructionsDecodeToThemselves :
    (Instr.update 0xFF#8).wf = true ∧ (Instr.wr .eight 0x060#12 0x04000131#64).wf = true ∧
    (Instr.wr .one 0xFFF#12 (BitVec.allOnes 64)).wf = true ∧ (Instr.rd .two 0x060#12).wf = true := by
  refine ⟨?_, ?_, ?_, ?_⟩ <;> decide

/-- The lowest and the highest legal opcode, and the reserved ones beside them. -/
theorem witness_OpcodeMapMatchesMaskAndMatch :
    decodeCommand ((0x01000000#32).setWidth 64) = .ok .reflect ∧
    decodeCommand ((0x0E000000#32).setWidth 64) = .ok .reflect64 ∧
    decodeCommand ((0x040000FF#32).setWidth 64) = .ok (.update 0xFF#8) ∧
    decodeCommand ((0x00000000#32).setWidth 64) = .error .reservedOpcode ∧
    decodeCommand ((0x0F000000#32).setWidth 64) = .error .reservedOpcode := by
  refine ⟨?_, ?_, ?_, ?_, ?_⟩ <;> decide

/-- One word for each of R96's five grounds, and legal words beside them. -/
theorem witness_IllegalCommandWordsRaiseIllegalCmd :
    State.reset.faulted = false ∧ illegalCommandData 0x00000000#64 ∧ illegalCommandData 0x0F000000#64 ∧
    illegalCommandData 0x04000100#64 ∧ illegalCommandData 0x05000001#64 ∧ illegalCommandData 0x100000000#64 ∧
    ¬ illegalCommandData 0x0E000000#64 ∧ ¬ illegalCommandData 0x040000FF#64 := by
  unfold illegalCommandData
  refine ⟨?_, ?_, ?_, ?_, ?_, ?_, ?_, ?_⟩ <;> decide

/-- An idle block, a waiting transaction, and the encoding of a well-formed instruction. -/
theorem witness_StepRunsTheDecodedInstruction :
    State.reset.inputs = [] ∧
    (State.reset.withInputs [.transaction 5#79]).inputs = [.transaction 5#79] ∧
    (Instr.rd .eight 0x000#12).wf = true ∧
    (State.reset.withInputs [.transaction (encode (.rd .eight 0x000#12)), .reset]).inputs =
      [.transaction (encode (.rd .eight 0x000#12)), .reset] := ⟨rfl, rfl, rfl, rfl⟩

theorem witness_TableWordRunsAsTheNextStep :
    decodeTableWord 32 0x0E000000 = some .reflect64 ∧
    decodeTableWord 80 0x600000000000000000000 = none ∧
    decodeTableWord 80 0x60000000000000000000 = some (.rd .eight 0x000#12) := by
  refine ⟨?_, ?_, ?_⟩ <;> decide

theorem witness_CmdWriteStartsItsCommandAndCmdReadIsRefused :
    decodeCommand 0x04000031#64 = .ok (.update 0x31#8) ∧ (regs 0x08#64).faulted = false := by
  refine ⟨?_, ?_⟩ <;> decide

theorem witness_ResetInputClearsTheBlockAndKeepsDmem :
    (faulty.withInputs [.reset, .transaction 0#79]).inputs = .reset :: [.transaction 0#79] ∧
    (faulty.withInputs [.reset, .transaction 0#79]).faulted = true ∧
    (faulty.withInputs [.reset, .transaction 0#79]).memRead 0x100 = some 0x31#8 := by
  refine ⟨rfl, ?_, ?_⟩ <;> decide

/-- The width bounds from both sides, with a legal and an illegal word. -/
theorem witness_EveryCommandFaultsUntilCfgIsLegal :
    (regs 0x80#64).faulted = false ∧ (regs 0x80#64).width < 1 ∧ 64 < (regs 0x41#64).width ∧
    64 < (regs 0xFF#64).width ∧ ¬ 64 < (regs 0x40#64).width ∧
    decodeCommand 0x05000000#64 = .ok .result ∧ decodeCommand 0x05000001#64 = .error .immediateNonzero := by
  refine ⟨?_, ?_, ?_, ?_, ?_, ?_, ?_⟩ <;> decide

/-- A state of the invariant, with a fault recorded, whose next step goes on. -/
theorem witness_EveryStepKeepsTheInvariant :
    State.Inv (faulty.withInputs [.transaction (encode .crc)]) ∧
    ∃ t, step (faulty.withInputs [.transaction (encode .crc)]) = .next t :=
  ⟨⟨by decide, by decide, by decide⟩, ⟨_, rfl⟩⟩

/-- A command that reads DMEM, and a byte stored at the top of DMEM. -/
theorem witness_OnlyThePlatformChangesDmem :
    (∀ a v rest, ((regs 0x08#64).withInputs [.transaction (encode .crc)]).inputs ≠ .dmem a v :: rest) ∧
    (∃ t, step ((regs 0x08#64).withInputs [.transaction (encode .crc)]) = .next t ∧ t.out = Slot.of 0x72#64 ∧
      t.memRead 0x101 = some 0x32#8) ∧
    (∃ t, step ((regs 0x08#64).withInputs [.dmem (2 ^ 64 - 1) 5#8]) = .next t ∧
      t.memRead (2 ^ 64 - 1) = some 5#8) ∧
    2 ^ 64 - 1 < 2 ^ (regs 0x08#64).addrW :=
  ⟨fun _ _ _ h => (by cases h), ⟨_, rfl, by decide +kernel, by decide⟩, ⟨_, rfl, by decide +kernel⟩, by decide +kernel⟩

/-- A faulted block, an operation other than RD, a written place, a refused read, a step that is no reset and one
that is. -/
theorem witness_FaultsAreStickyUntilReset :
    faulty.faulted = true ∧ (∀ size off, Instr.crc ≠ .rd size off) ∧
    Place.allows (.reg .out) .read = true ∧ (∀ x ∈ (Place.reg .out).sources, faulty.isWritten x = true) ∧
    refusedRead .eight 0x060#12 ∧ refusedRead .four 0x000#12 ∧
    (∃ t, step faulty = .next t) ∧ (∀ rest, faulty.inputs ≠ .reset :: rest) ∧
    (faulty.withInputs [.reset]).faulted = true ∧ (faulty.withInputs [.reset]).inputs = [.reset] :=
  ⟨by decide, by simp, rfl, by decide,
    by unfold refusedRead badPlace; decide, by unfold refusedRead badPlace; decide, ⟨_, rfl⟩,
    fun rest h => (by cases h), by decide, rfl⟩

/-- A command that faults at its third byte; a ready TABLE_INIT. -/
theorem witness_FaultsArePreciseAndAtomic :
    (∃ t, exec .crc { regs 0x08#64 with len := Slot.of 9#64 } = .next t ∧ t.faulted = true) ∧
    ({ regs 0x08#64 with len := Slot.of 9#64 } : State).faulted = false ∧
    (∃ t, exec (.wr .eight 0x060#12 0x0F000001#64) (regs 0x08#64) = .next t ∧ t.faulted = true) ∧
    State.ready (regs 0x08#64) ∧ (∃ t, exec .tableInit (regs 0x08#64) = .next t) := by
  refine ⟨⟨_, rfl, ?_⟩, ?_, ⟨_, rfl, ?_⟩, ⟨?_, ?_, ?_⟩, ⟨_, rfl⟩⟩ <;> decide +kernel

/-- One fault of each kind: DATA_READ at the third byte, DATA_RANGE, BAD_ACCESS, TABLE_INDEX in both commands (TABLE_CRC's
at its second byte, from an entry the host wrote), WIDTH_RANGE. -/
theorem witness_FaddrRecordsWhereTheFaultWas :
    (regs 0x08#64).faulted = false ∧ (regs 0x08#64).addrW ≤ 64 ∧
    faultOf (exec .crc { regs 0x08#64 with len := Slot.of 3#64 }) = some (0x0600000000000601#64, 0x102#64) ∧
    faultOf (exec .crc { regs 0x08#64 with addrW := 8 }) = some (0x0600000000000501#64, 0x100#64) ∧
    faultOf (exec (.wr .eight 0x7F8#12 0#64) (regs 0x08#64)) = some (0x701#64, 0x7F8#64) ∧
    faultOf (exec (.tableUpdate 0xFF#8) { regs 0x08#64 with state := Slot.of 0x100#64 }) =
      some (0x080000FF00000401#64, 0x1FF#64) ∧
    faultOf (exec .tableCrc ((regs 0x08#64).writeEntry 0x31#8 0x100#64)) =
      some (0x0900000000000401#64, 0x132#64) ∧
    faultOf (exec .mask (regs 0x41#64)) = some (0x0A00000000000201#64, 0#64) := by
  refine ⟨?_, ?_, ?_, ?_, ?_, ?_, ?_, ?_⟩ <;> decide +kernel

/-- A fault of each group of operations. -/
theorem witness_EachOperationRaisesOnlyItsFaults :
    (regs 0x00#64).faulted = false ∧ (regs 0x21#64).faulted = false ∧
    faultOf (exec .tableInit (regs 0x00#64)) = some (0x0700000000000201#64, 0#64) ∧
    faultOf (exec .reflect32 (regs 0x21#64)) = some (0x0D00000000000301#64, 0#64) ∧
    faultOf (exec (.tableUpdate 0#8) { regs 0x08#64 with state := Slot.of 0x100#64 }) =
      some (0x0800000000000401#64, 0x100#64) ∧
    faultOf (exec .crc { regs 0x08#64 with addrW := 8 }) = some (0x0600000000000501#64, 0x100#64) ∧
    faultOf (exec .tableCrc { regs 0x08#64 with addr := Slot.of 0#64 }) = some (0x0900000000000601#64, 0#64) ∧
    faultOf (exec (.rd .eight 0x060#12) (regs 0x08#64)) = some (0x701#64, 0x60#64) ∧
    faultOf (exec (.wr .eight 0x060#12 0x0F000000#64) (regs 0x08#64)) = some (0x0F00000000000101#64, 0#64) := by
  refine ⟨?_, ?_, ?_, ?_, ?_, ?_, ?_, ?_, ?_⟩ <;> decide +kernel

theorem witness_EveryCommandChecksWidthFirst :
    Instr.crc.isCommand = true ∧ (regs 0x00#64).faulted = false ∧ (regs 0x00#64).width < 1 ∧
    64 < (regs 0x41#64).width := by
  refine ⟨?_, ?_, ?_, ?_⟩ <;> decide

/-- Commands that change OUT, NPOLY, STATE and TABLE. -/
theorem witness_CommandsWriteOnlyTheirResults :
    (∃ t, exec .reflect (regs 0x08#64) = .next t ∧ t.out ≠ (regs 0x08#64).out) ∧
    (∃ t, exec .setupPoly (regs 0x03#64) = .next t ∧ t.npoly ≠ (regs 0x03#64).npoly) ∧
    (∃ t, exec (.update 1#8) (regs 0x08#64) = .next t ∧ t.state ≠ (regs 0x08#64).state) ∧
    (∃ t, exec .tableInit (regs 0x08#64) = .next t ∧ t.entrySlot 1#8 ≠ (regs 0x08#64).entrySlot 1#8) := by
  refine ⟨⟨_, rfl, ?_⟩, ⟨_, rfl, ?_⟩, ⟨_, rfl, ?_⟩, ⟨_, rfl, ?_⟩⟩ <;> decide +kernel

/-- Two places, the first and a later register of a command's order, an entry of TABLE_UPDATE, and one that TABLE_CRC
meets at its second byte. -/
theorem witness_UnwrittenReadIsTheModelOnlyFault :
    State.reset.unwrittenRead = none ∧
    (Place.reg .out).sources = [.reg .out] ∧ State.reset.isWritten (.reg .out) = false ∧
    (Place.entry 255#8).sources = [.entry 255#8] ∧ State.reset.isWritten (.entry 255#8) = false ∧
    (regs 0x08#64).unwrittenRead = none ∧ State.ready { regs 0x08#64 with poly := Slot.unwritten } ∧
    (commandReads .crc).find? (fun q => !(({ regs 0x08#64 with poly := Slot.unwritten } : State).slot q).written) =
      some .poly ∧
    (commandReads .crc).find? (fun q => !(({ regs 0x08#64 with len := Slot.unwritten } : State).slot q).written) =
      some .len ∧
    (regs 0x08#64).width ≤ commandLane .reflect8 ∧
    (regs 0x08#64).state.written = true ∧
    tableIndex (regs 0x08#64).width (regs 0x08#64).refl ((regs 0x08#64).read .state) 0xFF#8 = .ok 0xFF#8 ∧
    ((regs 0x08#64).entrySlot 0xFF#8).written = false ∧
    (∀ q ∈ commandReads .tableCrc, ((regs 0x08#64).slot q).written = true) ∧ (regs 0x08#64).bufferInRange ∧
    (tableReads 8 false ((regs 0x08#64).writeEntry 0x31#8 0#64).readEntry 0#64 [0x31#8, 0x32#8]).find?
      (fun k => !(((regs 0x08#64).writeEntry 0x31#8 0#64).entrySlot k).written) = some 0x32#8 := by
  unfold State.ready State.bufferInRange
  refine ⟨?_, ?_, ?_, ?_, ?_, ?_, ?_, ?_, ?_, ?_, ?_, ?_, ?_, ?_, ?_, ?_⟩ <;> decide +kernel

/-- Both ends of a run: reset has no record; `RD CFG` completes without one, and `RD CFG; RD OUT` makes one at its second
operation. -/
theorem witness_RunsEndAtTheFirstUnwrittenRead :
    State.reset.unwrittenRead = none ∧
    after (·.unwrittenRead) (runProgram [.rd .eight 0x000#12] State.reset) = some none ∧
    after (·.unwrittenRead) (runProgram [.rd .eight 0x000#12, .rd .eight 0x038#12] State.reset) =
      some (some (.reg .out)) := by
  refine ⟨?_, ?_, ?_⟩ <;> decide

/-- The edges of the unmapped hole, the misaligned and small accesses, and the read-only and write-only places. -/
theorem witness_IllegalTransactionsAreExactlyRefused :
    State.reset.faulted = false ∧
    refusedWrite .eight 0x068#12 ∧ refusedWrite .eight 0x7F8#12 ∧ refusedWrite .eight 0x038#12 ∧
    refusedWrite .eight 0x050#12 ∧ refusedWrite .eight 0x058#12 ∧ refusedWrite .four 0x008#12 ∧
    refusedWrite .eight 0x00C#12 ∧ ¬ refusedWrite .eight 0x060#12 ∧ ¬ refusedWrite .eight 0x800#12 ∧
    ¬ refusedWrite .eight 0xFF8#12 ∧
    refusedRead .eight 0x060#12 ∧ refusedRead .eight 0xFFC#12 ∧ refusedRead .one 0x000#12 ∧
    ¬ refusedRead .eight 0x058#12 ∧ ¬ refusedRead .eight 0x038#12 := by
  unfold refusedWrite refusedRead badPlace
  refine ⟨?_, ?_, ?_, ?_, ?_, ?_, ?_, ?_, ?_, ?_, ?_, ?_, ?_, ?_, ?_, ?_⟩ <;> decide

/-- CFG's illegal widths from both sides. -/
theorem witness_CfgWriteStoresTheLowByte :
    State.reset.faulted = false ∧ (∃ t, exec (.wr .eight 0x000#12 0xF80#64) State.reset = .next t) ∧
    Instr.result.isCommand = true ∧ (0xF80#64 &&& 0x7F#64) = 0#64 ∧ 64 < (0x41#64 &&& 0x7F#64).toNat ∧
    ¬ 64 < (0x40#64 &&& 0x7F#64).toNat :=
  ⟨by decide, ⟨_, rfl⟩, rfl, by decide, by decide, by decide⟩

theorem witness_HostWriteStoresTheWholeRegister :
    State.reset.faulted = false ∧ DataReg.npoly ≠ .out ∧ (0#8 : Byte) ≠ 255#8 ∧ DataReg.poly ≠ .len := by
  refine ⟨?_, ?_, ?_, ?_⟩ <;> decide

theorem witness_HostReadReturnsThePlace :
    refusedRead .eight 0x060#12 ∧ refusedRead .two 0x000#12 ∧ faulty.faulted = true ∧
    State.reset.faulted = false := by
  unfold refusedRead badPlace; decide

/-- A register and the last table entry. -/
theorem witness_WrittenRegistersReadBack :
    State.reset.faulted = false ∧ ¬ refusedWrite .eight 0x030#12 ∧ ¬ refusedWrite .eight 0xFF8#12 ∧
    (∃ t, exec (.wr .eight 0x030#12 5#64) State.reset = .next t) ∧
    (∃ t, exec (.wr .eight 0xFF8#12 5#64) State.reset = .next t) :=
  ⟨by decide, by unfold refusedWrite badPlace; decide, by unfold refusedWrite badPlace; decide, ⟨_, rfl⟩, ⟨_, rfl⟩⟩

/-- Widths 1 and 64 are ready; 0 and 65 are not. -/
theorem witness_ReflectReversesTheLowBits :
    State.ready (regs 0x01#64) ∧ State.ready (regs 0xC0#64) ∧ (regs 0x00#64).faulted = false ∧
    (regs 0x00#64).width < 1 ∧ 64 < (regs 0x41#64).width := by
  unfold State.ready; decide

/-- Each lane at its own width and one above it. -/
theorem witness_LaneCommandsReverseWithinTheirLane :
    State.ready (regs 0x08#64) ∧ (regs 0x08#64).width ≤ 8 ∧ State.ready (regs 0x09#64) ∧ 8 < (regs 0x09#64).width ∧
    State.ready (regs 0x10#64) ∧ (regs 0x10#64).width ≤ 16 ∧ State.ready (regs 0x11#64) ∧
    16 < (regs 0x11#64).width ∧
    State.ready (regs 0x20#64) ∧ (regs 0x20#64).width ≤ 32 ∧ State.ready (regs 0x21#64) ∧
    32 < (regs 0x21#64).width ∧
    State.ready (regs 0x40#64) ∧ (regs 0x40#64).width ≤ 64 ∧ (regs 0x41#64).faulted = false ∧
    64 < (regs 0x41#64).width := by
  unfold State.ready; decide

theorem witness_ReflectorLaws :
    State.ready (regs 0x08#64) ∧ (regs 0x08#64).width ≤ 8 ∧ (∃ t, exec .reflect (regs 0x08#64) = .next t) ∧
    (∃ u, exec .reflect8 (regs 0x08#64) = .next u) ∧ (∃ u, exec .reflect64 (regs 0x08#64) = .next u) :=
  ⟨⟨by decide, by decide, by decide⟩, by decide, ⟨_, rfl⟩, ⟨_, rfl⟩, ⟨_, rfl⟩⟩

/-- The lane S = 8 at its lowest and highest width, and S = 64. -/
theorem witness_SwapNetworkReversesTheLane :
    swapNetwork 8 (0x1B4#64 &&& lowmask 8) = 0x2D#64 ∧ swapNetwork 64 (1#64 &&& lowmask 64) >>> (64 - 1) = 1#64 := by
  refine ⟨?_, ?_⟩ <;> decide

/-- The three arms of the Normalizer, at W = 7 and W = 8 where they meet, and an illegal width. -/
theorem witness_SetupPolyNormalizesPoly :
    State.ready (regs 0x88#64) ∧ (regs 0x88#64).refl = true ∧
    State.ready (regs 0x07#64) ∧ (regs 0x07#64).refl = false ∧ (regs 0x07#64).width < 8 ∧
    State.ready (regs 0x08#64) ∧ (regs 0x08#64).refl = false ∧ 8 ≤ (regs 0x08#64).width ∧
    (regs 0x00#64).faulted = false ∧ (regs 0x00#64).width < 1 := by
  unfold State.ready; decide

theorem witness_SetupStateNormalizesIv :
    State.ready (regs 0xC0#64) ∧ (regs 0xC0#64).refl = true ∧
    State.ready (regs 0x01#64) ∧ (regs 0x01#64).refl = false ∧ (regs 0x01#64).width < 8 ∧
    State.ready (regs 0x40#64) ∧ (regs 0x40#64).refl = false ∧ 8 ≤ (regs 0x40#64).width ∧
    (regs 0x41#64).faulted = false ∧ 64 < (regs 0x41#64).width := by
  unfold State.ready; decide

/-- W = 7 with the widest field value, W = 8 and W = 64. -/
theorem witness_NormalizerLaws :
    (0x7F#64).toNat < 2 ^ 7 ∧ normOf 7 false 0x7F#64 = 0xFE#64 ∧ normOf 8 false 0x1FF#64 = 0x1FF#64 ∧
    normOf 64 true 1#64 = 0x8000000000000000#64 := by
  refine ⟨?_, ?_, ?_, ?_⟩ <;> decide

theorem witness_UpdateRunsEightMicroSteps :
    State.ready (regs 0x88#64) ∧ (regs 0x88#64).refl = true ∧
    State.ready (regs 0x07#64) ∧ (regs 0x07#64).refl = false ∧ (regs 0x07#64).width < 8 ∧
    State.ready (regs 0x08#64) ∧ (regs 0x08#64).refl = false ∧ 8 ≤ (regs 0x08#64).width ∧
    (∀ x, microLeft 7 7#64 x = if x.getLsbD 7 then (x <<< 1) ^^^ 7#64 else x <<< 1) ∧
    (regs 0x00#64).faulted = false ∧ (regs 0x00#64).width < 1 := by
  unfold State.ready
  refine ⟨?_, ?_, ?_, ?_, ?_, ?_, ?_, ?_, fun _ => rfl, ?_, ?_⟩ <;> decide

theorem witness_UpdateLaws :
    (0xFF#64).toNat < 2 ^ 8 ∧ State.ready (regs 0x08#64) ∧ (regs 0x08#64).width = (tabled 0x08#64).width ∧
    (tabled 0x08#64).faulted = false ∧ (regs 0x08#64).refl = (tabled 0x08#64).refl ∧
    (regs 0x08#64).read .npoly = (tabled 0x08#64).read .npoly ∧
    (regs 0x08#64).read .state = (tabled 0x08#64).read .state ∧
    (∃ s', exec (.update 1#8) (regs 0x08#64) = .next s') ∧ (∃ t', exec (.update 1#8) (tabled 0x08#64) = .next t') := by
  unfold State.ready
  refine ⟨?_, ?_, ?_, ?_, ?_, ?_, ?_, ⟨_, rfl⟩, ⟨_, rfl⟩⟩ <;> decide +kernel

/-- W below, at and above 8, with a polynomial at the top of its field. -/
theorem witness_UpdateKeepsShiftedOutBits :
    (8 : Nat) = max 3 8 ∧ (0xFF#64).toNat < 2 ^ 8 ∧ (8 : Nat) = max 8 8 ∧ (16 : Nat) = max 16 8 ∧
    (0xFFFF#64).toNat < 2 ^ 16 ∧ upd 8 false 7#64 0#64 0x31#8 = 0x3197#64 := by
  refine ⟨?_, ?_, ?_, ?_, ?_, ?_⟩ <;> decide

theorem witness_MaskKeepsTheCrcField :
    State.ready (regs 0x88#64) ∧ (regs 0x88#64).refl = true ∧
    State.ready (regs 0x07#64) ∧ (regs 0x07#64).refl = false ∧ (regs 0x07#64).width < 8 ∧
    State.ready (regs 0x40#64) ∧ (regs 0x40#64).refl = false ∧ 8 ≤ (regs 0x40#64).width ∧
    (regs 0x00#64).faulted = false ∧ (regs 0x00#64).width < 1 := by
  unfold State.ready; decide

theorem witness_ResultFinalizesState :
    State.ready (regs 0x81#64) ∧ (regs 0x81#64).refl = true ∧
    State.ready (regs 0x01#64) ∧ (regs 0x01#64).refl = false ∧ (regs 0x01#64).width < 8 ∧
    State.ready (regs 0x08#64) ∧ (regs 0x08#64).refl = false ∧ 8 ≤ (regs 0x08#64).width ∧
    (regs 0x41#64).faulted = false ∧ 64 < (regs 0x41#64).width := by
  unfold State.ready; decide

theorem witness_FinalizerLaws :
    (7#64).toNat < 2 ^ 3 ∧ fin 3 false 7#64 0x1E0#64 = 0#64 ∧ (0xFFFFFFFF#64).toNat < 2 ^ 32 ∧
    fin 32 true 0xFFFFFFFF#64 0x340BC6D9#64 = 0xCBF43926#64 := by
  refine ⟨?_, ?_, ?_, ?_⟩ <;> decide

/-- The two bytes of the buffer at 0x100. -/
theorem holds_two {s : State} (hl : (s.read .len).toNat = 2) (hr : (s.read .addr).toNat + 2 ≤ 2 ^ s.addrW)
    (h0 : s.memRead (s.read .addr).toNat = some 0x31#8) (h1 : s.memRead ((s.read .addr).toNat + 1) = some 0x32#8) :
    s.bufferHolds [0x31#8, 0x32#8] := by
  refine ⟨hl, fun _ => hr, fun k hk => ?_⟩
  match k, hk with
  | 0, _ => exact h0
  | 1, _ => exact h1

theorem tabled_holds_two (cfg : Word) : (tabled cfg).bufferHolds [0x31#8, 0x32#8] := by
  apply holds_two <;>
    simp only [tabled, State.buildTable_read, State.buildTable_memRead, State.buildTable_addrW] <;>
    first | rfl | (show (256 : Nat) + 2 ≤ 2 ^ 64; decide)

/-- The built table is the table of POLY = 7. -/
theorem tabled_built (cfg : Word) : (tabled cfg).tableBuiltFor ((tabled cfg).read .poly) := by
  intro i
  simp only [tabled, State.entrySlot_buildTable, State.buildTable_width, State.buildTable_refl, State.buildTable_read,
    tbl]
  congr 2

theorem witness_CrcFoldsTheBuffer :
    State.ready (regs 0x08#64) ∧ (regs 0x08#64).bufferHolds [0x31#8, 0x32#8] ∧
    State.ready { regs 0x08#64 with len := Slot.of 0#64 } ∧
    ({ regs 0x08#64 with len := Slot.of 0#64 } : State).bufferHolds [] := by
  refine ⟨⟨?_, ?_, ?_⟩, holds_two ?_ ?_ ?_ ?_, ⟨?_, ?_, ?_⟩, ?_, fun h => absurd h (by simp), fun k hk => absurd hk (by simp)⟩ <;>
    decide +kernel

/-- A table walk that ends well, and one whose first byte has no entry. -/
theorem witness_TableCrcFoldsTheBuffer :
    State.ready (tabled 0x08#64) ∧ (tabled 0x08#64).bufferHolds [0x31#8, 0x32#8] ∧
    tcrcOf 8 false (tabled 0x08#64).readEntry 0#64 0#64 [0x31#8, 0x32#8] = .ok 0x72#64 ∧
    tcrcOf 8 false (tabled 0x08#64).readEntry 0x100#64 0#64 [0x31#8, 0x32#8] = .error 0x131#64 := by
  refine ⟨⟨?_, ?_, ?_⟩, tabled_holds_two _, ?_, ?_⟩ <;> decide +kernel

/-- A buffer one byte past the top, one that ends at the top, and an empty one at the highest address. -/
theorem witness_BufferPastTheTopIsDataRange :
    State.ready { regs 0x08#64 with addrW := 16, addr := Slot.of 0xFFFF#64 } ∧
    0 < (({ regs 0x08#64 with addrW := 16, addr := Slot.of 0xFFFF#64 } : State).read .len).toNat ∧
    2 ^ 16 < (({ regs 0x08#64 with addrW := 16, addr := Slot.of 0xFFFF#64 } : State).read .addr).toNat +
      (({ regs 0x08#64 with addrW := 16, addr := Slot.of 0xFFFF#64 } : State).read .len).toNat ∧
    faultOf (exec .crc { regs 0x08#64 with addrW := 16, addr := Slot.of 0xFFFE#64 }) =
      some (0x0600000000000601#64, 0xFFFE#64) ∧
    after (·.faulted) (exec .crc { regs 0x08#64 with addr := Slot.of (BitVec.allOnes 64), len := Slot.of 0#64 }) =
      some false := by
  refine ⟨⟨?_, ?_, ?_⟩, ?_, ?_, ?_, ?_⟩ <;> decide +kernel

/-- Two readable bytes, then a refused one. -/
theorem witness_FirstRefusedByteIsDataRead :
    State.ready { tabled 0x08#64 with len := Slot.of 9#64 } ∧
    State.bufferStarts { tabled 0x08#64 with len := Slot.of 9#64 } [0x31#8, 0x32#8] ∧
    [0x31#8, 0x32#8].length < (({ tabled 0x08#64 with len := Slot.of 9#64 } : State).read .len).toNat ∧
    State.bufferInRange { tabled 0x08#64 with len := Slot.of 9#64 } ∧
    ({ tabled 0x08#64 with len := Slot.of 9#64 } : State).memRead 0x102 = none ∧
    tupdAll 8 false (tabled 0x08#64).readEntry 0#64 [0x31#8, 0x32#8] = .ok 0x72#64 ∧
    tupdAll 8 false (tabled 0x08#64).readEntry 0x100#64 [0x31#8, 0x32#8] = .error 0x131#64 ∧
    (tabled 0x08#64).addrW ≤ 64 ∧
    faultOf (exec .tableCrc { tabled 0x08#64 with len := Slot.of 9#64, iv := Slot.of 0x100#64 }) =
      some (0x0900000000000401#64, 0x131#64) := by
  refine ⟨⟨?_, ?_, ?_⟩, ⟨?_, ?_⟩, ?_, .inr ?_, ?_, ?_, ?_, ?_, ?_⟩
  case refine_5 =>
    intro k hk
    match k with
    | 0 => rfl
    | 1 => rfl
    | n + 2 => simp at hk
  all_goals decide +kernel

theorem witness_EmptyInputGivesTheFinalizedIv :
    State.ready { regs 0x03#64 with len := Slot.of 0#64 } ∧
    ({ regs 0x03#64 with len := Slot.of 0#64 } : State).read .len = 0#64 := by
  refine ⟨⟨?_, ?_, ?_⟩, ?_⟩ <;> decide

theorem witness_IncrementalBitwisePathEqualsCrc :
    State.ready (tabled 0x08#64) ∧ (tabled 0x08#64).bufferHolds [0x31#8, 0x32#8] := by
  refine ⟨⟨?_, ?_, ?_⟩, tabled_holds_two _⟩ <;> decide +kernel

/-- Two states that differ in VALUE, STATE and TABLE. -/
theorem witness_CrcDependsOnItsOperandsOnly :
    State.ready (regs 0x08#64) ∧ (regs 0x08#64).cfg = (tabled 0x08#64).cfg ∧
    (regs 0x08#64).status = (tabled 0x08#64).status ∧ (regs 0x08#64).faddr = (tabled 0x08#64).faddr ∧
    (∀ r : DataReg, (regs 0x08#64).read r = (tabled 0x08#64).read r) ∧
    (regs 0x08#64).addrW = (tabled 0x08#64).addrW ∧ (∀ a, (regs 0x08#64).memRead a = (tabled 0x08#64).memRead a) ∧
    (regs 0x08#64).entrySlot 1#8 ≠ (tabled 0x08#64).entrySlot 1#8 ∧
    (∃ s', exec .crc (regs 0x08#64) = .next s') ∧ (∃ t', exec .crc (tabled 0x08#64) = .next t') := by
  refine ⟨⟨?_, ?_, ?_⟩, ?_, ?_, ?_, fun r => ?_, ?_, fun a => ?_, ?_, ⟨_, rfl⟩, ⟨_, rfl⟩⟩
  case refine_7 => rw [tabled, State.buildTable_read]
  case refine_9 => rw [tabled, State.buildTable_memRead]
  all_goals decide +kernel

theorem witness_TableInitBuildsEveryEntry :
    State.ready (regs 0x08#64) ∧ State.ready (regs 0xC0#64) ∧ (regs 0x00#64).faulted = false ∧
    (regs 0x00#64).width < 1 := by
  unfold State.ready; decide

/-- TABLE_INIT itself, and operations that leave the table: a command, a register write, a CMD write. -/
theorem witness_TableInvariantHoldsUntilRewritten :
    State.ready (regs 0x08#64) ∧ (∃ t, exec .tableInit (regs 0x08#64) = .next t) ∧
    (∃ t, exec .crc (tabled 0x08#64) = .next t) ∧ Instr.crc ≠ .tableInit ∧
    (∀ size off d, Instr.crc = .wr size off d → off.toNat < 0x800 ∧ (off = 0x060#12 → decodeCommand d ≠ .ok .tableInit)) ∧
    (∃ t, exec (.wr .eight 0x7F8#12 0#64) (tabled 0x08#64) = .next t) ∧ (0x7F8#12).toNat < 0x800 ∧
    decodeCommand 0x06000000#64 = .ok .crc :=
  ⟨⟨by decide, by decide, by decide⟩, ⟨_, rfl⟩, ⟨_, rfl⟩, by simp, fun _ _ _ h => (by cases h), ⟨_, rfl⟩, by decide,
    by decide⟩

/-- The two bounds meet at W = 7 and W = 8, non-reflected; reflected at W = 1. -/
theorem witness_BuiltEntriesFitTheirField :
    State.ready (regs 0x08#64) ∧ 8 ≤ (regs 0x08#64).width ∧ (∃ t, exec .tableInit (regs 0x08#64) = .next t) ∧
    State.ready (regs 0x07#64) ∧ (regs 0x07#64).refl = false ∧ (regs 0x07#64).width < 8 ∧
    (∃ t, exec .tableInit (regs 0x07#64) = .next t) ∧ State.ready (regs 0x81#64) ∧ (regs 0x81#64).refl = true :=
  ⟨⟨by decide, by decide, by decide⟩, by decide, ⟨_, rfl⟩, ⟨by decide, by decide, by decide⟩, by decide, by decide,
    ⟨_, rfl⟩, ⟨by decide, by decide, by decide⟩, by decide⟩

/-- The three modes, with the index at 255 and at 256. -/
theorem witness_TableUpdateLooksUpOneEntry :
    State.ready (regs 0x88#64) ∧ (regs 0x88#64).refl = true ∧
    State.ready (regs 0x09#64) ∧ (regs 0x09#64).refl = false ∧ 8 < (regs 0x09#64).width ∧
    State.ready (regs 0x08#64) ∧ (regs 0x08#64).refl = false ∧ (regs 0x08#64).width ≤ 8 ∧
    ((0xFF#8).setWidth 64 ^^^ (regs 0x08#64).read .state).toNat ≤ 255 ∧
    255 < ((0#8).setWidth 64 ^^^ ({ regs 0x08#64 with state := Slot.of 0x100#64 } : State).read .state).toNat ∧
    (regs 0x00#64).faulted = false ∧ (regs 0x00#64).width < 1 := by
  unfold State.ready; decide

/-- A non-reflected table update of each of its two arms. -/
theorem witness_TableEngineEqualsBitwiseEngine :
    tupd 8 false (tbl 8 false 7#64) 0#64 0x31#8 = .ok 0x97#64 ∧
    tupd 64 false (tbl 64 false 0x42F0E1EBA9EA3693#64) 0x8000000000000000#64 0#8 = .ok 0xF6FAE5C07D3274CD#64 := by
  refine ⟨?_, ?_⟩ <;> decide

theorem witness_TableCrcEqualsCrc :
    State.ready (tabled 0x08#64) ∧ (tabled 0x08#64).tableBuiltFor ((tabled 0x08#64).read .poly) ∧
    ∃ t, exec .tableCrc (tabled 0x08#64) = .next t ∧ t.faulted = false := by
  refine ⟨⟨?_, ?_, ?_⟩, tabled_built _, ⟨_, rfl, ?_⟩⟩ <;> decide +kernel

/-- IV below 2^W, and IV = 256 at W = 8, where TABLE_CRC faults alone. -/
theorem witness_TableCrcFaultsAloneOnlyByTableIndex :
    State.ready (tabled 0x08#64) ∧ ((tabled 0x08#64).read .iv).toNat < 2 ^ (tabled 0x08#64).width ∧
    State.ready { tabled 0x08#64 with iv := Slot.of 0x100#64 } ∧
    State.tableBuiltFor { tabled 0x08#64 with iv := Slot.of 0x100#64 }
      (({ tabled 0x08#64 with iv := Slot.of 0x100#64 } : State).read .poly) ∧
    (∃ t, exec .tableCrc { tabled 0x08#64 with iv := Slot.of 0x100#64 } = .next t ∧ t.faulted = true) ∧
    (∃ u, exec .crc { tabled 0x08#64 with iv := Slot.of 0x100#64 } = .next u ∧ u.faulted = false) := by
  refine ⟨⟨?_, ?_, ?_⟩, ?_, ⟨?_, ?_, ?_⟩, tabled_built 0x08#64, ⟨_, rfl, ?_⟩, ⟨_, rfl, ?_⟩⟩ <;> decide +kernel

/-- W = 8 with IV = 255 and 256, and W = 3 with the lowest and the highest bit that faults, and the first that does
not. -/
theorem witness_WideIvIsExactlyTableIndex :
    State.ready (tabled 0x08#64) ∧ (tabled 0x08#64).refl = false ∧ (tabled 0x08#64).width ≤ 8 ∧
    (tabled 0x08#64).bufferHolds [0x31#8, 0x32#8] ∧
    after (·.faulted) (exec .tableCrc { tabled 0x08#64 with iv := Slot.of 0xFF#64 }) = some false ∧
    after (·.faulted) (exec .tableCrc { tabled 0x08#64 with iv := Slot.of 0x100#64 }) = some true ∧
    after (·.faulted) (exec .tableCrc { tabled 0x03#64 with iv := Slot.of 0x8#64 }) = some true ∧
    after (·.faulted) (exec .tableCrc { tabled 0x03#64 with iv := Slot.of 0x0400000000000000#64 }) = some true ∧
    after (·.faulted) (exec .tableCrc { tabled 0x03#64 with iv := Slot.of 0x0800000000000000#64 }) = some false := by
  refine ⟨⟨?_, ?_, ?_⟩, ?_, ?_, tabled_holds_two _, ?_, ?_, ?_, ?_, ?_⟩ <;> decide +kernel

theorem witness_IncrementalTablePathEqualsBitwisePath :
    State.ready (tabled 0x08#64) ∧ (tabled 0x08#64).tableBuiltFor ((tabled 0x08#64).read .poly) ∧
    ∃ t, runProgram ([.setupState] ++ pseudoTfeed [0x31#8] ++ [.result]) (tabled 0x08#64) = .next t ∧
      t.faulted = false := by
  refine ⟨⟨?_, ?_, ?_⟩, tabled_built _, ⟨_, rfl, ?_⟩⟩ <;> decide +kernel

end Sys2Proof.Tests
end

/-! The core correctness property (R213), per byte and then over a buffer: the table engine and the bitwise engine
agree under `mask`, and the Finalizer sees no more than `mask`. -/

namespace Sys2Proof.Machine

section Engine

variable {W : Nat} {RF : Bool} {p poly s t : Word} {b : Byte}

/-! ### `mask` and what depends on it only -/

@[simp] theorem mask_true (W : Nat) (v : Word) : mask W true v = v := rfl

/-- `mask` bit by bit: non-reflected, it keeps the field of `max W 8` bits (R170, 90_conflicts.md C1). -/
theorem mask_false_getLsbD (W : Nat) (v : Word) (i : Nat) :
    (mask W false v).getLsbD i = (decide (i < max W 8) && v.getLsbD i) := by
  have h64 : 64 ≤ i → v.getLsbD i = false := v.getLsbD_of_ge i
  by_cases hW : W < 8
  · have hFF : (0xFF#64).getLsbD i = decide (i < 8) := by
      rw [show 0xFF#64 = lowmask 8 by decide, lowmask_getLsbD]
      exact decide_eq_decide.mpr (by omega)
    simp [mask, hW, hFF, show max W 8 = 8 by omega, Bool.and_comm]
  · simp only [mask, hW, Bool.false_eq_true, if_false, BitVec.getLsbD_and, lowmask_getLsbD,
      show max W 8 = W by omega]
    by_cases hi : i < 64
    · simp [hi, Bool.and_comm]
    · simp [h64 (by omega)]

/-- Equal masks are equal fields. -/
theorem mask_false_eq_iff :
    mask W false s = mask W false t ↔ ∀ i < max W 8, s.getLsbD i = t.getLsbD i := by
  constructor
  · intro h i hi
    have hb := congrArg (·.getLsbD i) h
    simpa [mask_false_getLsbD, hi] using hb
  · intro h
    apply BitVec.eq_of_getLsbD_eq
    intro i _
    rw [mask_false_getLsbD, mask_false_getLsbD]
    by_cases hi : i < max W 8
    · rw [h i hi]
    · simp [hi]

theorem mask_xor (W : Nat) (RF : Bool) (s t : Word) : mask W RF (s ^^^ t) = mask W RF s ^^^ mask W RF t := by
  cases RF with
  | true => rfl
  | false =>
    apply BitVec.eq_of_getLsbD_eq
    intro i _
    simp only [BitVec.getLsbD_xor, mask_false_getLsbD, Bool.and_xor_distrib_left]

@[simp] theorem mask_mask (W : Nat) (RF : Bool) (v : Word) : mask W RF (mask W RF v) = mask W RF v := by
  cases RF with
  | true => rfl
  | false => exact mask_false_eq_iff.mpr fun i hi => by simp [mask_false_getLsbD, hi]

/-- The Finalizer takes the masked field down to bit 0 (R171, R174 (3)). -/
theorem fin_eq_mask (W : Nat) (RF : Bool) (xo v : Word) :
    fin W RF xo v = (mask W RF v >>> (if RF then 0 else 8 - W)) ^^^ xo := by
  cases RF with
  | true => simp [fin]
  | false =>
    by_cases hW : W < 8
    · simp [fin, mask, hW]
    · simp [fin, mask, hW, show 8 - W = 0 by omega]

/-! ### One byte of the bitwise engine -/

/-- The two non-reflected arms of `upd` are one: bit `max W 8 - 1` is tested and the byte enters just below it
(R160). -/
theorem upd_false (W : Nat) (p s : Word) (b : Byte) :
    upd W false p s b = (microLeft (max W 8 - 1) p)^[8] (s ^^^ b.setWidth 64 <<< (W - 8)) := by
  by_cases hW : W < 8
  · simp [upd, hW, show max W 8 = 8 by omega, show W - 8 = 0 by omega]
  · simp [upd, hW, show max W 8 = W by omega]

/-- The field after a byte depends on the field before it only (R163 (1)). -/
theorem mask_upd_congr (h : mask W RF s = mask W RF t) :
    mask W RF (upd W RF p s b) = mask W RF (upd W RF p t b) := by
  cases RF with
  | true =>
    rw [mask_true, mask_true] at h
    rw [h]
  | false =>
    rw [mask_false_eq_iff] at h ⊢
    intro i hi
    rw [upd_false, upd_false]
    refine microLeft_iterate_local _ p 8 (fun j hj => ?_) i (by omega)
    rw [BitVec.getLsbD_xor, BitVec.getLsbD_xor, h j (by omega)]

/-- Eight reflected micro-steps test the low byte only; the rest shifts down under it. -/
theorem microRight_iterate_low_byte (p x : Word) :
    (microRight p)^[8] x = (microRight p)^[8] ((x.setWidth 8).setWidth 64) ^^^ (x >>> 8) := by
  have hsplit : x = (x.setWidth 8).setWidth 64 ^^^ (x >>> 8 <<< 8) := by
    apply BitVec.eq_of_getLsbD_eq
    intro i hi
    by_cases h8 : i < 8
    · simp [h8, hi]
    · simp [h8, hi, show 8 + (i - 8) = i by omega]
  have hrest : (microRight p)^[8] (x >>> 8 <<< 8) = x >>> 8 := by
    rw [microRight_iterate_of_low_zero p 8 fun i hi => by simp [hi]]
    apply BitVec.eq_of_getLsbD_eq
    intro i _
    by_cases h : 8 + i < 64
    · simp [h]
    · simp [h, x.getLsbD_of_ge (8 + i) (by omega)]
  calc (microRight p)^[8] x
      = (microRight p)^[8] ((x.setWidth 8).setWidth 64 ^^^ (x >>> 8 <<< 8)) := by rw [← hsplit]
    _ = _ := by rw [iterate_xor (microRight_xor p), hrest]

/-- Eight non-reflected micro-steps test the top byte of the field only; the rest of the field shifts up under it. -/
theorem mask_microLeft_iterate_top_byte (hW : 8 ≤ W) (p x : Word) :
    mask W false ((microLeft (W - 1) p)^[8] x) =
      mask W false ((microLeft (W - 1) p)^[8] (((x >>> (W - 8)).setWidth 8).setWidth 64 <<< (W - 8))) ^^^
        mask W false (x <<< 8) := by
  generalize hl : ((x >>> (W - 8)).setWidth 8).setWidth 64 <<< (W - 8) = l
  have hbit (i : Nat) : l.getLsbD i = (decide (W - 8 ≤ i ∧ i < W) && x.getLsbD i) := by
    rw [← hl]
    by_cases hi : i < 64
    · by_cases h1 : W - 8 ≤ i
      · simp [hi, h1, show W - 8 + (i - (W - 8)) = i by omega, show i - (W - 8) < 8 ↔ i < W by omega,
          show i - (W - 8) < 64 by omega, show ¬ i < W - 8 by omega]
      · simp [h1, show i < W - 8 by omega]
    · simp [hi, x.getLsbD_of_ge i (by omega)]
  have hrest : (microLeft (W - 1) p)^[8] (x ^^^ l) = (x ^^^ l) <<< 8 := by
    refine microLeft_iterate_of_tested_zero (W - 1) p 8 (fun j hj => ?_) (by omega)
    simp [hbit, show W - 8 ≤ W - 1 - j ∧ W - 1 - j < W by omega]
  have hfield : mask W false ((x ^^^ l) <<< 8) = mask W false (x <<< 8) := by
    rw [mask_false_eq_iff]
    intro i hi
    by_cases h8 : i < 8
    · simp [h8]
    · simp [hbit, h8, show ¬ W ≤ i - 8 + 8 by omega]
  calc mask W false ((microLeft (W - 1) p)^[8] x)
      = mask W false ((microLeft (W - 1) p)^[8] (l ^^^ (x ^^^ l))) := by
        rw [BitVec.xor_comm x l, ← BitVec.xor_assoc, BitVec.xor_self, BitVec.zero_xor]
    _ = _ := by rw [iterate_xor (microLeft_xor _ p), mask_xor, hrest, hfield]

/-! ### One byte: the two engines agree under `mask` -/

/-- Reflected, the two engines agree on all 64 bits (R202 (1)). -/
theorem tupd_tbl_true (W : Nat) (poly s : Word) (b : Byte) :
    tupd W true (tbl W true poly) s b = .ok (upd W true (normOf W true poly) s b) := by
  have hbyte : (s ^^^ b.setWidth 64) >>> 8 = s >>> 8 := by
    rw [BitVec.ushiftRight_xor_distrib, show b.setWidth 64 >>> 8 = 0#64 by bv_omega, BitVec.xor_zero]
  simp only [tupd, tableIndex, tableCombine, tbl, tableEntry, upd, mask_true, if_true, BitVec.zero_xor]
  rw [microRight_iterate_low_byte _ (s ^^^ b.setWidth 64), hbyte, BitVec.xor_comm s]

/-- A non-reflected entry is the masked field after the index alone (R190). -/
theorem tbl_false (W : Nat) (poly : Word) (i : Byte) :
    tbl W false poly i =
      mask W false ((microLeft (max W 8 - 1) (normOf W false poly))^[8] (i.setWidth 64 <<< (W - 8))) := by
  rw [tbl, tableEntry, upd_false, BitVec.zero_xor]

/-- Up to width 8 the whole state is the index, so the entry is the masked result (R202 (2)). -/
theorem mask_of_tupd_tbl_narrow {v : Word} (hW : W ≤ 8) (h : tupd W false (tbl W false poly) s b = .ok v) :
    mask W false v = mask W false (upd W false (normOf W false poly) s b) := by
  have hidx : ¬ 255#64 < b.setWidth 64 ^^^ s := fun hlt => by simp [tupd, tableIndex, hW, hlt] at h
  have hbyte : ((b.setWidth 64 ^^^ s).setWidth 8).setWidth 64 = b.setWidth 64 ^^^ s := by
    generalize b.setWidth 64 ^^^ s = x at hidx ⊢
    bv_omega
  simp only [tupd, tableIndex, tableCombine, hW, hidx, Bool.false_eq_true, if_false, if_true,
    Except.ok.injEq] at h
  rw [← h, tbl_false, mask_mask, hbyte, upd_false, show W - 8 = 0 by omega, BitVec.shiftLeft_zero,
    BitVec.shiftLeft_zero, BitVec.xor_comm]

/-- Above width 8 the index is the top byte of the field, and the rest of the field shifts up (R202 (2)). -/
theorem mask_of_tupd_tbl_wide {v : Word} (h8 : 8 < W) (hW : W ≤ 64)
    (h : tupd W false (tbl W false poly) s b = .ok v) :
    mask W false v = mask W false (upd W false (normOf W false poly) s b) := by
  have hidx : ((s ^^^ b.setWidth 64 <<< (W - 8)) >>> (W - 8)).setWidth 8 =
      (b.setWidth 64 ^^^ (s >>> (W - 8))).setWidth 8 := by
    apply BitVec.eq_of_getLsbD_eq
    intro i hi
    simp [hi, show W - 8 + i < 64 by omega, show i < 64 by omega, Bool.xor_comm]
  have hrest : mask W false ((s ^^^ b.setWidth 64 <<< (W - 8)) <<< 8) = mask W false (s <<< 8) := by
    rw [mask_false_eq_iff]
    intro i hi
    by_cases h : i < 8
    · simp [h]
    · simp [show i - 8 < W - 8 by omega]
  simp only [tupd, tableIndex, tableCombine, show ¬ W ≤ 8 by omega, Bool.false_eq_true, if_false,
    Except.ok.injEq] at h
  rw [← h, mask_xor, tbl_false, mask_mask, upd_false, show max W 8 = W by omega,
    mask_microLeft_iterate_top_byte (by omega) _ (s ^^^ _), hidx, hrest]

/-- One byte through the built table gives the bitwise engine's state, under `mask` (R202). -/
theorem mask_of_tupd_tbl {v : Word} (hW : W ≤ 64) (h : tupd W RF (tbl W RF poly) s b = .ok v) :
    mask W RF v = mask W RF (upd W RF (normOf W RF poly) s b) := by
  cases RF with
  | true =>
    rw [tupd_tbl_true, Except.ok.injEq] at h
    rw [h]
  | false =>
    rcases Nat.lt_or_ge 8 W with h8 | h8
    · exact mask_of_tupd_tbl_wide h8 hW h
    · exact mask_of_tupd_tbl_narrow h8 h

/-! ### The whole buffer -/

/-- The bytes of a buffer keep the two engines' states equal under `mask`, while each lookup has an entry (R213). -/
theorem mask_of_tupdAll_tbl {c : Word} {d : List Byte} (hW : W ≤ 64) (hst : mask W RF s = mask W RF t)
    (h : tupdAll W RF (tbl W RF poly) s d = .ok c) :
    mask W RF c = mask W RF (d.foldl (upd W RF (normOf W RF poly)) t) := by
  induction d generalizing s t with
  | nil =>
    rw [tupdAll, Except.ok.injEq] at h
    rw [← h, hst, List.foldl_nil]
  | cons b d ih =>
    rw [tupdAll] at h
    cases hv : tupd W RF (tbl W RF poly) s b with
    | error idx => simp [hv] at h
    | ok v =>
      rw [hv] at h
      exact ih ((mask_of_tupd_tbl hW hv).trans (mask_upd_congr hst)) h

/-- On the built table, `tcrc` is `crc` wherever it has a value (R213). -/
theorem crcOf_eq_of_tcrcOf_tbl {iv xo v : Word} {d : List Byte} (hW : W ≤ 64)
    (h : tcrcOf W RF (tbl W RF poly) iv xo d = .ok v) : crcOf W RF poly iv xo d = v := by
  rw [tcrcOf] at h
  cases hc : tupdAll W RF (tbl W RF poly) (normOf W RF iv) d with
  | error idx => simp [hc] at h
  | ok c =>
    rw [hc] at h
    rw [crcOf, fin_eq_mask, ← mask_of_tupdAll_tbl hW rfl hc, ← fin_eq_mask]
    exact Except.ok.inj h

end Engine

/-! ### The two commands -/

section Commands

variable {s t : State} {poly : Word}

/-- A built table reads as the Table Builder's function (R190). -/
theorem State.tableBuiltFor.readEntry (h : s.tableBuiltFor poly) : s.readEntry = tbl s.width s.refl poly := by
  funext i
  rw [State.readEntry, h i, Slot.read_of]

@[simp] theorem State.noteReads_bufferHolds (s : State) (xs : List Source) (d : List Byte) :
    (s.noteReads xs).bufferHolds d ↔ s.bufferHolds d := by
  simp only [State.bufferHolds, State.noteReads_read, State.noteReads_memRead, State.noteReads_addrW]

/-- A one-shot command that does not fault has read a whole buffer, and its walk's state goes to OUT finalized
(R64, R244). -/
theorem State.oneShot_of_not_faulted {word : BitVec 32} {f : Walk → Byte → Except Abort Walk}
    (h : (s.oneShot word f).faulted = false) :
    ∃ d w, s.bufferHolds d ∧
      s.walkBuffer f (s.read .addr).toNat d.length
        { crc := normOf s.width s.refl (s.read .iv), unwritten := s.unwrittenRead } = .ok w ∧
      s.oneShot word f =
        { s with out := Slot.of (fin s.width s.refl (s.read .xorout) w.crc), unwrittenRead := w.unwritten } := by
  unfold State.oneShot at h ⊢
  split at h
  · simp at h
  next hrange =>
  rw [if_neg hrange]
  cases hw : s.walkBuffer f (s.read .addr).toNat (s.read .len).toNat
    { crc := normOf s.width s.refl (s.read .iv), unwritten := s.unwrittenRead } with
  | error e => simp [hw, State.finishWalk_error] at h
  | ok w =>
    obtain ⟨d, hlen, hread⟩ := s.walkBuffer_ok_reads hw
    exact ⟨d, w, ⟨hlen.symm, fun _ => by omega, hread⟩, by rw [hlen, hw], rfl⟩

/-- CRC on a readable buffer writes `crc` to OUT and nothing else (R180, R181). -/
theorem exec_crc_of_bufferHolds {d : List Byte} (hr : s.ready) (hd : s.bufferHolds d) :
    exec .crc s =
      .next { s with
        out := Slot.of (crcOf s.width s.refl (s.read .poly) (s.read .iv) (s.read .xorout) d)
        unwrittenRead := s.recordOf [.poly, .iv, .xorout, .addr, .len] } := by
  have hd' := (s.noteReads_bufferHolds ((commandReads .crc).map .reg) d).mpr hd
  rw [exec_runs (i := .crc) rfl hr hr.2.2, commandBody, State.oneShot_walks _ _ _ hd',
    State.walkBuffer_bitwise _ _ _ _ _ _ _ hd'.2.2, State.finishWalk_ok]
  rfl

/-- A TABLE_CRC that does not fault has read a whole buffer and written its `tcrc` to OUT (R210, R211). -/
theorem exec_tableCrc_of_not_faulted (hr : s.ready) (h : exec .tableCrc s = .next t) (ht : t.faulted = false) :
    ∃ d v u, s.bufferHolds d ∧
      tcrcOf s.width s.refl s.readEntry (s.read .iv) (s.read .xorout) d = .ok v ∧
      t = { s with out := Slot.of v, unwrittenRead := u } := by
  rw [exec_runs (i := .tableCrc) rfl hr hr.2.2, Host.Outcome.next.injEq, commandBody] at h
  rw [← h] at ht
  obtain ⟨d, w, hd, hw, hout⟩ := State.oneShot_of_not_faulted ht
  rw [State.noteReads_bufferHolds] at hd
  rw [State.noteReads_tableStep, State.noteReads_walkBuffer] at hw
  simp only [State.noteReads_read, State.noteReads_width, State.noteReads_refl] at hw
  obtain ⟨hok, herr⟩ := s.walkBuffer_table d (s.read .addr).toNat
    { crc := normOf s.width s.refl (s.read .iv), unwritten := _ } hd.2.2
  refine ⟨d, _, w.unwritten, hd, ?_, h.symm.trans hout⟩
  rw [tcrcOf]
  cases hc : tupdAll s.width s.refl s.readEntry (normOf s.width s.refl (s.read .iv)) d with
  | error idx =>
    obtain ⟨u, hu⟩ := herr idx hc
    rw [hu] at hw
    cases hw
  | ok c =>
    obtain ⟨u, hu⟩ := hok c hc
    rw [hu] at hw
    cases hw
    rfl

end Commands

/-- Settles O52: TABLE_CRC has folded the whole buffer through the built table, so CRC folds the same buffer, and the
Finalizer makes one value of two states that agree under `mask`. -/
theorem tableCrcEqualsCrc : Obligations.TableCrcEqualsCrc := by
  intro s t hr hT ht hf
  obtain ⟨d, v, u, hd, hv, rfl⟩ := exec_tableCrc_of_not_faulted hr ht hf
  rw [hT.readEntry] at hv
  refine ⟨_, exec_crc_of_bufferHolds hr hd, hf, ?_⟩
  exact congrArg Slot.of (crcOf_eq_of_tcrcOf_tbl hr.2.2 hv)

end Sys2Proof.Machine

/-! CMD and CFG as 10_state.md has them: a write of CMD is the command its data encodes (R34), CFG stores a byte
unchecked (R22), and an illegal WIDTH is reported by the next command (R43). -/

namespace Sys2Proof.Machine

section CmdAndCfg

variable {s : State} {i : Instr} {d : Word}

/-! ### Commands that do not reach their own work -/

theorem exec_command_faulted (hi : i.isCommand = true) (hf : s.faulted = true) : exec i s = .next s :=
  (exec_command_eq hi s).trans (withCommand_faulted hf)

theorem State.widthLegal_eq_false_iff (s : State) : s.widthLegal = false ↔ s.width < 1 ∨ 64 < s.width := by
  rw [← Bool.not_eq_true, State.widthLegal_iff]
  omega

/-- Whatever the command, an illegal WIDTH is reported before its own work (R246, R247). -/
theorem exec_command_widthRange (hi : i.isCommand = true) (hf : s.faulted = false)
    (hw : s.width < 1 ∨ 64 < s.width) : exec i s = .next (s.raiseFault .widthRange (commandWord i) 0#64) :=
  (exec_command_eq hi s).trans (withCommand_widthRange hf (s.widthLegal_eq_false_iff.mpr hw))

/-! ### Host accesses to CMD and CFG -/

theorem execWr_faulted (z : AccessSize) (off : Offset) (d : Word) (hf : s.faulted = true) :
    execWr z off d s = .next s := if_pos hf

/-- A CMD write of a legal command word is that command, while FAULT = 1 too (R34, R245). -/
theorem execWr_cmd_eq_exec (h : decodeCommand d = .ok i) : execWr .eight cmdOffset d s = exec i s := by
  have hi := decodeCommand_isCommand h
  cases hf : s.faulted with
  | false => exact execWr_cmd_ok hf h hi
  | true => rw [execWr_faulted _ _ _ hf, exec_command_faulted hi hf]

/-- No read of CMD is admitted, whatever its size (R34, R62). -/
theorem admitted_cmd_read (z : AccessSize) : admitted z cmdOffset .read = none := by
  cases z <;> decide

theorem execRd_refused {z : AccessSize} {off : Offset} (hf : s.faulted = false)
    (h : admitted z off .read = none) :
    execRd z off s = .next ((s.raiseFault .badAccess 0#32 (off.setWidth 64)).observe 0#64) := by
  simp [execRd, h, hf]

theorem execWr_cfg (hf : s.faulted = false) : execWr .eight 0x000#12 d s = .next { s with cfg := d &&& 0xFF#64 } := by
  have ha : admitted .eight 0x000#12 .write = some .cfg := by decide
  simp [execWr, hf, ha]

/-- WIDTH as CFG holds it after a write: bits [6:0] of the data (R21, R22). -/
theorem State.width_of_cfg (s : State) (d : Word) :
    { s with cfg := d &&& 0xFF#64 }.width = (d &&& 0x7F#64).toNat := by
  have h8 : (d &&& 0xFF#64).toNat = d.toNat % 2 ^ 8 := Nat.and_two_pow_sub_one_eq_mod d.toNat 8
  have h7 : (d &&& 0x7F#64).toNat = d.toNat % 2 ^ 7 := Nat.and_two_pow_sub_one_eq_mod d.toNat 7
  rw [State.width, BitVec.extractLsb'_toNat, h8, h7, Nat.shiftRight_zero]
  omega

/-- STATUS after a fault of a CMD write: the low half of the data is FCMD (R240, R243). -/
theorem statusWord_low (d : Word) (c : FaultCode) :
    statusWord (d.extractLsb' 0 32) c = (d <<< 32) ||| BitVec.ofNat 64 (256 * c.number.toNat + 1) := by
  have h : (d.extractLsb' 0 32).setWidth 64 <<< 32 = d <<< 32 := by
    apply BitVec.eq_of_getLsbD_eq
    intro j hj
    by_cases h32 : j < 32
    · simp [h32]
    · simp [hj, show j - 32 < 32 by omega, show j - 32 < 64 by omega]
  rw [statusWord_eq, h]

end CmdAndCfg

/-- Settles O11: a legal word is a command, whose prologue raises WIDTH_RANGE; an illegal word is ILLEGAL_CMD at any
WIDTH. -/
theorem everyCommandFaultsUntilCfgIsLegal : Obligations.EveryCommandFaultsUntilCfgIsLegal := by
  refine ⟨by decide, fun s d hf hw => ?_⟩
  rw [exec_wr, ← cmdOffset]
  cases hd : decodeCommand d with
  | ok i =>
    rw [execWr_cmd_eq_exec hd, exec_command_widthRange (decodeCommand_isCommand hd) hf hw,
      commandWord_of_decodeCommand hd, State.raiseFault, statusWord_low]
    rfl
  | error e =>
    rw [execWr_cmd_error hf hd, State.raiseFault, statusWord_low]
    rfl

/-- Settles O7: a write is the command in every state, and a read is refused at every size. -/
theorem cmdWriteStartsItsCommandAndCmdReadIsRefused : Obligations.CmdWriteStartsItsCommandAndCmdReadIsRefused :=
  fun _ => ⟨fun _ _ h => execWr_cmd_eq_exec h, fun z hf => execRd_refused hf (admitted_cmd_read z)⟩

/-- Settles O23: the write keeps STATUS, so the command after it meets the stored WIDTH with FAULT = 0. -/
theorem cfgWriteStoresTheLowByte : Obligations.CfgWriteStoresTheLowByte := by
  intro s d hf
  refine ⟨execWr_cfg hf, fun t i ht hi hw => ?_⟩
  rw [exec_wr, execWr_cfg hf] at ht
  cases ht
  refine exec_command_widthRange hi hf ?_
  rw [State.width_of_cfg]
  bv_omega

end Sys2Proof.Machine

/-! The data buffer of the one-shot commands as 20_memory.md has it: DATA_RANGE before the first read where the buffer
passes the top of DMEM (R64), and the first refused byte inside it (R63). -/

namespace Sys2Proof.Machine

section DataBuffer

variable {s : State} {word : BitVec 32} {f : Walk → Byte → Except Abort Walk} {w x : Walk} {e : Abort} {a m n : Nat}

/-! ### A walk cut in two -/

/-- Folding `m + n` bytes is folding the first `m` and going on from there (R247 step 8). -/
theorem State.walkBuffer_add (s : State) (f : Walk → Byte → Except Abort Walk) (a m n : Nat) (w : Walk) :
    s.walkBuffer f a (m + n) w = s.walkBuffer f a m w >>= s.walkBuffer f (a + m) n := by
  induction m generalizing a w with
  | zero => rw [Nat.zero_add]; rfl
  | succ m ih =>
    rw [show m + 1 + n = (m + n) + 1 by omega, State.walkBuffer, State.walkBuffer]
    cases s.memRead a with
    | none => rfl
    | some b =>
      simp only
      cases f w b with
      | error e => rfl
      | ok w' => rw [show a + (m + 1) = a + 1 + m by omega]; exact ih (a + 1) w'

/-- A walk that ends early in its first `m` bytes ends the same way however many follow. -/
theorem State.walkBuffer_error_mono (hm : m ≤ n) (h : s.walkBuffer f a m w = .error e) :
    s.walkBuffer f a n w = .error e := by
  rw [← Nat.add_sub_of_le hm, State.walkBuffer_add, h]
  rfl

/-- A walk that folds its first `m` bytes and cannot read the next one is DATA_READ there, with the record as the
first `m` left it (R63). -/
theorem State.walkBuffer_refused (hm : m < n) (h : s.walkBuffer f a m w = .ok x) (href : s.memRead (a + m) = none) :
    s.walkBuffer f a n w =
      .error { code := .dataRead, faddr := BitVec.ofNat 64 (a + m), unwritten := x.unwritten } := by
  obtain ⟨k, rfl⟩ := Nat.exists_eq_add_of_lt hm
  rw [Nat.add_assoc, State.walkBuffer_add, h]
  change s.walkBuffer f (a + m) (k + 1) x = _
  rw [State.walkBuffer, href]

/-- A table walk that raises TABLE_INDEX records an index above 255 (R200, R240). -/
theorem State.walkBuffer_tableIndex_gt (h : s.walkBuffer s.tableStep a n w = .error e) (he : e.code = .tableIndex) :
    255 < e.faddr.toNat := by
  rcases State.walkBuffer_error h with ⟨k, -, -, hc, -⟩ | ⟨d, b, x, -, -, -, hx⟩
  · rw [hc] at he
    cases he
  · exact (State.tableStep_error hx).2.1

/-! ### The one-shot commands' own work -/

/-- A buffer that passes the top of DMEM is refused before any of its bytes is read (R64). -/
theorem State.oneShot_past_top (hl : 0 < (s.read .len).toNat)
    (ht : 2 ^ s.addrW < (s.read .addr).toNat + (s.read .len).toNat) :
    s.oneShot word f = s.raiseFault .dataRange word (s.read .addr) :=
  if_pos ⟨hl, ht⟩

/-- Inside the address space, the fault of the walk is the command's fault (R64, R244). -/
theorem State.oneShot_of_walk_error (hb : s.bufferInRange)
    (hw : s.walkBuffer f (s.read .addr).toNat (s.read .len).toNat
      { crc := normOf s.width s.refl (s.read .iv), unwritten := s.unwrittenRead } = .error e) :
    s.oneShot word f = { s with unwrittenRead := e.unwritten }.raiseFault e.code word e.faddr := by
  rw [State.bufferInRange] at hb
  rw [State.oneShot, if_neg (by omega), hw, State.finishWalk_error]

/-- What CRC and TABLE_CRC do with each byte of their buffer (R181, R211); no other command walks one. -/
def State.oneShotStep (s : State) : Instr → Walk → Byte → Except Abort Walk
  | .crc => bitwiseStep s.width s.refl (normOf s.width s.refl (s.read .poly))
  | _ => s.tableStep

theorem State.noteReads_oneShotStep (s : State) (xs : List Source) (i : Instr) :
    (s.noteReads xs).oneShotStep i = s.oneShotStep i := by
  cases i with
  | crc => rfl
  | _ => exact s.noteReads_tableStep xs

/-! ### The commands -/

section Commands

variable {i : Instr} {t : State}

/-- A ready one-shot command reads its registers and then does its walk under its own command word (R247). -/
theorem exec_oneShot (hi : i = .crc ∨ i = .tableCrc) (hr : s.ready) :
    exec i s =
      .next ((s.noteReads ((commandReads i).map .reg)).oneShot (commandWord i) (s.oneShotStep i)) := by
  rw [← s.noteReads_oneShotStep ((commandReads i).map .reg)]
  rcases hi with rfl | rfl <;> exact exec_runs rfl hr hr.2.2

/-- A one-shot command on a buffer that passes the top of DMEM is DATA_RANGE at ADDR, once its registers are read
(R64, R247). -/
theorem exec_oneShot_past_top (hi : i = .crc ∨ i = .tableCrc) (hr : s.ready) (hl : 0 < (s.read .len).toNat)
    (ht : 2 ^ s.addrW < (s.read .addr).toNat + (s.read .len).toNat) :
    exec i s =
      .next { s with
        status := statusWord (commandWord i) .dataRange
        faddr := s.read .addr
        unwrittenRead := s.recordOf (commandReads i) } := by
  rw [exec_oneShot hi hr, State.oneShot_past_top (by simpa using hl) (by simpa using ht), State.noteReads_read]
  rfl

/-- Inside the address space, a one-shot command takes the fault of its walk, which starts with the record of its
register reads (R64, R247). -/
theorem exec_oneShot_of_walk_error {c : FaultCode} {v : Word} {u : Option Source} (hi : i = .crc ∨ i = .tableCrc)
    (hr : s.ready) (hb : s.bufferInRange)
    (hw : s.walkBuffer (s.oneShotStep i) (s.read .addr).toNat (s.read .len).toNat
      { crc := normOf s.width s.refl (s.read .iv), unwritten := s.recordOf (commandReads i) } =
        .error { code := c, faddr := v, unwritten := u }) :
    exec i s = .next { s with status := statusWord (commandWord i) c, faddr := v, unwrittenRead := u } := by
  rw [exec_oneShot hi hr, State.oneShot_of_walk_error (e := { code := c, faddr := v, unwritten := u })]
  · rfl
  · exact hb
  · rw [State.noteReads_walkBuffer]
    exact hw

theorem FaultCode.eq_dataRange_of_number {c : FaultCode} (h : c.number = FaultCode.dataRange.number) :
    c = .dataRange := by
  revert h
  cases c <;> decide

/-- No command raises DATA_RANGE on a buffer inside the address space (R64). -/
theorem exec_command_fcode_ne_dataRange (hi : i.isCommand = true) (hr : s.ready) (hb : s.bufferInRange)
    (h : exec i s = .next t) (hf : t.faulted = true) : t.fcode ≠ FaultCode.dataRange.number := by
  rcases exec_command_cases hi h with ⟨hs, -⟩ | ⟨-, c, a, u, hc, -, rfl⟩ | ⟨-, hres⟩
  · rw [hr.1] at hs
    cases hs
  · rw [State.fcode, State.raiseFault_status, statusWord_fcode]
    intro hn
    obtain rfl := FaultCode.eq_dataRange_of_number hn
    obtain ⟨-, -, hl, ht⟩ := hc
    rw [State.bufferInRange] at hb
    omega
  · have hs : t.faulted = s.faulted := by
      rcases hres with ⟨v, u, rfl, -⟩ | ⟨v, u, rfl, -⟩ | ⟨v, u, rfl, -⟩ | ⟨T, u, rfl, -⟩ <;> rfl
    rw [hs, hr.1] at hf
    cases hf

end Commands

end DataBuffer

/-- Settles O42: past the top the range check stops the command; a buffer inside DMEM gives no fault of a command the
code DATA_RANGE. -/
theorem bufferPastTheTopIsDataRange : Obligations.BufferPastTheTopIsDataRange := by
  intro i w rs s hi hr
  have hio : i = .crc ∨ i = .tableCrc := hi.imp And.left And.left
  refine ⟨fun hl ht => ?_, fun hb t h hf => ?_⟩
  · rw [exec_oneShot_past_top hio hr hl ht]
    rcases hi with ⟨rfl, rfl, rfl⟩ | ⟨rfl, rfl, rfl⟩ <;> rfl
  · have hc : i.isCommand = true := by rcases hio with rfl | rfl <;> rfl
    exact exec_command_fcode_ne_dataRange hc hr hb h hf

/-- Settles O43: the walk over the readable bytes ends well, and the next byte refuses, or it raises the first
TABLE_INDEX, and the walk over the whole buffer ends there too. -/
theorem firstRefusedByteIsDataRead : Obligations.FirstRefusedByteIsDataRead := by
  intro s d hr ⟨hle, hread⟩ hlt hb href
  have hcrcRead : statusWord (commandWord .crc) .dataRead = 0x0600000000000601#64 := by decide
  have htableRead : statusWord (commandWord .tableCrc) .dataRead = 0x0900000000000601#64 := by decide
  have htableIndex : statusWord (commandWord .tableCrc) .tableIndex = 0x0900000000000401#64 := by decide
  obtain ⟨hok, herr⟩ := s.walkBuffer_table d (s.read .addr).toNat
    { crc := normOf s.width s.refl (s.read .iv), unwritten := s.recordOf (commandReads .tableCrc) } hread
  refine ⟨?_, ?_, fun idx hidx => ?_, fun ha => ?_⟩
  · have hcrc := s.walkBuffer_bitwise s.width s.refl (normOf s.width s.refl (s.read .poly)) d _
      { crc := normOf s.width s.refl (s.read .iv), unwritten := s.recordOf (commandReads .crc) } hread
    rw [exec_oneShot_of_walk_error (.inl rfl) hr hb (State.walkBuffer_refused hlt hcrc href), hcrcRead]
    rfl
  · rintro ⟨c, hc⟩
    obtain ⟨u, hu⟩ := hok c hc
    refine ⟨u, ?_⟩
    rw [exec_oneShot_of_walk_error (.inr rfl) hr hb (State.walkBuffer_refused hlt hu href), htableRead]
  · obtain ⟨u, hu⟩ := herr idx hidx
    refine ⟨State.walkBuffer_tableIndex_gt hu rfl, u, ?_⟩
    rw [exec_oneShot_of_walk_error (.inr rfl) hr hb (State.walkBuffer_error_mono hle hu), htableIndex]
  · have htop : 2 ^ s.addrW ≤ 2 ^ 64 := Nat.pow_le_pow_right (by decide) ha
    rw [State.bufferInRange] at hb
    rw [BitVec.toNat_ofNat, Nat.mod_eq_of_lt (by omega)]

end Sys2Proof.Machine

/-! The encodings as 30_encoding.md has them: a command's word is the only one that encodes it (R93), the words that
encode no command (R96), and the transactions that are refused (R97). -/

namespace Sys2Proof.Machine

section CommandWords

variable {w : BitVec 32} {opc imm : Byte} {d : Word} {i : Instr}

/-! ### The opcode map -/

/-- Only a command's own word encodes it (R93). -/
theorem decodeCommand_setWidth_eq_ok :
    decodeCommand (w.setWidth 64) = .ok i ↔ i.isCommand = true ∧ w = commandWord i := by
  have hw : w.setWidth 64 = (commandWord i).setWidth 64 ↔ w = commandWord i := by
    refine ⟨fun h => ?_, congrArg _⟩
    simpa using congrArg (BitVec.setWidth 32) h
  rw [decodeCommand_eq_ok, hw]

/-- A command word without an immediate is `w & 0xFFFFFFFF` (R93). -/
theorem and_commandMask (w : BitVec 32) : w &&& 0xFFFFFFFF#32 = w := BitVec.and_allOnes

/-- The mask of the two commands with an immediate keeps all but the low byte (R93). -/
theorem and_immediateMask (hi : BitVec 24) (lo : Byte) : (hi ++ lo) &&& 0xFFFFFF00#32 = hi ++ 0#8 := by
  have hmask : 0xFFFFFF00#32 = BitVec.allOnes 24 ++ 0#8 := rfl
  rw [hmask, BitVec.and_append, BitVec.and_allOnes, BitVec.and_zero]

/-- A word is put together from OPC and IMM8 exactly when IMM8 is its low byte and OPC stands above it, with RSV = 0
(R91, R93). -/
theorem eq_commandWordOf_iff :
    w = commandWordOf opc imm ↔ imm = w.extractLsb' 0 8 ∧ w &&& 0xFFFFFF00#32 = commandWordOf opc 0#8 := by
  have hw : w.extractLsb' 8 24 ++ w.extractLsb' 0 8 = w :=
    (BitVec.extractLsb'_append_extractLsb'_eq_extractLsb' rfl).trans BitVec.extractLsb'_eq_self
  generalize w.extractLsb' 8 24 = hi, w.extractLsb' 0 8 = lo at hw
  subst hw
  rw [commandWordOf, commandWordOf, and_immediateMask, BitVec.append_left_inj]
  constructor
  · intro h
    have hlo : lo = imm :=
      calc lo = BitVec.extractLsb' 0 8 (hi ++ lo) := BitVec.extractLsb'_append_eq_right.symm
        _ = BitVec.extractLsb' 0 8 (opc ++ 0#16 ++ imm) := congrArg _ h
        _ = imm := BitVec.extractLsb'_append_eq_right
    subst hlo
    exact ⟨rfl, (BitVec.append_left_inj lo).mp h⟩
  · rintro ⟨rfl, rfl⟩
    rfl

/-! ### The illegal words -/

/-- A field of `n` bits at bit `k`, cut out by a shift and a mask (R91). -/
theorem toNat_shift_mask (d : Word) (k n : Nat) (hn : n ≤ 32) :
    (d >>> k &&& BitVec.ofNat 64 (2 ^ n - 1)).toNat = (d.extractLsb' k n).toNat := by
  have : 2 ^ n ≤ 2 ^ 32 := Nat.pow_le_pow_right (by decide) hn
  rw [BitVec.toNat_and, BitVec.toNat_ofNat, Nat.mod_eq_of_lt (by omega), Nat.and_two_pow_sub_one_eq_mod,
    BitVec.extractLsb'_toNat, BitVec.toNat_ushiftRight]

/-- The opcodes that stand in no row (R93, R96). -/
theorem opcodeMap_eq_none_iff : opcodeMap opc imm = none ↔ opc.toNat = 0 ∨ 0x0F ≤ opc.toNat := by
  unfold opcodeMap
  split
  case h_15 => simp_all; omega
  all_goals simp [*]

/-- The four checks of command decoding (R92). -/
theorem decodeCommand_eq_error_iff :
    (∃ e, decodeCommand d = .error e) ↔
      d.extractLsb' 32 32 ≠ 0#32 ∨ opcodeMap (d.extractLsb' 24 8) (d.extractLsb' 0 8) = none ∨
      d.extractLsb' 8 16 ≠ 0#16 ∨
      (d.extractLsb' 24 8 ≠ 0x04#8 ∧ d.extractLsb' 24 8 ≠ 0x08#8 ∧ d.extractLsb' 0 8 ≠ 0#8) := by
  unfold decodeCommand
  split
  · next h32 => simp [h32]
  next h32 =>
  split
  · next hm => simp [hm]
  next j hm =>
  split
  · next hr => simp [hr]
  next hr =>
  split
  · next hi => simp [hi]
  next hi => simp_all

/-- R96's five grounds as the decoder's checks. -/
theorem illegalCommandData_iff : illegalCommandData d ↔ ∃ e, decodeCommand d = .error e := by
  have hopc : (d >>> 24 &&& 0xFF#64).toNat = (d.extractLsb' 24 8).toNat := toNat_shift_mask d 24 8 (by decide)
  have hrsv : (d >>> 8 &&& 0xFFFF#64).toNat = (d.extractLsb' 8 16).toNat := toNat_shift_mask d 8 16 (by decide)
  have himm : (d &&& 0xFF#64).toNat = (d.extractLsb' 0 8).toNat := toNat_shift_mask d 0 8 (by decide)
  have hhigh : (d >>> 32).toNat = (d.extractLsb' 32 32).toNat := by
    rw [BitVec.extractLsb'_toNat, BitVec.toNat_ushiftRight]
    omega
  rw [decodeCommand_eq_error_iff, opcodeMap_eq_none_iff, illegalCommandData]
  simp only [ne_eq, ← BitVec.toNat_inj, hopc, hrsv, himm, hhigh, BitVec.toNat_ofNat]
  omega

end CommandWords

/-- Settles O2: each command has one word, whose opcode is its row's. -/
theorem opcodeMapMatchesMaskAndMatch : Obligations.OpcodeMapMatchesMaskAndMatch := by
  intro w i
  rw [decodeCommand_setWidth_eq_ok]
  simp only [and_commandMask]
  cases i with
  | update b | tableUpdate b =>
    rw [commandWord, eq_commandWordOf_iff]
    simp [Instr.isCommand, commandWordOf]
  | wr _ _ _ | rd _ _ => simp [Instr.isCommand]
  | _ => simp [Instr.isCommand, commandWord, commandWordOf]

/-- Settles O3: R96's grounds are the decoder's, and FCMD is the low half of the data. -/
theorem illegalCommandWordsRaiseIllegalCmd : Obligations.IllegalCommandWordsRaiseIllegalCmd := by
  refine ⟨fun d => illegalCommandData_iff.symm, fun s d hf hd => ?_⟩
  obtain ⟨e, he⟩ := illegalCommandData_iff.mp hd
  rw [exec_wr, ← cmdOffset, execWr_cmd_error hf he, State.raiseFault, statusWord_low]
  rfl

section Refusal

variable {s t : State} {z : AccessSize} {off : Offset} {d : Word} {i : Instr} {p : Place}

/-! ### The accesses that are not admitted -/

/-- Among the aligned offsets only the hole below the table is unmapped (R61). -/
theorem placeAt_eq_none_iff (ha : off.toNat % 8 = 0) :
    placeAt off = none ↔ 0x068 ≤ off.toNat ∧ off.toNat < 0x800 := by
  unfold placeAt
  split
  case h_14 => simp_all; omega
  all_goals simp [*]

/-- An access is not admitted because of its size or offset, or because its place refuses the direction (R62). -/
theorem admitted_eq_none_iff {dir : Direction} :
    admitted z off dir = none ↔ badPlace z off ∨ ∃ p, off = placeOffset p ∧ p.allows dir = false := by
  by_cases hc : z = .eight ∧ off.toNat % 8 = 0
  · have hbad : badPlace z off ↔ placeAt off = none := by simp [badPlace, placeAt_eq_none_iff hc.2, hc]
    rw [admitted, if_pos hc, hbad]
    cases hp : placeAt off with
    | none => simp
    | some p => simp [← placeAt_eq_some, hp]
  · have hbad : badPlace z off := by
      rw [badPlace]
      tauto
    rw [admitted, if_neg hc]
    simp [hbad]

/-- No write of OUT, STATUS and FADDR is allowed (R20). -/
theorem allows_write_eq_false_iff :
    p.allows .write = false ↔ p = .reg .out ∨ p = .status ∨ p = .faddr := by
  cases p with
  | reg r => cases r <;> simp [Place.allows]
  | _ => simp [Place.allows]

/-- No read of CMD is allowed (R20, R34). -/
theorem allows_read_eq_false_iff : p.allows .read = false ↔ p = .cmd := by
  cases p with
  | reg r => cases r <;> simp [Place.allows]
  | _ => simp [Place.allows]

/-- The writes that are not admitted are those of R97. -/
theorem admitted_write_eq_none_iff : admitted z off .write = none ↔ refusedWrite z off := by
  simp [admitted_eq_none_iff, allows_write_eq_false_iff, refusedWrite, and_or_left, exists_or, placeOffset, regOffset]

/-- The reads that are not admitted are those of R97. -/
theorem admitted_read_eq_none_iff : admitted z off .read = none ↔ refusedRead z off := by
  simp [admitted_eq_none_iff, allows_read_eq_false_iff, refusedRead, placeOffset]

/-! ### BAD_ACCESS -/

theorem execWr_refused (hf : s.faulted = false) (h : admitted z off .write = none) :
    execWr z off d s = .next (s.raiseFault .badAccess 0#32 (off.setWidth 64)) := by
  simp [execWr, h, hf]

/-- STATUS and FADDR as BAD_ACCESS leaves them (R32, R240). -/
theorem State.raiseFault_badAccess (s : State) (a : Word) :
    s.raiseFault .badAccess 0#32 a = { s with status := 0x701#64, faddr := a } := by
  have hs : statusWord 0#32 .badAccess = 0x701#64 := by decide
  rw [State.raiseFault, hs]

/-- A command that runs to its end leaves FAULT as it was (R40). -/
theorem commandResult_faulted (h : commandResult i s t) : t.faulted = s.faulted := by
  rcases h with ⟨v, u, rfl, -⟩ | ⟨v, u, rfl, -⟩ | ⟨v, u, rfl, -⟩ | ⟨T, u, rfl, -⟩ <;> rfl

/-- The fault codes' numbers are distinct (R240). -/
theorem FaultCode.number_injective : Function.Injective FaultCode.number := by
  intro c c'
  cases c <;> cases c' <;> decide

/-- No command raises BAD_ACCESS (R241). -/
theorem exec_command_fcode_ne_badAccess (hi : i.isCommand = true) (hf : s.faulted = false)
    (h : exec i s = .next t) (ht : t.faulted = true) : t.fcode ≠ FaultCode.badAccess.number := by
  rcases exec_command_cases hi h with ⟨hs, -⟩ | ⟨-, c, a, u, hc, -, rfl⟩ | ⟨-, hres⟩
  · simp [hf] at hs
  · rw [State.fcode, State.raiseFault_status, statusWord_fcode]
    intro hn
    obtain rfl := FaultCode.number_injective hn
    exact hc
  · simp [commandResult_faulted hres, hf] at ht

/-- A host write that ends in BAD_ACCESS was not admitted (R97, R241). -/
theorem execWr_badAccess (hf : s.faulted = false) (h : execWr z off d s = .next t) (ht : t.faulted = true)
    (hc : t.fcode = FaultCode.badAccess.number) : admitted z off .write = none := by
  rcases execWr_cases h with ⟨hs, -⟩ | ⟨-, ha, -⟩ | ⟨-, -, ⟨-, rfl⟩ | ⟨r, -, -, rfl⟩ | ⟨j, -, rfl⟩ |
    ⟨-, e, -, rfl⟩ | ⟨-, i, -, hi, hx⟩⟩
  · simp [hf] at hs
  · exact ha
  · cases hf.symm.trans ht
  · simp [hf] at ht
  · simp [hf] at ht
  · simp [State.fcode, FaultCode.number] at hc
  · exact absurd hc (exec_command_fcode_ne_badAccess hi hf hx ht)

/-- A host read with FAULT = 0 that ends with FAULT = 1 was not admitted (R97, R241). -/
theorem execRd_faults (hf : s.faulted = false) (h : execRd z off s = .next t) (ht : t.faulted = true) :
    admitted z off .read = none := by
  rcases execRd_cases h with ⟨ha, -, -⟩ | ⟨ha, -, -⟩ | ⟨p, -, rfl⟩
  · exact ha
  · exact ha
  · simp [hf] at ht

end Refusal

/-- Settles O22: BAD_ACCESS comes of the accesses that are not admitted and of no other, and those are the listed
ones. -/
theorem illegalTransactionsAreExactlyRefused : Obligations.IllegalTransactionsAreExactlyRefused := by
  intro s z off hf
  refine ⟨fun d => ?_, ?_⟩
  · rw [exec_wr, ← admitted_write_eq_none_iff, ← State.raiseFault_badAccess]
    exact ⟨fun h => execWr_badAccess hf h (s.raiseFault_faulted ..) (statusWord_fcode ..), execWr_refused hf⟩
  · rw [exec_rd, ← admitted_read_eq_none_iff]
    refine ⟨fun h => execRd_faults hf h (by simp [State.faulted]), fun h => ?_⟩
    rw [execRd_refused hf h, State.raiseFault_badAccess]
    rfl

end Sys2Proof.Machine

/-! The reflector as 41_reflector.md has it: a lane's shift leaves the reversal of the low W bits (R131), so the five
commands write one function of VALUE to OUT (R132 to R136), whose laws are read off its bits (R138). -/

namespace Sys2Proof.Machine

section Reflector

variable {S W : Nat} {v u d : Word} {s : State} {i : Instr}

/-! ### The function -/

/-- The reversal of the low W bits, bit by bit (R13, R130). -/
theorem reflect_getLsbD (hW : W ≤ 64) (v : Word) (j : Nat) :
    (reflect W v).getLsbD j = (decide (j < W) && v.getLsbD (W - 1 - j)) :=
  rev_getLsbD W v j hW

/-- Which lane reverses the bits is not observable (R131). -/
theorem laneReflect_eq_reflect (hS : S ≤ 64) (hW : W ≤ S) (v : Word) : laneReflect S W v = reflect W v := by
  apply BitVec.eq_of_getLsbD_eq
  intro j _
  rw [laneReflect, BitVec.getLsbD_ushiftRight, rev_getLsbD S _ _ hS, BitVec.getLsbD_and, lowmask_getLsbD,
    reflect_getLsbD (by omega)]
  by_cases hj : j < W
  · have hbit : S - 1 - (S - W + j) = W - 1 - j := by omega
    simp [hj, hbit, show S - W + j < S by omega, show W - 1 - j < S ∧ W - 1 - j < 64 by omega]
  · simp [hj, show ¬ S - W + j < S by omega]

/-- Reflecting twice keeps the low W bits (R138 (1)). -/
theorem reflect_reflect (hW : W ≤ 64) (v : Word) : reflect W (reflect W v) = v &&& lowmask W := by
  apply BitVec.eq_of_getLsbD_eq
  intro j hj64
  rw [reflect_getLsbD hW, reflect_getLsbD hW, BitVec.getLsbD_and, lowmask_getLsbD]
  by_cases hj : j < W
  · have hbit : W - 1 - (W - 1 - j) = j := by omega
    simp [hj, hj64, hbit, show W - 1 - j < W by omega]
  · simp [hj]

/-- The reversal fits the low W bits (R138 (2)). -/
theorem reflect_toNat_lt (hW : W ≤ 64) (v : Word) : (reflect W v).toNat < 2 ^ W := by
  refine Nat.lt_pow_two_of_testBit _ fun j hj => ?_
  rw [← BitVec.getLsbD, reflect_getLsbD hW]
  simp [Nat.not_lt.mpr hj]

/-- Reflection is linear over XOR (R138 (4)). -/
theorem reflect_xor (hW : W ≤ 64) (v u : Word) : reflect W (v ^^^ u) = reflect W v ^^^ reflect W u := by
  apply BitVec.eq_of_getLsbD_eq
  intro j _
  simp only [reflect_getLsbD hW, BitVec.getLsbD_xor, Bool.and_xor_distrib_left]

/-! ### The commands -/

/-- The commands of the reflector (R132 to R136). -/
def isReflector (i : Instr) : Prop :=
  i = .reflect ∨ i = .reflect8 ∨ i = .reflect16 ∨ i = .reflect32 ∨ i = .reflect64

/-- Within its lane, every command of the reflector writes the one reversal of VALUE to OUT (R131 to R136). -/
theorem exec_reflector (hi : isReflector i) (hr : s.ready) (hl : s.width ≤ commandLane i) :
    exec i s =
      .next { s with out := Slot.of (reflect s.width (s.read .value)), unwrittenRead := s.recordOf [.value] } := by
  rcases hi with rfl | rfl | rfl | rfl | rfl
  · exact exec_runs rfl hr hl
  all_goals
    rw [← laneReflect_eq_reflect (by decide) hl]
    exact exec_runs rfl hr hl

/-- A command whose lane W exceeds is LANE_WIDTH (R133 to R135, R247). -/
theorem exec_command_laneWidth (hi : i.isCommand = true) (hr : s.ready) (hl : commandLane i < s.width) :
    exec i s = .next (s.raiseFault .laneWidth (commandWord i) 0#64) :=
  (exec_command_eq hi s).trans (withCommand_laneWidth hr hl)

/-- The fault of a command as STATUS and FADDR show it, FCMD being the data that encodes it (R240, R243). -/
theorem State.raiseFault_of_decodeCommand (h : decodeCommand d = .ok i) (s : State) (c : FaultCode) (a : Word) :
    s.raiseFault c (commandWord i) a =
      { s with status := (d <<< 32) ||| BitVec.ofNat 64 (256 * c.number.toNat + 1), faddr := a } := by
  rw [State.raiseFault, commandWord_of_decodeCommand h, statusWord_low]

/-- The command that a word encodes, where WIDTH is illegal (R246). -/
theorem exec_widthRange_of_decodeCommand (h : decodeCommand d = .ok i) (hf : s.faulted = false)
    (hw : s.width < 1 ∨ 64 < s.width) :
    exec i s = .next { s with status := (d <<< 32) ||| 0x201#64, faddr := 0#64 } := by
  rw [exec_command_widthRange (decodeCommand_isCommand h) hf hw, State.raiseFault_of_decodeCommand h]
  rfl

/-- The command that a word encodes, where W is above its lane (R133 to R135). -/
theorem exec_laneWidth_of_decodeCommand (h : decodeCommand d = .ok i) (hr : s.ready) (hl : commandLane i < s.width) :
    exec i s = .next { s with status := (d <<< 32) ||| 0x301#64, faddr := 0#64 } := by
  rw [exec_command_laneWidth (decodeCommand_isCommand h) hr hl, State.raiseFault_of_decodeCommand h]
  rfl

end Reflector

/-- Settles O28: a lane's shifted reversal is `reflect`, and the prologue raises the two faults. -/
theorem laneCommandsReverseWithinTheirLane : Obligations.LaneCommandsReverseWithinTheirLane := by
  intro i S w hi
  obtain ⟨hdec, hrefl, rfl⟩ : decodeCommand w = .ok i ∧ isReflector i ∧ S = commandLane i := by
    rcases hi with ⟨rfl, rfl, rfl⟩ | ⟨rfl, rfl, rfl⟩ | ⟨rfl, rfl, rfl⟩ | ⟨rfl, rfl, rfl⟩ <;>
      exact ⟨by decide, by simp [isReflector], rfl⟩
  exact ⟨hdec, fun s hr hl => ⟨_, exec_reflector hrefl hr hl, fun j _ => reflect_getLsbD hr.2.2 _ j⟩,
    fun s hr hl => exec_laneWidth_of_decodeCommand hdec hr hl,
    fun s hf hw => exec_widthRange_of_decodeCommand hdec hf hw⟩

/-- Settles O29: the laws of `reflect` bit by bit; lane independence because every command writes `reflect`. -/
theorem reflectorLaws : Obligations.ReflectorLaws := by
  refine ⟨fun W v _ hW => ⟨reflect_reflect hW v, reflect_toNat_lt hW v, reflect_xor hW v⟩, ?_⟩
  intro s t u i S hi hr hl ht hu
  obtain ⟨hrefl, rfl⟩ : isReflector i ∧ S = commandLane i := by
    rcases hi with ⟨rfl, rfl⟩ | ⟨rfl, rfl⟩ | ⟨rfl, rfl⟩ | ⟨rfl, rfl⟩ <;> simp [isReflector, commandLane]
  rw [exec_reflector (.inl rfl) hr hr.2.2] at ht
  rw [exec_reflector hrefl hr hl] at hu
  cases ht
  cases hu
  rfl

/-- Settles O27: REFLECT writes `reflect` in the widest lane, and the prologue raises WIDTH_RANGE. -/
theorem reflectReversesTheLowBits : Obligations.ReflectReversesTheLowBits := by
  have hdec : decodeCommand 0x01000000#64 = .ok .reflect := by decide
  exact ⟨hdec, fun s hr => ⟨_, exec_reflector (.inl rfl) hr hr.2.2, fun j _ => reflect_getLsbD hr.2.2 _ j⟩,
    fun s hf hw => exec_widthRange_of_decodeCommand hdec hf hw⟩

end Sys2Proof.Machine

/-! The normalizer as 42_normalizer.md has it: `norm` has three arms (R150), its laws are read off them (R153), and
SETUP_POLY and SETUP_STATE write `norm` of POLY to NPOLY and of IV to STATE (R151, R152). -/

namespace Sys2Proof.Machine

section Normalizer

variable {W : Nat} {v : Word} {s : State}

/-! ### The three arms -/

theorem normOf_true (W : Nat) (v : Word) : normOf W true v = reflect W v := rfl

theorem normOf_false_of_lt (hW : W < 8) (v : Word) : normOf W false v = v <<< (8 - W) := by
  simp [normOf, hW]

theorem normOf_false_toNat (hW : W < 8) (v : Word) :
    (normOf W false v).toNat = v.toNat * 2 ^ (8 - W) % 2 ^ 64 := by
  rw [normOf_false_of_lt hW, BitVec.toNat_shiftLeft, Nat.shiftLeft_eq]

theorem normOf_false_of_ge (hW : 8 ≤ W) (v : Word) : normOf W false v = v := by
  simp [normOf, Nat.not_lt.mpr hW]

/-- `norm` arm by arm, as bits and numbers (R150). -/
theorem normOf_arms (hW : W ≤ 64) (RF : Bool) (v : Word) :
    (RF = true → ∀ j < 64, (normOf W RF v).getLsbD j = (decide (j < W) && v.getLsbD (W - 1 - j))) ∧
    (RF = false → W < 8 → (normOf W RF v).toNat = v.toNat * 2 ^ (8 - W) % 2 ^ 64) ∧
    (RF = false → 8 ≤ W → normOf W RF v = v) := by
  refine ⟨?_, ?_, ?_⟩
  · rintro rfl j -
    exact reflect_getLsbD hW v j
  · rintro rfl h
    exact normOf_false_toNat h v
  · rintro rfl h
    exact normOf_false_of_ge h v

/-! ### The laws -/

/-- A reflection reads the low W bits only (R153 (1)). -/
theorem reflect_and_lowmask (hW : W ≤ 64) (v : Word) : reflect W (v &&& lowmask W) = reflect W v := by
  apply BitVec.eq_of_getLsbD_eq
  intro j _
  rw [reflect_getLsbD hW, reflect_getLsbD hW, BitVec.getLsbD_and, lowmask_getLsbD]
  by_cases hj : j < W
  · simp [hj, show W - 1 - j < W ∧ W - 1 - j < 64 by omega]
  · simp [hj]

/-- Below width 8, a value of the field ends up within a byte (R153 (2)). -/
theorem normOf_false_toNat_lt (hW : W < 8) (hv : v.toNat < 2 ^ W) : (normOf W false v).toNat < 256 := by
  rw [normOf_false_toNat hW]
  calc v.toNat * 2 ^ (8 - W) % 2 ^ 64
      ≤ v.toNat * 2 ^ (8 - W) := Nat.mod_le _ _
    _ < 2 ^ W * 2 ^ (8 - W) := Nat.mul_lt_mul_of_pos_right hv (Nat.two_pow_pos _)
    _ = 256 := by rw [← Nat.pow_add, show W + (8 - W) = 8 by omega]

/-- Below width 8, the bits under the field are 0 (R153 (2)). -/
theorem normOf_false_low_zero (hW : W < 8) (v : Word) {j : Nat} (hj : j < 8 - W) :
    (normOf W false v).getLsbD j = false := by
  simp [normOf_false_of_lt hW, hj]

/-- `norm` is linear over XOR (R153 (4)). -/
theorem normOf_xor (hW : W ≤ 64) (RF : Bool) (v u : Word) :
    normOf W RF (v ^^^ u) = normOf W RF v ^^^ normOf W RF u := by
  cases RF with
  | true => exact reflect_xor hW v u
  | false =>
    by_cases h : W < 8
    · simp only [normOf_false_of_lt h, BitVec.shiftLeft_xor_distrib]
    · simp only [normOf_false_of_ge (Nat.not_lt.mp h)]

/-! ### The commands -/

/-- SETUP_POLY writes `norm` of POLY to NPOLY (R151). -/
theorem exec_setupPoly_of_ready (hr : s.ready) :
    exec .setupPoly s =
      .next { s with npoly := Slot.of (normOf s.width s.refl (s.read .poly)), unwrittenRead := s.recordOf [.poly] } :=
  exec_runs rfl hr hr.2.2

/-- SETUP_STATE writes `norm` of IV to STATE (R152). -/
theorem exec_setupState_of_ready (hr : s.ready) :
    exec .setupState s =
      .next { s with state := Slot.of (normOf s.width s.refl (s.read .iv)), unwrittenRead := s.recordOf [.iv] } :=
  exec_runs rfl hr hr.2.2

end Normalizer

/-- Settles O33: the reflected laws are those of `reflect`, the others are of a shift by 8 - W or of no change. -/
theorem normalizerLaws : Obligations.NormalizerLaws := by
  intro W v u _ hW
  refine ⟨⟨normOf_true W v, reflect_toNat_lt hW v, (reflect_and_lowmask hW v).symm⟩, fun h8 hv => ?_,
    fun h8 => normOf_false_of_ge h8 v, fun RF => normOf_xor hW RF v u⟩
  exact ⟨normOf_false_toNat_lt h8 hv, fun j hj => normOf_false_low_zero h8 v hj⟩

/-- Settles O31: SETUP_POLY writes `norm` of POLY, whose arms are R150's, and the prologue raises WIDTH_RANGE. -/
theorem setupPolyNormalizesPoly : Obligations.SetupPolyNormalizesPoly := by
  have hdec : decodeCommand 0x02000000#64 = .ok .setupPoly := by decide
  exact ⟨hdec, fun s hr => ⟨_, exec_setupPoly_of_ready hr, normOf_arms hr.2.2 _ _⟩,
    fun s hf hw => exec_widthRange_of_decodeCommand hdec hf hw⟩

/-- Settles O32: SETUP_STATE writes `norm` of IV, whose arms are R150's, and the prologue raises WIDTH_RANGE. -/
theorem setupStateNormalizesIv : Obligations.SetupStateNormalizesIv := by
  have hdec : decodeCommand 0x03000000#64 = .ok .setupState := by decide
  exact ⟨hdec, fun s hr => ⟨_, exec_setupState_of_ready hr, normOf_arms hr.2.2 _ _⟩,
    fun s hf hw => exec_widthRange_of_decodeCommand hdec hf hw⟩

end Sys2Proof.Machine

/-! The bitwise update as 43_bitwise_update.md has it: `upd` has three arms (R160), UPDATE writes `upd` of its byte to
STATE (R161), and the laws of `upd` are those of its micro-steps, eight times (R163). -/

namespace Sys2Proof.Machine

section BitwiseUpdate

variable {W : Nat} {p s : Word}

/-! ### The three arms -/

theorem upd_true (W : Nat) (p s : Word) (b : Byte) :
    upd W true p s b = (microRight p)^[8] (s ^^^ b.setWidth 64) := rfl

theorem upd_false_of_lt (hW : W < 8) (p s : Word) (b : Byte) :
    upd W false p s b = (microLeft 7 p)^[8] (s ^^^ b.setWidth 64) := by
  simp [upd, hW]

theorem upd_false_of_ge (hW : 8 ≤ W) (p s : Word) (b : Byte) :
    upd W false p s b = (microLeft (W - 1) p)^[8] (s ^^^ b.setWidth 64 <<< (W - 8)) := by
  simp [upd, Nat.not_lt.mpr hW]

/-- `upd` arm by arm, for any map that is the arm's micro-step (R160). -/
theorem upd_arms (W : Nat) (RF : Bool) (p s : Word) (b : Byte) :
    (RF = true → ∀ f : Word → Word, (∀ x, f x = if x.getLsbD 0 then (x >>> 1) ^^^ p else x >>> 1) →
      upd W RF p s b = f^[8] (s ^^^ b.setWidth 64)) ∧
    (RF = false → W < 8 → ∀ f : Word → Word,
      (∀ x, f x = if x.getLsbD 7 then (x <<< 1) ^^^ p else x <<< 1) →
      upd W RF p s b = f^[8] (s ^^^ b.setWidth 64)) ∧
    (RF = false → 8 ≤ W → ∀ f : Word → Word,
      (∀ x, f x = if x.getLsbD (W - 1) then (x <<< 1) ^^^ p else x <<< 1) →
      upd W RF p s b = f^[8] (s ^^^ (b.setWidth 64 <<< (W - 8)))) := by
  refine ⟨?_, ?_, ?_⟩
  · rintro rfl f hf
    obtain rfl : f = microRight p := funext hf
    exact upd_true W p s b
  · rintro rfl hW f hf
    obtain rfl : f = microLeft 7 p := funext hf
    exact upd_false_of_lt hW p s b
  · rintro rfl hW f hf
    obtain rfl : f = microLeft (W - 1) p := funext hf
    exact upd_false_of_ge hW p s b

/-! ### The laws -/

/-- Bits above the polynomial only move down under reflected micro-steps. -/
theorem microRight_iterate_high (hp : ∀ i, W ≤ i → p.getLsbD i = false) (n : Nat) (x : Word) {i : Nat} (hi : W ≤ i) :
    ((microRight p)^[n] x).getLsbD i = x.getLsbD (i + n) := by
  induction n generalizing x with
  | zero => rfl
  | succ n ih =>
    have hstep : (microRight p x).getLsbD (i + n) = x.getLsbD (i + (n + 1)) := by
      unfold microRight
      split <;> simp [hp (i + n) (by omega), show 1 + (i + n) = i + (n + 1) by omega]
    rw [Function.iterate_succ_apply, ih, hstep]

/-- A reflected byte keeps the state in its field: whatever the byte has above it is shifted out (R163 (2)). -/
theorem upd_true_toNat_lt (hs : s.toNat < 2 ^ W) (hp : p.toNat < 2 ^ W) (b : Byte) :
    (upd W true p s b).toNat < 2 ^ W := by
  have high {v : Word} (hv : v.toNat < 2 ^ W) (i : Nat) (hi : W ≤ i) : v.getLsbD i = false :=
    Nat.testBit_lt_two_pow (hv.trans_le (Nat.pow_le_pow_right (by decide) hi))
  refine Nat.lt_pow_two_of_testBit _ fun i hi => ?_
  rw [← BitVec.getLsbD, upd_true, microRight_iterate_high (high hp) 8 _ hi, BitVec.getLsbD_xor,
    high hs (i + 8) (by omega), BitVec.getLsbD_setWidth, b.getLsbD_of_ge (i + 8) (by omega)]
  simp

/-- `upd` is linear over XOR in state and byte together (R163 (3)). -/
theorem upd_xor (W : Nat) (RF : Bool) (p s u : Word) (b c : Byte) :
    upd W RF p (s ^^^ u) (b ^^^ c) = upd W RF p s b ^^^ upd W RF p u c := by
  have hswap (x y : Word) : s ^^^ u ^^^ (x ^^^ y) = (s ^^^ x) ^^^ (u ^^^ y) := by ac_rfl
  cases RF with
  | true => rw [upd_true, BitVec.setWidth_xor, hswap, iterate_xor (microRight_xor p), upd_true, upd_true]
  | false =>
    rw [upd_false, BitVec.setWidth_xor, BitVec.shiftLeft_xor_distrib, hswap, iterate_xor (microLeft_xor _ p),
      upd_false, upd_false]

/-- The engine keeps state 0 on byte 0 (R163 (3)). -/
theorem upd_zero (W : Nat) (RF : Bool) (p : Word) : upd W RF p 0#64 0#8 = 0#64 := by
  simpa using upd_xor W RF p 0#64 0#64 0#8 0#8

end BitwiseUpdate

/-! ### The command -/

/-- UPDATE writes `upd` of its byte to STATE (R161). -/
theorem exec_update_of_ready {s : State} (b : Byte) (hr : s.ready) :
    exec (.update b) s =
      .next { s with
        state := Slot.of (upd s.width s.refl (s.read .npoly) (s.read .state) b)
        unwrittenRead := s.recordOf [.npoly, .state] } :=
  exec_runs rfl hr hr.2.2

/-- OPC and IMM8 side by side in a command word (R91). -/
theorem commandWordOf_setWidth (opc imm : Byte) :
    (commandWordOf opc imm).setWidth 64 = opc.setWidth 64 <<< 24 ||| imm.setWidth 64 := by
  apply BitVec.eq_of_getLsbD_eq
  intro i hi
  rw [commandWordOf_getLsbD, BitVec.getLsbD_or, BitVec.getLsbD_shiftLeft, BitVec.getLsbD_setWidth,
    BitVec.getLsbD_setWidth]
  by_cases h8 : i < 8
  · simp [h8, hi, show i < 24 by omega]
  · have himm : imm.getLsbD i = false := imm.getLsbD_of_ge i (by omega)
    by_cases h24 : i < 24
    · simp [h8, h24, himm]
    · simp [h8, h24, himm, hi, show i - 24 < 64 by omega]

/-- The word 0x040000bb is UPDATE b (R93, R161). -/
theorem decodeCommand_update (b : Byte) :
    decodeCommand (0x04000000#64 ||| b.setWidth 64) = .ok (.update b) :=
  decodeCommand_eq_ok.mpr ⟨rfl, (commandWordOf_setWidth 0x04#8 b).symm⟩

/-- Settles O35: locality and linearity are those of the micro-steps, the reflected range is that eight right shifts
leave nothing above the polynomial, and UPDATE reads nothing but the arguments of `upd`. -/
theorem updateLaws : Obligations.UpdateLaws := by
  refine ⟨fun W p s u b c _ _ => ⟨?_, fun hs hp => upd_true_toNat_lt hs hp b,
    fun RF => ⟨upd_xor W RF p s u b c, upd_zero W RF p⟩⟩, ?_⟩
  · exact mask_upd_congr (mask_mask W false s).symm
  · intro s t s' t' b hr hw hrefl hf hp hst hs ht
    have hrt : t.ready := ⟨hf, hw ▸ hr.2⟩
    rw [exec_update_of_ready b hr, Host.Outcome.next.injEq] at hs
    rw [exec_update_of_ready b hrt, Host.Outcome.next.injEq] at ht
    rw [← hs, ← ht, hw, hrefl, hp, hst]

/-- Settles O34: UPDATE writes `upd` of its byte, whose arms are R160's, and the prologue raises WIDTH_RANGE. -/
theorem updateRunsEightMicroSteps : Obligations.UpdateRunsEightMicroSteps := by
  intro b
  refine ⟨decodeCommand_update b, fun s hr => ⟨_, exec_update_of_ready b hr, upd_arms ..⟩, fun s hf hw => ?_⟩
  have hstatus : (0x04000000#64 ||| b.setWidth 64) <<< 32 ||| 0x201#64 =
      0x0400000000000201#64 ||| (b.setWidth 64 <<< 32) := by
    rw [BitVec.shiftLeft_or_distrib, BitVec.or_assoc, BitVec.or_comm (b.setWidth 64 <<< 32), ← BitVec.or_assoc]
    rfl
  rw [exec_widthRange_of_decodeCommand (decodeCommand_update b) hf hw, hstatus]

end Sys2Proof.Machine

/-! The Finalizer as 44_finalizer.md has it: `fin` takes the field that `mask` keeps down to bit 0 and XORs XOROUT into
it (R170, R171), MASK writes `mask` of VALUE and RESULT `fin` of STATE to OUT (R172, R173), and the laws are those of
that field (R174). -/

namespace Sys2Proof.Machine

section Finalizer

variable {W : Nat} {xo v : Word} {s : State}

/-! ### The masked field -/

/-- Non-reflected, `mask` is the value modulo its field of `max W 8` bits (R170). -/
theorem mask_false_toNat (W : Nat) (v : Word) : (mask W false v).toNat = v.toNat % 2 ^ max W 8 := by
  apply Nat.eq_of_testBit_eq
  intro i
  rw [Nat.testBit_mod_two_pow]
  exact mask_false_getLsbD W v i

/-- `mask` arm by arm, as numbers (R170). -/
theorem mask_arms (W : Nat) (RF : Bool) (v : Word) :
    (RF = true → mask W RF v = v) ∧
    (RF = false → W < 8 → (mask W RF v).toNat = v.toNat % 256) ∧
    (RF = false → 8 ≤ W → (mask W RF v).toNat = v.toNat % 2 ^ W) := by
  refine ⟨?_, ?_, ?_⟩
  · rintro rfl
    exact mask_true W v
  · rintro rfl hW
    rw [mask_false_toNat, Nat.max_eq_right hW.le]
    rfl
  · rintro rfl hW
    rw [mask_false_toNat, Nat.max_eq_left hW]

/-- At width 64 nothing is masked away (R174 (1)). -/
theorem mask_sixtyFour (RF : Bool) (v : Word) : mask 64 RF v = v := by
  cases RF with
  | true => rfl
  | false =>
    apply BitVec.eq_of_toNat_eq
    rw [mask_false_toNat]
    exact Nat.mod_eq_of_lt v.isLt

/-- What the Finalizer XORs XOROUT into: the masked field, taken down to bit 0 (R171). -/
def finField (W : Nat) (RF : Bool) (v : Word) : Word := mask W RF v >>> (if RF then 0 else 8 - W)

theorem fin_eq_finField_xor (W : Nat) (RF : Bool) (xo v : Word) : fin W RF xo v = finField W RF v ^^^ xo :=
  fin_eq_mask W RF xo v

theorem finField_true (W : Nat) (v : Word) : finField W true v = v := by
  simp [finField]

theorem finField_false_toNat (W : Nat) (v : Word) :
    (finField W false v).toNat = v.toNat % 2 ^ max W 8 / 2 ^ (8 - W) := by
  rw [finField, BitVec.toNat_ushiftRight, mask_false_toNat, Nat.shiftRight_eq_div_pow]
  rfl

/-- The finalized field arm by arm, as numbers (R171). -/
theorem finField_arms (W : Nat) (RF : Bool) (v : Word) :
    (RF = true → finField W RF v = v) ∧
    (RF = false → W < 8 → (finField W RF v).toNat = v.toNat % 256 / 2 ^ (8 - W)) ∧
    (RF = false → 8 ≤ W → (finField W RF v).toNat = v.toNat % 2 ^ W) := by
  refine ⟨?_, ?_, ?_⟩
  · rintro rfl
    exact finField_true W v
  · rintro rfl hW
    rw [finField_false_toNat, Nat.max_eq_right hW.le]
    rfl
  · rintro rfl hW
    rw [finField_false_toNat, Nat.max_eq_left hW, Nat.sub_eq_zero_of_le hW, Nat.pow_zero, Nat.div_one]

/-! ### The laws -/

/-- At width 64, non-reflected, the Finalizer is the XOR (R174 (1)). -/
theorem fin_sixtyFour_false (xo v : Word) : fin 64 false xo v = v ^^^ xo := by
  rw [fin_eq_finField_xor, finField, mask_sixtyFour]
  simp

/-- The Finalizer reads the masked field only (R174 (3)). -/
theorem fin_mask (W : Nat) (RF : Bool) (xo v : Word) : fin W RF xo (mask W RF v) = fin W RF xo v := by
  rw [fin_eq_mask, mask_mask, ← fin_eq_mask]

/-- The finalized field has W bits, where the whole word counts if it has W bits itself (R174 (4)). -/
theorem finField_toNat_lt {RF : Bool} (hv : RF = false ∨ v.toNat < 2 ^ W) : (finField W RF v).toNat < 2 ^ W := by
  cases RF with
  | true => simpa [finField_true] using hv
  | false =>
    rw [finField_false_toNat]
    apply Nat.div_lt_of_lt_mul
    calc v.toNat % 2 ^ max W 8
        < 2 ^ max W 8 := Nat.mod_lt _ (Nat.two_pow_pos _)
      _ = 2 ^ (8 - W) * 2 ^ W := by rw [← Nat.pow_add, show 8 - W + W = max W 8 by omega]

/-- The finalized value fits the W bits that XOROUT fits (R174 (4)). -/
theorem fin_toNat_lt {RF : Bool} (hxo : xo.toNat < 2 ^ W) (hv : RF = false ∨ v.toNat < 2 ^ W) :
    (fin W RF xo v).toNat < 2 ^ W := by
  rw [fin_eq_finField_xor, BitVec.toNat_xor]
  exact Nat.xor_lt_two_pow (finField_toNat_lt hv) hxo

/-! ### The commands -/

/-- MASK writes `mask` of VALUE to OUT (R172). -/
theorem exec_mask_of_ready (hr : s.ready) :
    exec .mask s =
      .next { s with out := Slot.of (mask s.width s.refl (s.read .value)), unwrittenRead := s.recordOf [.value] } :=
  exec_runs rfl hr hr.2.2

/-- RESULT writes the finalized field of STATE, XORed with XOROUT, to OUT (R173). -/
theorem exec_result_of_ready (hr : s.ready) :
    exec .result s =
      .next { s with
        out := Slot.of (finField s.width s.refl (s.read .state) ^^^ s.read .xorout)
        unwrittenRead := s.recordOf [.xorout, .state] } := by
  rw [← fin_eq_finField_xor]
  exact exec_runs rfl hr hr.2.2

end Finalizer

/-- Settles O39: the laws of the masked field, which is all that the Finalizer reads, and whose W bits XOROUT keeps. -/
theorem finalizerLaws : Obligations.FinalizerLaws :=
  fun W RF xo s v _ _ => ⟨⟨mask_sixtyFour RF v, fin_sixtyFour_false xo s⟩, mask_mask W RF v,
    (fin_mask W RF xo s).symm, fin_toNat_lt⟩

/-- Settles O37: MASK writes `mask` of VALUE, whose arms are R170's, and the prologue raises WIDTH_RANGE. -/
theorem maskKeepsTheCrcField : Obligations.MaskKeepsTheCrcField := by
  have hdec : decodeCommand 0x0A000000#64 = .ok .mask := by decide
  exact ⟨hdec, fun s hr => ⟨_, exec_mask_of_ready hr, mask_arms _ _ _⟩,
    fun s hf hw => exec_widthRange_of_decodeCommand hdec hf hw⟩

/-- Settles O38: RESULT XORs XOROUT into the finalized field of STATE, whose arms are R171's, and the prologue raises
WIDTH_RANGE. -/
theorem resultFinalizesState : Obligations.ResultFinalizesState := by
  have hdec : decodeCommand 0x05000000#64 = .ok .result := by decide
  exact ⟨hdec, fun s hr => ⟨_, exec_result_of_ready hr, finField_arms _ _ _⟩,
    fun s hf hw => exec_widthRange_of_decodeCommand hdec hf hw⟩

end Sys2Proof.Machine

/-! The one-shot bitwise CRC as 45_oneshot_bitwise.md has it: CRC folds its buffer with `upd` and writes the finalized
result to OUT (R180, R181). -/

namespace Sys2Proof.Machine

/-- Settles O40: the walk over a readable buffer is the fold of R180, and OUT alone is written (R181). -/
theorem crcFoldsTheBuffer : Obligations.CrcFoldsTheBuffer := by
  have hdec : decodeCommand 0x06000000#64 = .ok .crc := by decide
  exact ⟨hdec, fun _ _ hr hd => exec_crc_of_bufferHolds hr hd⟩

end Sys2Proof.Machine

/-! The Table Builder as 46_table_builder.md has it: TABLE_INIT writes the table of `tbl` for POLY and nothing else but
the record of the read (R190, R191), and what `tbl` masks and reflects bounds every entry (R193). -/

namespace Sys2Proof.Machine

section TableBuilder

variable {W : Nat} {s t : State}

/-! ### The entries -/

/-- Byte 0 leaves state 0 as it is, and so does the mask (R190). -/
theorem tbl_zero (W : Nat) (RF : Bool) (poly : Word) : tbl W RF poly 0#8 = 0#64 := by
  have hmask : mask W RF 0#64 = 0#64 := by simpa using mask_xor W RF 0#64 0#64
  rw [tbl, tableEntry, upd_zero, hmask]

/-- Reflected, `norm` cuts any POLY to W bits and the update from state 0 keeps to them (R193). -/
theorem tbl_true_toNat_lt (hW : W ≤ 64) (poly : Word) (i : Byte) : (tbl W true poly i).toNat < 2 ^ W :=
  upd_true_toNat_lt (Nat.two_pow_pos W) (reflect_toNat_lt hW poly) i

/-- Non-reflected, the mask cuts every entry to its field of `max W 8` bits (R193). -/
theorem tbl_false_toNat_lt (W : Nat) (poly : Word) (i : Byte) : (tbl W false poly i).toNat < 2 ^ max W 8 := by
  rw [tbl, tableEntry, mask_false_toNat]
  exact Nat.mod_lt _ (Nat.two_pow_pos _)

/-! ### The command -/

/-- Building the table changes TABLE only (R191). -/
theorem State.buildTable_frame (s : State) (p : Word) :
    s.buildTable p = { s with table := (s.buildTable p).table } := by
  unfold State.buildTable
  rfl

/-- TABLE_INIT notes its read of POLY and builds the table for it (R191). -/
theorem exec_tableInit_of_ready (hr : s.ready) :
    exec .tableInit s =
      .next ((s.noteReads [.reg .poly]).buildTable (normOf s.width s.refl (s.read .poly))) :=
  exec_runs rfl hr hr.2.2

/-- What TABLE_INIT leaves: the table is the one of the current W, RF and POLY, and the record of the read is all else
that changed (R191, R192). -/
theorem exec_tableInit_next (hr : s.ready) (h : exec .tableInit s = .next t) :
    (∀ i, t.entrySlot i = Slot.of (tbl s.width s.refl (s.read .poly) i)) ∧
    t = { s with table := t.table, unwrittenRead := s.recordOf [.poly] } := by
  rw [exec_tableInit_of_ready hr, Host.Outcome.next.injEq] at h
  subst h
  exact ⟨State.entrySlot_buildTable _ _, State.buildTable_frame _ _⟩

theorem readEntry_of_exec_tableInit (hr : s.ready) (h : exec .tableInit s = .next t) (i : Byte) :
    t.readEntry i = tbl s.width s.refl (s.read .poly) i := by
  rw [State.readEntry, (exec_tableInit_next hr h).1 i, Slot.read_of]

end TableBuilder

/-- Settles O47: TABLE_INIT writes `tbl` of POLY, whose entry 0 is the engine's and the mask's 0, and the prologue raises
WIDTH_RANGE. -/
theorem tableInitBuildsEveryEntry : Obligations.TableInitBuildsEveryEntry := by
  have hdec : decodeCommand 0x07000000#64 = .ok .tableInit := by decide
  refine ⟨hdec, fun s hr => ?_, fun s hf hw => exec_widthRange_of_decodeCommand hdec hf hw⟩
  have hexec := exec_tableInit_of_ready hr
  obtain ⟨hentries, hframe⟩ := exec_tableInit_next hr hexec
  exact ⟨_, hexec, hentries, (readEntry_of_exec_tableInit hr hexec 0#8).trans (tbl_zero ..), hframe⟩

/-- Settles O49: an entry reads as `tbl`, which is bounded by the reflection or by the mask. -/
theorem builtEntriesFitTheirField : Obligations.BuiltEntriesFitTheirField := by
  intro s t i hr h
  rw [readEntry_of_exec_tableInit hr h i]
  cases s.refl with
  | true => exact ⟨fun _ => tbl_true_toNat_lt hr.2.2 _ i, fun hf => by cases hf⟩
  | false =>
    have hlt := tbl_false_toNat_lt s.width (s.read .poly) i
    refine ⟨fun hW => ?_, fun _ hW => ?_⟩
    · have h8 : 8 ≤ s.width := hW.resolve_left (by decide)
      rwa [Nat.max_eq_left h8] at hlt
    · rwa [Nat.max_eq_right hW.le] at hlt

end Sys2Proof.Machine

/-! The Table-Driven Update Engine as 47_table_update.md has it: a lookup has one index in each of its three modes, or
TABLE_INDEX where none fits (R200), TABLE_UPDATE writes what the lookup gives to STATE (R201), and on a built table the
engine is the bitwise one (R202). -/

namespace Sys2Proof.Machine

/-- Settles O51: reflected, the engines agree on all bits; non-reflected under `mask`; the example is run. -/
theorem tableEngineEqualsBitwiseEngine : Obligations.TableEngineEqualsBitwiseEngine :=
  ⟨fun W poly s b _ hW => ⟨tupd_tbl_true W poly s b, fun _ => mask_of_tupd_tbl hW⟩, by decide, by decide⟩

section TableUpdate

variable {W : Nat} {RF : Bool} {x e : Word} {b j : Byte} {s : State}

/-! ### The lookup's index -/

/-- Only the non-reflected engine up to width 8 can be without an index, by the byte and the state exceeding 255
(R200). -/
theorem exists_tableIndex (h : RF = true ∨ 8 < W ∨ (b.setWidth 64 ^^^ x).toNat ≤ 255) :
    ∃ j, tableIndex W RF x b = .ok j := by
  unfold tableIndex
  split_ifs with hRF hW hlt
  · exact ⟨_, rfl⟩
  · have hgt : 255 < (b.setWidth 64 ^^^ x).toNat := hlt
    have hfit := h.resolve_left hRF
    omega
  · exact ⟨_, rfl⟩
  · exact ⟨_, rfl⟩

/-- An index above 255 is answered whole (R200). -/
theorem tableIndex_error (hW : W ≤ 8) (h : 255 < (b.setWidth 64 ^^^ x).toNat) :
    tableIndex W false x b = .error (b.setWidth 64 ^^^ x) := by
  have hlt : 255#64 < b.setWidth 64 ^^^ x := h
  simp [tableIndex, hW, hlt]

/-- The index that a lookup used and the state it makes of the entry, in the three modes (R200). -/
theorem tableIndex_arms (h : tableIndex W RF x b = .ok j) :
    (RF = true → j.toNat = (b.setWidth 64 ^^^ x).toNat % 256 ∧ tableCombine W RF e x = e ^^^ (x >>> 8)) ∧
    (RF = false → W ≤ 8 → j.toNat = (b.setWidth 64 ^^^ x).toNat ∧ tableCombine W RF e x = e) ∧
    (RF = false → 8 < W →
      j.toNat = (b.setWidth 64 ^^^ (x >>> (W - 8))).toNat % 256 ∧ tableCombine W RF e x = e ^^^ (x <<< 8)) := by
  unfold tableIndex at h
  split_ifs at h with hRF hW hlt <;> cases h
  · exact ⟨fun _ => ⟨BitVec.toNat_setWidth .., if_pos hRF⟩, by simp [hRF], by simp [hRF]⟩
  · have hle : ¬ 255 < (b.setWidth 64 ^^^ x).toNat := hlt
    refine ⟨fun h => absurd h hRF, fun _ _ => ⟨?_, by simp [tableCombine, hRF, hW]⟩, fun _ h8 => by omega⟩
    rw [BitVec.toNat_setWidth, Nat.mod_eq_of_lt (by omega)]
  · exact ⟨fun h => absurd h hRF, fun _ h8 => absurd h8 hW,
      fun _ _ => ⟨BitVec.toNat_setWidth .., by simp [tableCombine, hRF, hW]⟩⟩

/-! ### The command -/

/-- Reads noted in two lots are noted as in one (R247 step 6). -/
theorem State.firstUnwritten_append (s : State) (seen : Option Source) (xs ys : List Source) :
    s.firstUnwritten (s.firstUnwritten seen xs) ys = s.firstUnwritten seen (xs ++ ys) := by
  rw [State.firstUnwritten, State.firstUnwritten, State.firstUnwritten, List.find?_append, Option.or_assoc]

/-- TABLE_UPDATE notes its read of STATE and ends with the lookup for its byte (R201, R247). -/
theorem exec_tableUpdate_of_ready (b : Byte) (hr : s.ready) :
    exec (.tableUpdate b) s =
      .next ((s.noteReads [.reg .state]).finishWalk (commandWord (.tableUpdate b))
        (s.tableStep { crc := s.read .state, unwritten := s.recordOf [.state] } b) fun u c => u.write .state c) := by
  rw [← s.noteReads_tableStep [.reg .state]]
  exact exec_runs rfl hr hr.2.2

/-- With an index, TABLE_UPDATE reads STATE and that entry and writes the lookup's state (R201). -/
theorem exec_tableUpdate_of_index (hr : s.ready) (h : tableIndex s.width s.refl (s.read .state) b = .ok j) :
    exec (.tableUpdate b) s =
      .next { s with
        state := Slot.of (tableCombine s.width s.refl (s.readEntry j) (s.read .state))
        unwrittenRead := s.firstUnwritten s.unwrittenRead [.reg .state, .entry j] } := by
  have hreads : s.firstUnwritten (s.recordOf [.state]) [.entry j] =
      s.firstUnwritten s.unwrittenRead [.reg .state, .entry j] := s.firstUnwritten_append ..
  rw [exec_tableUpdate_of_ready b hr, State.tableStep, h, ← hreads]
  rfl

/-- Without one, it reads STATE and raises TABLE_INDEX (R201). -/
theorem exec_tableUpdate_of_no_index (hr : s.ready) (h : tableIndex s.width s.refl (s.read .state) b = .error x) :
    exec (.tableUpdate b) s =
      .next ({ s with unwrittenRead := s.recordOf [.state] }.raiseFault .tableIndex
        (commandWord (.tableUpdate b)) x) := by
  rw [exec_tableUpdate_of_ready b hr, State.tableStep, h]
  rfl

/-- The word 0x080000bb is TABLE_UPDATE b (R93, R201). -/
theorem decodeCommand_tableUpdate (b : Byte) :
    decodeCommand (0x08000000#64 ||| b.setWidth 64) = .ok (.tableUpdate b) :=
  decodeCommand_eq_ok.mpr ⟨rfl, (commandWordOf_setWidth 0x08#8 b).symm⟩

/-- STATUS after a fault of TABLE_UPDATE, its byte in FCMD's low bits set apart (R32, R91). -/
theorem status_tableUpdate (b : Byte) (k : Word) :
    (0x08000000#64 ||| b.setWidth 64) <<< 32 ||| k = (0x0800000000000000#64 ||| k) ||| b.setWidth 64 <<< 32 := by
  rw [BitVec.shiftLeft_or_distrib, BitVec.or_assoc, BitVec.or_comm (b.setWidth 64 <<< 32), ← BitVec.or_assoc]
  rfl

end TableUpdate

/-- Settles O50: the lookup's index decides between the write of STATE and TABLE_INDEX, and the prologue raises
WIDTH_RANGE. -/
theorem tableUpdateLooksUpOneEntry : Obligations.TableUpdateLooksUpOneEntry := by
  intro b
  have hdec := decodeCommand_tableUpdate b
  refine ⟨hdec, fun s hr hidx => ?_, fun s hr hRF hW hgt => ?_, fun s hf hw => ?_⟩
  · obtain ⟨j, hj⟩ := exists_tableIndex hidx
    exact ⟨j, _, exec_tableUpdate_of_index hr hj, tableIndex_arms hj⟩
  · have herr : tableIndex s.width s.refl (s.read .state) b = .error (b.setWidth 64 ^^^ s.read .state) := by
      rw [hRF]
      exact tableIndex_error hW hgt
    rw [exec_tableUpdate_of_no_index hr herr, State.raiseFault_of_decodeCommand hdec, status_tableUpdate]
    rfl
  · rw [exec_widthRange_of_decodeCommand hdec hf hw, status_tableUpdate]
    rfl

end Sys2Proof.Machine

/-! Transactions as 30_encoding.md has them, and the step that takes the next one: what is encoded is what is decoded
(R90, R91, R99), and a step runs it (20_memory.md R60, R71). -/

namespace Sys2Proof.Machine

section Transactions

variable {z : AccessSize} {off : Offset} {d : Word} {i : Instr} {s : State} {rest : List Input}

/-! ### Decoding a transaction -/

/-- A command is encoded as a CMD write of its own word (R91, R99). -/
theorem encode_command (hi : i.isCommand = true) : encode i = cmdWrite (commandWord i) := by
  cases i with
  | wr _ _ _ | rd _ _ => cases hi
  | _ => rfl

/-- A CMD write of a command's word is that command (R92, R99). -/
theorem decodeWrite_of_decodeCommand (h : decodeCommand d = .ok i) : decodeWrite .eight cmdOffset d = i := by
  simp [decodeWrite, h]

/-- Any other write is WR (R92, R99, log entry 9). -/
theorem decodeWrite_of_wf (h : (Instr.wr z off d).wf = true) : decodeWrite z off d = .wr z off d := by
  unfold decodeWrite
  split
  · next hc =>
    obtain ⟨rfl, rfl⟩ := hc
    cases hd : decodeCommand d with
    | error e => rfl
    | ok i => simp [Instr.wf, legalCommandData_of_ok hd] at h
  · rfl

theorem decodeTransaction_encode_command (hi : i.isCommand = true) : decodeTransaction (encode i) = i := by
  rw [encode_command hi, cmdWrite, decodeTransaction_write]
  exact decodeWrite_of_decodeCommand (decodeCommand_commandWord hi)

theorem decodeTransaction_encode_rd (z : AccessSize) (off : Offset) :
    decodeTransaction (encode (.rd z off)) = .rd z off :=
  decodeTransaction_read z off 0#64

/-- A well-formed instruction is read back from its transaction (R90, R99). -/
theorem decodeTransaction_encode (hi : i.wf = true) : decodeTransaction (encode i) = i := by
  cases hc : i.isCommand with
  | true => exact decodeTransaction_encode_command hc
  | false =>
    cases i with
    | wr z off d => exact (decodeTransaction_write z off d).trans (decodeWrite_of_wf hi)
    | rd z off => exact decodeTransaction_encode_rd z off
    | _ => cases hc

/-- The transaction that carries a word of the opcode table is the instruction of that word (log entry 10). -/
theorem decodeTransaction_tableTransaction {nbits w : Nat} (h : decodeTableWord nbits w = some i) :
    decodeTransaction (tableTransaction nbits w) = i := by
  unfold decodeTableWord at h
  unfold tableTransaction
  split_ifs at h ⊢ with hb hw hw
  · cases hd : decodeCommand (BitVec.ofNat 64 w) with
    | error e => simp [hd] at h
    | ok j =>
      rw [hd] at h
      cases h
      rw [decodeTransaction_write, decodeWrite_of_decodeCommand hd]
  · exact Option.some.inj h

/-! ### The step, input by input -/

theorem step_idle (h : s.inputs = []) : step s = .next s := by
  rw [step, h]

theorem step_reset (h : s.inputs = .reset :: rest) : step s = .next (s.withInputs rest).resetBlock := by
  rw [step, h]

theorem step_dmem {a : Nat} {v : Byte} (h : s.inputs = .dmem a v :: rest) :
    step s = .next ((s.withInputs rest).platformStore a v) := by
  rw [step, h]

theorem step_transaction {t : Transaction} (h : s.inputs = .transaction t :: rest) :
    step s = exec (decodeTransaction t) (s.withInputs rest) := by
  rw [step, h]

end Transactions

/-- Settles O1: a command is read back from its word, and a well-formed WR is the write of no command's word. -/
theorem encodedInstructionsDecodeToThemselves : Obligations.EncodedInstructionsDecodeToThemselves :=
  fun _ hi => decodeTransaction_encode hi

/-- Settles O4: the words are decoded. -/
theorem sampleWordsDecode : Obligations.SampleWordsDecode := by
  unfold Obligations.SampleWordsDecode
  decide

/-- Settles O5: a step runs what its transaction decodes to, and an encoding decodes to its instruction. -/
theorem stepRunsTheDecodedInstruction : Obligations.StepRunsTheDecodedInstruction := by
  refine fun s => ⟨step_idle, fun t rest h => step_transaction h, fun i rest hi h => ?_⟩
  rw [step_transaction h, decodeTransaction_encode hi]
  rfl

/-- Settles O6: the fetched word's transaction decodes to the word's instruction, and taking it off gives `s` back. -/
theorem tableWordRunsAsTheNextStep : Obligations.TableWordRunsAsTheNextStep := by
  intro s nbits w i h
  rw [step_transaction (s := s.withFetchWord nbits w) rfl, decodeTransaction_tableTransaction h]
  rfl

end Sys2Proof.Machine

/-! Reset and the invariant, as 70_reset_and_hazards.md and 10_state.md have them: what the reset input leaves (R42,
R280, R281), that nothing stops the machine (60_exceptions.md R260, R261), who changes DMEM (20_memory.md R61), and that
each step keeps the block's invariant (R21, R32, R33). -/

namespace Sys2Proof.Machine

section Reset

variable (s : State)

@[simp] theorem State.reset_slot (r : DataReg) : State.reset.slot r = Slot.unwritten := by cases r <;> rfl

@[simp] theorem State.reset_entrySlot (i : Byte) : State.reset.entrySlot i = Slot.unwritten := by
  simp [State.entrySlot, State.reset]

@[simp] theorem State.resetBlock_slot (r : DataReg) : s.resetBlock.slot r = Slot.unwritten := by cases r <;> rfl

@[simp] theorem State.resetBlock_entrySlot (i : Byte) : s.resetBlock.entrySlot i = Slot.unwritten :=
  State.reset_entrySlot i

end Reset

/-- Settles O9: reset gives every register and entry the unwritten slot. -/
theorem resetLeavesTheSpecifiedState : Obligations.ResetLeavesTheSpecifiedState :=
  ⟨rfl, rfl, rfl, fun r => by simp, fun i => by simp⟩

/-- Settles O10: the reset input gives every register and entry the unwritten slot, and DMEM is not block state. -/
theorem resetInputClearsTheBlockAndKeepsDmem : Obligations.ResetInputClearsTheBlockAndKeepsDmem :=
  fun _ _ h => ⟨_, step_reset h, rfl, rfl, rfl, fun r => by simp, fun i => by simp, rfl, fun _ => rfl, rfl⟩

/-! ### No operation stops the machine -/

theorem execRd_next (z : AccessSize) (off : Offset) (s : State) : ∃ t, execRd z off s = .next t := by
  unfold execRd
  split <;> exact ⟨_, rfl⟩

theorem execWr_next (z : AccessSize) (off : Offset) (d : Word) (s : State) : ∃ t, execWr z off d s = .next t := by
  have hcmd : ∃ t, cmdWritten d s = .next t := by
    unfold cmdWritten
    split
    · exact ⟨_, rfl⟩
    · next i hd =>
      have hi := decodeCommand_isCommand hd
      rw [runCommand_eq_exec hi]
      exact exec_command_next hi s
  unfold execWr
  split
  · exact ⟨_, rfl⟩
  · split
    case h_5 => exact hcmd
    all_goals exact ⟨_, rfl⟩

theorem exec_next (i : Instr) (s : State) : ∃ t, exec i s = .next t := by
  cases hi : i.isCommand with
  | true => exact exec_command_next hi s
  | false =>
    cases i with
    | wr z off d => exact execWr_next z off d s
    | rd z off => exact execRd_next z off s
    | _ => cases hi

theorem step_next (s : State) : ∃ t, step s = .next t := by
  cases h : s.inputs with
  | nil => exact ⟨_, step_idle h⟩
  | cons x rest =>
    cases x with
    | reset => exact ⟨_, step_reset h⟩
    | dmem a v => exact ⟨_, step_dmem h⟩
    | transaction t =>
      rw [step_transaction h]
      exact exec_next _ _

/-- Settles O8: commands end in their prologue or their own work, accesses in one of their places. -/
theorem everyOperationAndStepAnswersANextState : Obligations.EveryOperationAndStepAnswersANextState :=
  ⟨exec_next, step_next⟩

section Dmem

variable {s t : State} {i : Instr}

/-- No operation of the block writes DMEM or changes its address width (R14, R61). -/
theorem exec_dmem (h : exec i s = .next t) : t.dmem = s.dmem ∧ t.addrW = s.addrW := by
  rcases exec_cases h with ⟨-, -, -, ht, -⟩ | ⟨-, c, w, a, o, u, rfl, -⟩ | ⟨-, -, -, hd, ha, -⟩
  · rw [ht]
    exact ⟨rfl, rfl⟩
  · exact ⟨rfl, rfl⟩
  · exact ⟨hd, ha⟩

/-- What is read from DMEM is its contents below the address width (R63). -/
theorem State.memRead_congr (hd : t.dmem = s.dmem) (ha : t.addrW = s.addrW) (b : Nat) : t.memRead b = s.memRead b := by
  rw [State.memRead, hd, ha, ← State.memRead]

end Dmem

/-- Settles O14: operations and reset leave DMEM alone, and the platform's store is one byte. -/
theorem onlyThePlatformChangesDmem : Obligations.OnlyThePlatformChangesDmem := by
  intro s t h
  refine ⟨fun hno => ?_, fun a v rest hin => ?_⟩
  · have hkeep : t.dmem = s.dmem ∧ t.addrW = s.addrW := by
      rcases step_cases h with ⟨-, rfl⟩ | ⟨rest, -, rfl⟩ | ⟨a, v, rest, hin, -⟩ | ⟨tr, rest, -, hx⟩
      · exact ⟨rfl, rfl⟩
      · exact ⟨rfl, rfl⟩
      · exact absurd hin (hno a v rest)
      · exact exec_dmem (s := s.withInputs rest) hx
    exact ⟨hkeep.1, hkeep.2, State.memRead_congr hkeep.1 hkeep.2⟩
  · rw [step_dmem hin, Host.Outcome.next.injEq] at h
    subst h
    refine ⟨rfl, fun ha => ?_, fun b hb => ?_⟩
    · simp [State.memRead_platformStore, ha]
    · simp [State.memRead_platformStore, hb]

section Invariant

variable {s t : State} {i : Instr} {c : FaultCode} {w : BitVec 32} {a : Word}

/-! ### STATUS and FADDR after a fault -/

/-- The low half of STATUS does not show FCMD (R32). -/
theorem statusWord_low_field (w : BitVec 32) (c : FaultCode) {k n : Nat} (hk : k + n ≤ 32) :
    (statusWord w c).extractLsb' k n = (statusWord 0#32 c).extractLsb' k n := by
  apply BitVec.eq_of_getLsbD_eq
  intro i hi
  simp [statusWord_eq, hi, show k + i < 32 by omega]

theorem State.faulted_of_status (hs : t.status = statusWord w c) : t.faulted = true := by
  rw [State.faulted, hs, statusWord_fault]

theorem State.fcode_of_status (hs : t.status = statusWord w c) : t.fcode = c.number := by
  rw [State.fcode, hs, statusWord_fcode]

/-- Fault entry leaves STATUS and FADDR as the spec says they read, if the fault is one of R240's (R32, R33). -/
theorem statusShaped_of_fault (hs : t.status = statusWord w c) (hw : c = .badAccess → w = 0#32)
    (ha : faddrFits c.number t.faddr = true) : t.statusShaped = true := by
  have hlow : t.status.extractLsb' 1 7 = 0#7 ∧ t.status.extractLsb' 16 16 = 0#16 := by
    rw [hs, statusWord_low_field w c (by decide), statusWord_low_field w c (by decide)]
    cases c <;> decide
  have hcode := State.fcode_of_status hs
  have hcmd : t.fcmd = w := by rw [State.fcmd, hs, statusWord_fcmd]
  have hf := State.faulted_of_status hs
  have hrange : 1 ≤ c.number.toNat ∧ c.number.toNat ≤ 7 := by cases c <;> decide
  have hbad : (!(c.number == 0x07#8) || w == 0#32) = true := by
    cases c with
    | badAccess => simp [hw rfl]
    | _ => rfl
  simp only [State.statusShaped, hlow, hf, hcode, hcmd, ha, hrange, hbad]
  rfl

/-- A command's fault leaves in FADDR what its code allows (R33, R240). -/
theorem faddrFits_of_commandFault (h : commandFault i s c a) : faddrFits c.number a = true := by
  cases c with
  | illegalCmd | badAccess => exact h.elim
  | widthRange => exact beq_iff_eq.mpr h
  | laneWidth => exact beq_iff_eq.mpr h.1
  | tableIndex => exact decide_eq_true h.1
  | dataRange | dataRead => rfl

/-- A window offset is below 0x1000 (R61). -/
theorem faddrFits_badAccess (off : Offset) : faddrFits FaultCode.badAccess.number (off.setWidth 64) = true := by
  refine decide_eq_true ?_
  rw [BitVec.toNat_setWidth]
  omega

/-! ### What keeps the invariant -/

/-- The low byte of a CFG write is all that is stored (R21, R22). -/
theorem cfg_reserved_zero (d : Word) : (d &&& 0xFF#64).extractLsb' 8 56 = 0#56 := by
  apply BitVec.eq_of_toNat_eq
  have h8 : (d &&& 0xFF#64).toNat = d.toNat % 2 ^ 8 := Nat.and_two_pow_sub_one_eq_mod d.toNat 8
  rw [BitVec.extractLsb'_toNat, h8, Nat.shiftRight_eq_div_pow, Nat.div_eq_of_lt (Nat.mod_lt _ (by decide))]
  rfl

/-- STATUS and FADDR are as the invariant has them if nothing wrote them. -/
theorem statusShaped_congr (hs : t.status = s.status) (ha : t.faddr = s.faddr) : t.statusShaped = s.statusShaped := by
  rw [State.statusShaped, State.faulted, State.fcode, State.fcmd, hs, ha]
  rfl

theorem exec_inv (hinv : s.Inv) (h : exec i s = .next t) : t.Inv := by
  obtain ⟨hcfg, hstatus, hdmem⟩ := hinv
  rcases exec_cases h with ⟨-, -, -, ht, -⟩ | ⟨-, c, w, a, o, u, rfl, hbad, -, -, hfault⟩ |
    ⟨-, hs, ha, hd, -, -, hc⟩
  · rw [ht]
    exact ⟨hcfg, hstatus, hdmem⟩
  · refine ⟨hcfg, statusShaped_of_fault rfl (fun hc => (hbad hc).1) ?_, hdmem⟩
    rcases hfault with hc | ⟨rfl, rfl⟩ | ⟨j, -, hj⟩
    · obtain ⟨-, z, off, rfl, -⟩ := hbad hc
      rw [hc]
      exact faddrFits_badAccess off
    · rfl
    · exact faddrFits_of_commandFault hj
  · refine ⟨?_, (statusShaped_congr hs ha).trans hstatus, hd ▸ hdmem⟩
    rcases hc with hc | ⟨d, hc⟩
    · rwa [State.cfgReservedZero, hc]
    · rw [State.cfgReservedZero, hc, cfg_reserved_zero]
      rfl

end Invariant

/-- Settles O12: every field is 0 and DMEM lists nothing. -/
theorem resetSatisfiesTheInvariant : Obligations.ResetSatisfiesTheInvariant := by
  unfold Obligations.ResetSatisfiesTheInvariant State.Inv
  decide

/-- Settles O13: an operation keeps the invariant or raises a fault that fits it, reset clears STATUS and FADDR, and a
stored byte keeps DMEM canonical. -/
theorem everyStepKeepsTheInvariant : Obligations.EveryStepKeepsTheInvariant := by
  intro s t hinv h
  obtain ⟨hcfg, hstatus, hdmem⟩ := hinv
  obtain ⟨hcfgReset, hstatusReset, -⟩ := resetSatisfiesTheInvariant
  rcases step_cases h with ⟨-, rfl⟩ | ⟨rest, -, rfl⟩ | ⟨a, v, rest, -, rfl⟩ | ⟨tr, rest, -, hx⟩
  · exact ⟨hcfg, hstatus, hdmem⟩
  · exact ⟨hcfgReset, (statusShaped_congr (s := State.reset) rfl rfl).trans hstatusReset, hdmem⟩
  · exact ⟨hcfg, hstatus, Memory.place_wf a v hdmem⟩
  · exact exec_inv (s := s.withInputs rest) ⟨hcfg, hstatus, hdmem⟩ hx

end Sys2Proof.Machine

/-! Faults as 60_exceptions.md has them: what a fault leaves behind (R240, R243, R244), which operation raises which
(R241, R246), that faults are sticky (R245), and what a command may write when it does not fault (10_state.md R40). -/

namespace Sys2Proof.Machine

section Faults

variable {i : Instr} {s t : State} {c : FaultCode} {w : BitVec 32} {a : Word}

/-! ### An operation that faults -/

/-- Operation `i` of `s`, with FAULT = 0, ended in `t` with the fault `c` and FCMD `w` (R240, R243, R244). -/
structure TookFault (i : Instr) (s t : State) (c : FaultCode) (w : BitVec 32) : Prop where
  sameWork : s.sameWork t
  status : t.status = statusWord w c
  badAccess : c = .badAccess → w = 0#32 ∧
    ∃ size off, t.faddr = off.setWidth 64 ∧ (i = .rd size off ∨ ∃ d, i = .wr size off d)
  command : i.isCommand = true → w = commandWord i ∧ commandFault i s c t.faddr
  write : ∀ size off d, i = .wr size off d → c ≠ .badAccess → w = d.extractLsb' 0 32
  cause : c = .badAccess ∨ c = .illegalCmd ∧ t.faddr = 0#64 ∨ ∃ j, startsCommand i j ∧ commandFault j s c t.faddr

theorem TookFault.fcode (h : TookFault i s t c w) : t.fcode = c.number := State.fcode_of_status h.status

/-- Where FCODE is that of a fault which no host access raises of itself, the operation started a command that raises it
(R241). -/
theorem TookFault.command_of_code {c' : FaultCode} (h : TookFault i s t c w) (hc : t.fcode = c'.number)
    (hbad : c' ≠ .badAccess) (hill : c' ≠ .illegalCmd) : ∃ j, startsCommand i j ∧ commandFault j s c' t.faddr := by
  obtain rfl := FaultCode.number_injective (h.fcode.symm.trans hc)
  exact (h.cause.resolve_left hbad).resolve_left fun hi => hill hi.1

theorem State.faulted_congr (h : t.status = s.status) : t.faulted = s.faulted := by
  rw [State.faulted, h, State.faulted]

/-- An operation that ends with FAULT = 1 where it was 0 took a fault. -/
theorem exec_tookFault (h : exec i s = .next t) (hf : s.faulted = false) (ht : t.faulted = true) :
    ∃ c w, TookFault i s t c w := by
  rcases exec_cases h with ⟨hs, -⟩ | ⟨-, c, w, a, o, u, rfl, hbad, hcmd, hwr, hcause⟩ | ⟨-, hs, -⟩
  · simp [hf] at hs
  · exact ⟨c, w, rfl, rfl, hbad, hcmd, hwr, hcause⟩
  · simp [State.faulted_congr hs, hf] at ht

/-! ### Which faults -/

/-- The faults that R241 lists for each command. -/
def commandFaults : Instr → List FaultCode
  | .reflect8 | .reflect16 | .reflect32 => [.widthRange, .laneWidth]
  | .tableUpdate _ => [.widthRange, .tableIndex]
  | .crc => [.widthRange, .dataRange, .dataRead]
  | .tableCrc => [.widthRange, .dataRange, .dataRead, .tableIndex]
  | .wr _ _ _ | .rd _ _ => []
  | _ => [.widthRange]

theorem mem_commandFaults (hi : i.isCommand = true) (h : commandFault i s c a) : c ∈ commandFaults i := by
  cases c with
  | illegalCmd | badAccess => exact h.elim
  | widthRange =>
    cases i with
    | wr _ _ _ | rd _ _ => cases hi
    | _ => simp [commandFaults]
  | laneWidth =>
    obtain ⟨-, rfl | rfl | rfl⟩ := h <;> simp [commandFaults]
  | tableIndex =>
    obtain ⟨-, ⟨b, rfl, -⟩ | ⟨rfl, -⟩⟩ := h <;> simp [commandFaults]
  | dataRange =>
    obtain ⟨-, rfl | rfl, -⟩ := h <;> simp [commandFaults]
  | dataRead =>
    obtain ⟨rfl | rfl, -⟩ := h <;> simp [commandFaults]

/-- The FCODE of a command's fault is one that R241 lists for it. -/
theorem exec_command_fcode (hi : i.isCommand = true) (h : exec i s = .next t) (hf : s.faulted = false)
    (ht : t.faulted = true) : t.fcode ∈ (commandFaults i).map FaultCode.number := by
  obtain ⟨c, w, hfault⟩ := exec_tookFault h hf ht
  rw [hfault.fcode]
  exact List.mem_map_of_mem (mem_commandFaults hi (hfault.command hi).2)

/-- A read's fault is BAD_ACCESS (R241). -/
theorem execRd_fcode {z : AccessSize} {off : Offset} (h : execRd z off s = .next t) (hf : s.faulted = false)
    (ht : t.faulted = true) : t.fcode = FaultCode.badAccess.number := by
  rw [execRd_refused hf (execRd_faults hf h ht), Host.Outcome.next.injEq] at h
  rw [← h]
  exact statusWord_fcode ..

/-- A write's fault is BAD_ACCESS, or at CMD ILLEGAL_CMD or the fault of the command that the data encodes (R241). -/
theorem execWr_fcode {z : AccessSize} {off : Offset} {d : Word} (h : execWr z off d s = .next t)
    (hf : s.faulted = false) (ht : t.faulted = true) :
    t.fcode = FaultCode.badAccess.number ∨
    (off = cmdOffset ∧
      ((∃ e, decodeCommand d = .error e ∧ t.fcode = FaultCode.illegalCmd.number) ∨
       ∃ i, decodeCommand d = .ok i ∧ exec i s = .next t)) := by
  have hkept : t.faulted ≠ s.faulted := by simp [hf, ht]
  rcases execWr_cases h with ⟨hs, -⟩ | ⟨-, -, rfl⟩ | ⟨-, -, ⟨-, rfl⟩ | ⟨r, -, -, rfl⟩ | ⟨j, -, rfl⟩ |
    ⟨hoff, e, he, rfl⟩ | ⟨hoff, i, hd, -, hx⟩⟩
  · simp [hf] at hs
  · exact .inl (statusWord_fcode ..)
  · exact absurd rfl hkept
  · exact absurd (s.write_faulted r d) hkept
  · exact absurd (s.writeEntry_faulted j d) hkept
  · exact .inr ⟨hoff, .inl ⟨e, he, statusWord_fcode ..⟩⟩
  · exact .inr ⟨hoff, .inr ⟨i, hd, hx⟩⟩

/-- TABLE_INIT does its work whenever the block is ready, and cannot fault in it (R244). -/
theorem exec_tableInit_not_faulted (hr : s.ready) (h : exec .tableInit s = .next t) : t.faulted = false := by
  rw [State.faulted_congr (s := s) (by rw [(exec_tableInit_next hr h).2])]
  exact hr.1

end Faults

/-- Settles O16: the fault's own record of what it leaves, and TABLE_INIT's work has none. -/
theorem faultsArePreciseAndAtomic : Obligations.FaultsArePreciseAndAtomic := by
  refine ⟨fun i s t h hf ht => ?_, fun s t hr h => exec_tableInit_not_faulted hr h⟩
  obtain ⟨c, w, hfault⟩ := exec_tookFault h hf ht
  exact ⟨hfault.sameWork, c, w, hfault.status, fun hc => (hfault.badAccess hc).1, fun hi => (hfault.command hi).1,
    hfault.write⟩

/-- Settles O17: FCODE names the fault, and each fault of a command says where it was. -/
theorem faddrRecordsWhereTheFaultWas : Obligations.FaddrRecordsWhereTheFaultWas := by
  intro i s t h hf ht haddr
  obtain ⟨c, w, hfault⟩ := exec_tookFault h hf ht
  refine ⟨fun hc => ?_, fun hc => ?_, fun hc => ?_, fun hc => ?_, fun hc => ?_⟩
  · obtain ⟨j, -, -, htop, k, hk, hfaddr, hread⟩ :=
      hfault.command_of_code (c' := .dataRead) hc (by decide) (by decide)
    have h64 : 2 ^ s.addrW ≤ 2 ^ 64 := Nat.pow_le_pow_right (by decide) haddr
    have hnat : t.faddr.toNat = (s.read .addr).toNat + k := by
      rw [hfaddr, BitVec.toNat_ofNat, Nat.mod_eq_of_lt (by omega)]
    rw [hnat]
    exact ⟨hread, by omega, by omega⟩
  · obtain ⟨j, -, hfaddr, -⟩ := hfault.command_of_code (c' := .dataRange) hc (by decide) (by decide)
    exact hfaddr
  · exact (hfault.badAccess (FaultCode.number_injective (hfault.fcode.symm.trans hc))).2
  · obtain ⟨j, hj, hgt, ⟨b, rfl, hidx⟩ | ⟨rfl, hidx⟩⟩ :=
      hfault.command_of_code (c' := .tableIndex) hc (by decide) (by decide)
    · exact ⟨hgt, .inl ⟨b, hj, hidx⟩⟩
    · exact ⟨hgt, .inr ⟨hj, hidx⟩⟩
  · rcases hc with hc | hc | hc
    · obtain rfl : c = .illegalCmd := FaultCode.number_injective (hfault.fcode.symm.trans hc)
      rcases hfault.cause with hbad | ⟨-, hzero⟩ | ⟨j, -, hj⟩
      · cases hbad
      · exact hzero
      · exact hj.elim
    · obtain ⟨j, -, hzero⟩ := hfault.command_of_code (c' := .widthRange) hc (by decide) (by decide)
      exact hzero
    · obtain ⟨j, -, hzero, -⟩ := hfault.command_of_code (c' := .laneWidth) hc (by decide) (by decide)
      exact hzero

/-- Settles O18: R241's list for the commands, and the cases of a host access. -/
theorem eachOperationRaisesOnlyItsFaults : Obligations.EachOperationRaisesOnlyItsFaults := by
  intro i s t h hf ht
  cases i with
  | rd z off => exact execRd_fcode h hf ht
  | wr z off d =>
    refine (execWr_fcode h hf ht).imp id fun ⟨hoff, hcmd⟩ => ⟨hoff, ?_⟩
    rcases hcmd with ⟨e, he, hcode⟩ | ⟨j, hj, hx⟩
    · simp only [he]
      exact hcode
    · simp only [hj]
      exact hx
  | _ => simpa [commandFaults, FaultCode.number] using exec_command_fcode rfl h hf ht

/-- Settles O19: the width check is the first thing in the prologue after FAULT. -/
theorem everyCommandChecksWidthFirst : Obligations.EveryCommandChecksWidthFirst := by
  intro i s hi hf hw
  rw [exec_command_widthRange hi hf hw, State.raiseFault, statusWord_eq]
  rfl

/-- Settles O20: a fault writes STATUS and FADDR, and a result is one of the four kinds. -/
theorem commandsWriteOnlyTheirResults : Obligations.CommandsWriteOnlyTheirResults := by
  intro i s t hi h
  rcases exec_command_cases hi h with ⟨-, rfl⟩ | ⟨-, c, a, u, -, -, rfl⟩ |
    ⟨-, ⟨v, u, rfl, hout⟩ | ⟨v, u, rfl, hnpoly⟩ | ⟨v, u, rfl, hstate⟩ | ⟨T, u, rfl, htable⟩⟩
  · exact ⟨rfl, by simp, by simp, by simp, by simp⟩
  · exact ⟨rfl, by simp, by simp, by simp, by simp⟩
  · exact ⟨rfl, by simp, by simp, by simp, fun _ => hout⟩
  · exact ⟨rfl, fun _ => hnpoly, by simp, by simp, by simp⟩
  · exact ⟨rfl, by simp, fun _ => hstate, by simp, by simp⟩
  · exact ⟨rfl, by simp, by simp, fun _ => htable, by simp⟩

section Sticky

variable {s t : State} {p : Place} {z : AccessSize} {off : Offset}

/-! ### While FAULT = 1 -/

/-- While FAULT = 1 every operation but RD is ignored (R245). -/
theorem exec_of_faulted {i : Instr} (hf : s.faulted = true) (hi : ∀ size off, i ≠ .rd size off) :
    exec i s = .next s := by
  cases hc : i.isCommand with
  | true => exact exec_command_faulted hc hf
  | false =>
    cases i with
    | wr z off d => exact execWr_faulted z off d hf
    | rd z off => exact absurd rfl (hi z off)
    | _ => cases hc

/-- While FAULT = 1 no operation changes STATUS or FADDR (R245). -/
theorem exec_keeps_fault {i : Instr} (hf : s.faulted = true) (h : exec i s = .next t) :
    t.status = s.status ∧ t.faddr = s.faddr := by
  rcases exec_cases h with ⟨-, hs, ha, -⟩ | ⟨hn, -⟩ | ⟨hn, -⟩
  · exact ⟨hs, ha⟩
  · simp [hf] at hn
  · simp [hf] at hn

/-- A read of a readable place returns it and notes what it read (R221). -/
theorem execRd_place (hp : p.allows .read = true) (s : State) :
    execRd .eight (placeOffset p) s = .next ((s.noteReads p.sources).observe (s.readPlace p)) := by
  have ha : admitted .eight (placeOffset p) .read = some p := admitted_eq_some.mpr ⟨rfl, rfl, hp⟩
  rw [execRd, ha]

theorem execRd_refused_faulted (hf : s.faulted = true) (h : admitted z off .read = none) :
    execRd z off s = .next (s.observe 0#64) := by
  simp [execRd, h, hf]

/-- Reading what has been written leaves the record as it was (R250). -/
theorem State.firstUnwritten_of_written {xs : List Source} (h : ∀ x ∈ xs, s.isWritten x = true)
    (seen : Option Source) : s.firstUnwritten seen xs = seen := by
  have hnone : xs.find? (fun x => !s.isWritten x) = none := List.find?_eq_none.mpr fun x hx => by simp [h x hx]
  rw [State.firstUnwritten, hnone, Option.or_none]

theorem State.noteReads_of_written {xs : List Source} (h : ∀ x ∈ xs, s.isWritten x = true) :
    s.noteReads xs = s := by
  rw [State.noteReads, State.firstUnwritten_of_written h]

/-- While FAULT = 1 a read returns a value and may be recorded, and nothing else comes of it (R221, R245). -/
theorem exec_rd_of_faulted (hf : s.faulted = true) (z : AccessSize) (off : Offset) :
    ∃ v u, exec (.rd z off) s = .next { s with observed := s.observed ++ [v], unwrittenRead := u } := by
  obtain ⟨t, ht⟩ := exec_next (.rd z off) s
  rw [ht]
  rcases execRd_cases ht with ⟨-, -, rfl⟩ | ⟨-, hn, -⟩ | ⟨p, -, rfl⟩
  · exact ⟨0#64, s.unwrittenRead, rfl⟩
  · simp [hf] at hn
  · exact ⟨_, _, rfl⟩

end Sticky

/-- Settles O15: only RD gets past FAULT = 1, and only reset clears it. -/
theorem faultsAreStickyUntilReset : Obligations.FaultsAreStickyUntilReset := by
  intro s hf
  refine ⟨fun i => exec_of_faulted hf, fun p hp hw => ?_, fun z off href => ?_, exec_rd_of_faulted hf,
    fun t h hno => ?_, fun rest h => ⟨_, step_reset h, State.resetBlock_faulted _⟩⟩
  · rw [exec_rd, execRd_place hp, State.noteReads_of_written hw]
    rfl
  · exact execRd_refused_faulted hf (admitted_read_eq_none_iff.mpr href)
  · rcases step_cases h with ⟨-, rfl⟩ | ⟨rest, hin, -⟩ | ⟨a, v, rest, -, rfl⟩ | ⟨tr, rest, -, hx⟩
    · exact ⟨rfl, rfl⟩
    · exact absurd hin (hno rest)
    · exact ⟨rfl, rfl⟩
    · exact exec_keeps_fault (s := s.withInputs rest) hf hx

end Sys2Proof.Machine

/-! Host accesses as 49_host_access.md has them: a write stores the whole register or entry (R220), a read returns the
place (R221), and the two agree (20_memory.md R65). -/

namespace Sys2Proof.Machine

section HostAccess

variable {s t : State} {d : Word} {r : DataReg} {p : Place}

/-! ### Writes -/

theorem execWr_reg (hf : s.faulted = false) (hr : r ≠ .out) :
    execWr .eight (regOffset r) d s = .next (s.write r d) := by
  have hallows : (Place.reg r).allows .write = true := by
    cases r with
    | out => exact absurd rfl hr
    | _ => rfl
  have ha : admitted .eight (regOffset r) .write = some (.reg r) := admitted_eq_some.mpr ⟨rfl, rfl, hallows⟩
  simp [execWr, hf, ha]

theorem execWr_entry (hf : s.faulted = false) (i : Byte) :
    execWr .eight (entryOffset i) d s = .next (s.writeEntry i d) := by
  have ha : admitted .eight (entryOffset i) .write = some (.entry i) := admitted_eq_some.mpr ⟨rfl, rfl, rfl⟩
  simp [execWr, hf, ha]

/-- The host's writes of OUT apart, a register write changes one of eight registers (R20, R40). -/
theorem State.write_frame (hr : r ≠ .out) (s : State) (v : Word) :
    s.write r v = { s with
      poly := (s.write r v).poly, iv := (s.write r v).iv, xorout := (s.write r v).xorout
      value := (s.write r v).value, npoly := (s.write r v).npoly, state := (s.write r v).state
      addr := (s.write r v).addr, len := (s.write r v).len } := by
  cases r with
  | out => exact absurd rfl hr
  | _ => rfl

/-! ### A read after a write -/

theorem State.readEntry_writeEntry_same (s : State) (i : Byte) (v : Word) : (s.writeEntry i v).readEntry i = v := by
  rw [State.readEntry, State.entrySlot_writeEntry, if_pos rfl, Slot.read_of]

/-- A read of a readable place that has been written returns it and changes nothing of the block (R221). -/
theorem execRd_written {v : Word} (hp : p.allows .read = true) (hw : ∀ x ∈ p.sources, t.isWritten x = true)
    (hv : t.readPlace p = v) : execRd .eight (placeOffset p) t = .next (t.observe v) := by
  rw [execRd_place hp, State.noteReads_of_written hw, hv]

theorem execRd_write (r : DataReg) (s : State) (v : Word) :
    execRd .eight (regOffset r) (s.write r v) = .next ((s.write r v).observe v) := by
  have hallows : (Place.reg r).allows .read = true := by cases r <;> rfl
  have hw : (s.write r v).isWritten (.reg r) = true := by simp [State.isWritten, State.slot_write]
  have hread : (s.write r v).readPlace (.reg r) = v := (s.read_write r r v).trans (if_pos rfl)
  exact execRd_written (p := .reg r) hallows (by simpa [Place.sources] using hw) hread

theorem execRd_writeEntry (i : Byte) (s : State) (v : Word) :
    execRd .eight (entryOffset i) (s.writeEntry i v) = .next ((s.writeEntry i v).observe v) := by
  have hw : (s.writeEntry i v).isWritten (.entry i) = true := by simp [State.isWritten, State.entrySlot_writeEntry]
  have hread : (s.writeEntry i v).readPlace (.entry i) = v := s.readEntry_writeEntry_same i v
  exact execRd_written (p := .entry i) rfl (by simpa [Place.sources] using hw) hread

end HostAccess

/-- Settles O24: the write of its place, which is one register or one entry. -/
theorem hostWriteStoresTheWholeRegister : Obligations.HostWriteStoresTheWholeRegister := by
  intro s d hf
  refine ⟨fun r hr => ⟨_, execWr_reg hf hr, ?_, fun q hq => ?_, s.write_frame hr d⟩,
    fun i => ⟨_, execWr_entry hf i, ?_, fun j hj => ?_, rfl⟩⟩
  · exact (s.slot_write r r d).trans (if_pos rfl)
  · exact (s.slot_write r q d).trans (if_neg hq)
  · exact (s.entrySlot_writeEntry i i d).trans (if_pos rfl)
  · exact (s.entrySlot_writeEntry i j d).trans (if_neg hj)

/-- Settles O25: an admitted read returns its place, and the others are BAD_ACCESS or, with FAULT = 1, nothing. -/
theorem hostReadReturnsThePlace : Obligations.HostReadReturnsThePlace := by
  intro s
  have hsame : s.noteReads [] = s := State.noteReads_of_written (by simp)
  have hplain (p : Place) (hp : p.allows .read = true) (hs : p.sources = []) :
      exec (.rd .eight (placeOffset p)) s = .next (s.observe (s.readPlace p)) := by
    rw [exec_rd, execRd_place hp, hs, hsame]
  refine ⟨hplain .cfg rfl rfl, hplain .status rfl rfl, hplain .faddr rfl rfl, fun r => ?_,
    fun i => execRd_place (p := .entry i) rfl s, fun z off href => ?_⟩
  · exact execRd_place (p := .reg r) (by cases r <;> rfl) s
  · have ha : admitted z off .read = none := admitted_read_eq_none_iff.mpr href
    rw [exec_rd]
    cases hf : s.faulted with
    | true =>
      rw [execRd_refused_faulted hf ha]
      rfl
    | false =>
      rw [execRd_refused hf ha, State.raiseFault_badAccess]
      rfl

/-- Settles O26: a write that is not refused is of a register or an entry, CFG and CMD aside, and it is read back. -/
theorem writtenRegistersReadBack : Obligations.WrittenRegistersReadBack := by
  intro s t off d hf href hcfg hcmd h
  obtain ⟨p, hp⟩ := Option.ne_none_iff_exists'.mp (mt admitted_write_eq_none_iff.mp href)
  obtain ⟨-, rfl, hallows⟩ := admitted_eq_some.mp hp
  rw [exec_wr] at h
  cases p with
  | cfg => exact absurd rfl hcfg
  | cmd => exact absurd rfl hcmd
  | status | faddr => cases hallows
  | reg r =>
    have hr : r ≠ .out := by
      rintro rfl
      cases hallows
    rw [placeOffset, execWr_reg hf hr, Host.Outcome.next.injEq] at h
    rw [← h]
    exact execRd_write r s d
  | entry i =>
    rw [placeOffset, execWr_entry hf i, Host.Outcome.next.injEq] at h
    rw [← h]
    exact execRd_writeEntry i s d

end Sys2Proof.Machine

/-! The model-only fault UNWRITTEN_READ as 60_exceptions.md has it (R247, R250): the strict step ends at the first
unwritten read of an operation, which the step of the block records and goes past. -/

namespace Sys2Proof.Machine

section UnwrittenReads

variable {s t : State} {x : Source} {i : Instr} {rest : List Input}

/-! ### The record and the strict step -/

theorem strictStep_of_record (h : step s = .next t) (hx : t.unwrittenRead = some x) :
    strictStep s = .fault (.unwrittenRead x) := by
  simp only [strictStep, h, hx]

theorem State.stopsUnwritten_of_step (h : step s = .next t) (hx : t.unwrittenRead = some x) : s.stopsUnwritten x :=
  ⟨strictStep_of_record h hx, t, h, hx⟩

/-- A command that makes the record ends the strict run of a queue that it heads (R250). -/
theorem State.stopsUnwritten_of_exec (hin : s.inputs = .transaction (encode i) :: rest) (hi : i.isCommand = true)
    (h : exec i (s.withInputs rest) = .next t) (hx : t.unwrittenRead = some x) : s.stopsUnwritten x := by
  refine State.stopsUnwritten_of_step (t := t) ?_ hx
  rw [step_transaction hin, decodeTransaction_encode_command hi, h]

@[simp] theorem State.withInputs_isWritten (s : State) (xs : List Input) (y : Source) :
    (s.withInputs xs).isWritten y = s.isWritten y := by
  cases y with
  | reg r => exact congrArg Slot.written (s.withInputs_slot xs r)
  | entry j => rfl

@[simp] theorem State.firstUnwritten_none (s : State) (xs : List Source) :
    s.firstUnwritten none xs = xs.find? fun y => !s.isWritten y := rfl

/-- The record of a command's register reads (R247 step 6). -/
theorem State.recordOf_eq_find (hn : s.unwrittenRead = none) (rs : List DataReg) :
    s.recordOf rs = (rs.find? fun q => !(s.slot q).written).map .reg := by
  rw [State.recordOf, hn, State.firstUnwritten_none, List.find?_map]
  rfl

/-- A command that has passed its checks records the first unwritten register it reads (R247 step 6). -/
theorem exec_command_record (hi : i.isCommand = true) (hr : s.ready) (hl : s.width ≤ commandLane i)
    (h : exec i s = .next t) (hx : s.recordOf (commandReads i) = some x) : t.unwrittenRead = some x := by
  rw [exec_runs hi hr hl, Host.Outcome.next.injEq] at h
  rw [← h]
  exact commandBody_record hx

/-! ### The record of a table walk -/

/-- A table walk over readable bytes records the first unwritten entry that its lookups read, whether it ends well or in
TABLE_INDEX (R247 step 8). -/
theorem State.walkBuffer_table_record (s : State) (d : List Byte) (a : Nat) (w : Walk)
    (h : ∀ k, (hk : k < d.length) → s.memRead (a + k) = some d[k]) :
    walkRecord (s.walkBuffer s.tableStep a d.length w) =
      s.firstUnwritten w.unwritten ((tableReads s.width s.refl s.readEntry w.crc d).map .entry) := by
  induction d generalizing a w with
  | nil => exact (State.firstUnwritten_of_written (by simp [tableReads]) w.unwritten).symm
  | cons b d ih =>
    obtain ⟨hb, hd⟩ := State.memRead_cons.mp h
    rw [List.length_cons, State.walkBuffer, hb, tableReads]
    cases hj : tableIndex s.width s.refl w.crc b with
    | error idx =>
      simp only [State.tableStep, hj]
      exact (State.firstUnwritten_of_written (by simp) w.unwritten).symm
    | ok j =>
      simp only [State.tableStep, hj]
      rw [ih _ _ hd, State.firstUnwritten_append]
      rfl

/-- The record of a walk's first bytes is the record of the whole walk (R247). -/
theorem State.walkBuffer_record_mono {f : Walk → Byte → Except Abort Walk} {a m n : Nat} {w : Walk}
    (hf : ∀ w b, w.unwritten = some x → walkRecord (f w b) = some x) (hm : m ≤ n)
    (h : walkRecord (s.walkBuffer f a m w) = some x) : walkRecord (s.walkBuffer f a n w) = some x := by
  rw [← Nat.add_sub_of_le hm, State.walkBuffer_add]
  cases hw : s.walkBuffer f a m w with
  | error e => rwa [hw] at h
  | ok w' =>
    rw [hw] at h
    exact State.walkBuffer_record hf _ _ w' h

/-- TABLE_CRC, its registers written and its buffer in range, records the first unwritten entry that the lookups of its
readable bytes read (R211, R247 step 8). -/
theorem exec_tableCrc_record {d : List Byte} (hn : s.unwrittenRead = none) (hr : s.ready)
    (hregs : ∀ q ∈ commandReads .tableCrc, (s.slot q).written = true) (hrange : s.bufferInRange)
    (hd : s.bufferStarts d)
    (hx : ((tableReads s.width s.refl s.readEntry (normOf s.width s.refl (s.read .iv)) d).map Source.entry).find?
      (fun y => !s.isWritten y) = some x) (h : exec .tableCrc s = .next t) : t.unwrittenRead = some x := by
  have hrecord : s.recordOf (commandReads .tableCrc) = none := by
    rw [State.recordOf, hn]
    exact State.firstUnwritten_of_written (by simpa [State.isWritten] using hregs) none
  have hwalk := s.walkBuffer_table_record d (s.read .addr).toNat
    { crc := normOf s.width s.refl (s.read .iv), unwritten := none } hd.2
  rw [State.firstUnwritten_none, hx] at hwalk
  have hwhole := State.walkBuffer_record_mono (fun _ _ => State.tableStep_record) hd.1 hwalk
  rw [State.bufferInRange] at hrange
  rw [exec_oneShot (.inr rfl) hr, Host.Outcome.next.injEq] at h
  rw [← h, State.oneShot, if_neg (by simp only [State.noteReads_read, State.noteReads_addrW]; omega),
    State.finishWalk_record (by simp), State.noteReads_walkBuffer]
  simp only [State.noteReads_read, State.noteReads_width, State.noteReads_refl, State.noteReads_unwrittenRead]
  rw [← hwhole, ← hrecord]
  rfl

end UnwrittenReads

/-- Settles O21: each operation records the first unwritten thing it reads, and the strict step ends where there is a
record. -/
theorem unwrittenReadIsTheModelOnlyFault : Obligations.UnwrittenReadIsTheModelOnlyFault := by
  intro s rest hn
  refine ⟨fun p x hp hx hin => ?_, fun c r hc hin hr hl hfind => ?_, fun b j hin hr hst hj hje => ?_,
    fun d j hin hr hregs hrange hd hfind => ?_⟩
  · have hallows : p.allows .read = true := by
      cases p with
      | reg r => cases r <;> rfl
      | entry i => rfl
      | _ => cases hp
    have hread : (s.withInputs rest).readPlace p = s.readPlace p := by
      cases p with
      | reg r => exact s.withInputs_read rest r
      | _ => rfl
    have hstep : step s = .next { s with
        inputs := rest, observed := s.observed ++ [s.readPlace p], unwrittenRead := some x } := by
      have hfirst : (s.withInputs rest).firstUnwritten s.unwrittenRead [x] = some x := by simp [hn, hx]
      rw [step_transaction hin, decodeTransaction_encode_rd, exec_rd, execRd_place hallows, hp, hread, State.noteReads,
        State.withInputs_unwrittenRead, hfirst]
      rfl
    exact ⟨strictStep_of_record hstep rfl, hstep⟩
  · obtain ⟨t, ht⟩ := exec_next c (s.withInputs rest)
    refine State.stopsUnwritten_of_exec hin hc ht (exec_command_record (s := s.withInputs rest) hc hr hl ht ?_)
    rw [State.recordOf_eq_find (s := s.withInputs rest) hn]
    simp [hfind]
  · have hexec := exec_tableUpdate_of_index (s := s.withInputs rest) hr hj
    have hstate : s.isWritten (.reg .state) = true := hst
    have hentry : s.isWritten (.entry j) = false := hje
    exact State.stopsUnwritten_of_exec hin rfl hexec (by simp [hn, hstate, hentry])
  · obtain ⟨t, ht⟩ := exec_next .tableCrc (s.withInputs rest)
    refine State.stopsUnwritten_of_exec hin rfl ht
      (exec_tableCrc_record (s := s.withInputs rest) (d := d) hn hr (by simpa using hregs) hrange hd ?_ ht)
    rw [List.find?_map]
    exact congrArg (Option.map Source.entry) hfind

end Sys2Proof.Machine

/-! Two facts about the engines' bits: the swap network of a lane reverses it (41_reflector.md R137), and the bits that
a non-reflected update tests stay above the CRC field (43_bitwise_update.md R162). -/

namespace Sys2Proof.Machine

section SwapNetwork

variable {n : Nat} {p : Nat × Word} {v : Word}

/-- A stage's mask marks the lower group of every pair of neighbouring groups of `p.1` bits, so that the other group of
the pair is at the offsets with bit `p.1` flipped (R137). -/
def isExchange (p : Nat × Word) : Prop :=
  ∀ i < 64,
    (p.2.getLsbD i = true → i ^^^ p.1 = i + p.1 ∧ (p.1 ≤ i → p.2.getLsbD (i - p.1) = false)) ∧
    (p.2.getLsbD i = false → p.1 ≤ i ∧ i ^^^ p.1 = i - p.1 ∧ p.2.getLsbD (i - p.1) = true)

/-- R137's constants are the masks of their stages. -/
theorem isExchange_of_mem_swapStages : ∀ p ∈ swapStages, isExchange p := by
  unfold isExchange
  decide

/-- A stage swaps the neighbouring groups of `p.1` bits in the lane, and leaves nothing above it (R137). -/
theorem swapStage_getLsbD (hp : isExchange p) (hlane : p.1 < 2 ^ n) (hn : n ≤ 6) (v : Word) (i : Nat) :
    (swapStage (2 ^ n) p.1 p.2 v).getLsbD i = (decide (i < 2 ^ n) && v.getLsbD (i ^^^ p.1)) := by
  have h64 : 2 ^ n ≤ 64 := (Nat.pow_le_pow_right (by decide) hn).trans_eq rfl
  have hmask (j : Nat) : (lowmask (2 ^ n)).getLsbD j = decide (j < 2 ^ n) := by
    rw [lowmask_getLsbD]
    exact decide_eq_decide.mpr (by omega)
  simp only [swapStage, BitVec.getLsbD_or, BitVec.getLsbD_and, BitVec.getLsbD_shiftLeft, BitVec.getLsbD_ushiftRight,
    hmask]
  by_cases hi : i < 2 ^ n
  · obtain ⟨hlow, hhigh⟩ := hp i (by omega)
    cases hm : p.2.getLsbD i with
    | true =>
      obtain ⟨hx, hzero⟩ := hlow hm
      by_cases hle : p.1 ≤ i
      · simp [hi, hx, hzero hle, Nat.add_comm]
      · simp [hi, hx, hle, Nat.add_comm]
    | false =>
      obtain ⟨hle, hx, hone⟩ := hhigh hm
      simp [hi, hx, hone, hle, show i < 64 by omega, show i - p.1 < 2 ^ n by omega]
  · have habove (hle : p.1 ≤ i) (hj : i - p.1 < 2 ^ n) : p.2.getLsbD (i - p.1) = false := by
      by_contra hm
      obtain ⟨hx, -⟩ := (hp (i - p.1) (by omega)).1 (by simpa using hm)
      have hlt : (i - p.1) ^^^ p.1 < 2 ^ n := Nat.xor_lt_two_pow hj hlane
      omega
    by_cases hle : p.1 ≤ i
    · by_cases hj : i - p.1 < 2 ^ n
      · simp [hi, habove hle hj]
      · simp [hi, hj]
    · simp [hi, hle]

/-- Where the stages `l`, one after another, take bit `i` of their result from (R137). -/
def stagesSource (l : List (Nat × Word)) (i : Nat) : Nat := l.foldr (fun p j => j ^^^ p.1) i

theorem stagesSource_lt {l : List (Nat × Word)} (hl : ∀ p ∈ l, p.1 < 2 ^ n) {i : Nat} (hi : i < 2 ^ n) :
    stagesSource l i < 2 ^ n := by
  induction l with
  | nil => exact hi
  | cons p l ih => exact Nat.xor_lt_two_pow (ih fun q hq => hl q (by simp [hq])) (hl p (by simp))

/-- The stages one after another take each bit of the lane from its source, and leave nothing above the lane (R137). -/
theorem stages_getLsbD {l : List (Nat × Word)} (hl : ∀ p ∈ l, isExchange p ∧ p.1 < 2 ^ n) (hn : n ≤ 6)
    (hv : ∀ i, 2 ^ n ≤ i → v.getLsbD i = false) (i : Nat) :
    (l.foldl (fun x p => swapStage (2 ^ n) p.1 p.2 x) v).getLsbD i =
      (decide (i < 2 ^ n) && v.getLsbD (stagesSource l i)) := by
  induction l generalizing v with
  | nil =>
    by_cases hi : i < 2 ^ n
    · simp [stagesSource, hi]
    · simp [hi, hv i (by omega)]
  | cons p l ih =>
    obtain ⟨hp, hlane⟩ := hl p (by simp)
    rw [List.foldl_cons, ih (fun q hq => hl q (by simp [hq])) fun j hj => ?_, swapStage_getLsbD hp hlane hn]
    · by_cases hi : i < 2 ^ n
      · have hlt : stagesSource l i < 2 ^ n := stagesSource_lt (fun q hq => (hl q (by simp [hq])).2) hi
        rw [decide_eq_true hi, decide_eq_true hlt]
        rfl
      · simp [hi]
    · simp [swapStage_getLsbD hp hlane hn, Nat.not_lt.mpr hj]

/-- All stages of a lane take bit `i` from its mirror (R137). -/
theorem stagesSource_mirror {S : Nat} (hS : S = 8 ∨ S = 16 ∨ S = 32 ∨ S = 64) :
    ∀ i < S, stagesSource (swapStages.filter fun p => decide (p.1 < S)) i = S - 1 - i := by
  rcases hS with rfl | rfl | rfl | rfl <;> decide

/-- The swap network of a lane reverses it (R137). -/
theorem swapNetwork_eq_rev {S : Nat} (hS : S = 8 ∨ S = 16 ∨ S = 32 ∨ S = 64) (v : Word) :
    swapNetwork S (v &&& lowmask S) = rev S v := by
  have hmirror := stagesSource_mirror hS
  obtain ⟨n, hn, rfl⟩ : ∃ n ≤ 6, S = 2 ^ n := by
    rcases hS with rfl | rfl | rfl | rfl
    · exact ⟨3, by decide, rfl⟩
    · exact ⟨4, by decide, rfl⟩
    · exact ⟨5, by decide, rfl⟩
    · exact ⟨6, by decide, rfl⟩
  have hstages : ∀ p ∈ swapStages.filter fun p => decide (p.1 < 2 ^ n), isExchange p ∧ p.1 < 2 ^ n := fun p hp => by
    obtain ⟨hmem, hlt⟩ := List.mem_filter.mp hp
    exact ⟨isExchange_of_mem_swapStages p hmem, by simpa using hlt⟩
  apply BitVec.eq_of_getLsbD_eq
  intro i _
  rw [swapNetwork, stages_getLsbD hstages hn fun j hj => by simp [lowmask_getLsbD, Nat.not_lt.mpr hj],
    rev_getLsbD _ _ _ (by omega)]
  by_cases hi : i < 2 ^ n
  · rw [hmirror i hi, BitVec.getLsbD_and, lowmask_getLsbD]
    simp [show 2 ^ n - 1 - i < 2 ^ n ∧ 2 ^ n - 1 - i < 64 by omega]
  · simp [hi]

end SwapNetwork

/-- Settles O30: each stage swaps neighbouring groups, so that all of them mirror the lane, and the lane's shift leaves
the reversal of the low W bits. -/
theorem swapNetworkReversesTheLane : Obligations.SwapNetworkReversesTheLane := by
  intro S W v hS _ hW
  have h64 : S ≤ 64 := by omega
  have hlane : rev S (v &&& lowmask S) >>> (S - W) = rev W v := laneReflect_eq_reflect h64 hW v
  have hlow : rev S (v &&& lowmask S) = rev S v := reflect_and_lowmask h64 v
  rw [swapNetwork_eq_rev hS]
  exact ⟨rfl, hlow ▸ hlane⟩

section ShiftedOut

variable {W B : Nat} {p s : Word} {b : Byte}

/-- `upd` on a non-reflected state, with the width of the CRC field (R160, R162). -/
theorem upd_false_field (hB : B = max W 8) (p s : Word) (b : Byte) :
    upd W false p s b = (microLeft (B - 1) p)^[8] (s ^^^ b.setWidth 64 <<< (B - 8)) := by
  rw [upd_false, hB, show max W 8 - 8 = W - 8 by omega]

/-- A polynomial of the field has no bit above it. -/
theorem getLsbD_of_toNat_lt (hp : p.toNat < 2 ^ B) {i : Nat} (hi : B ≤ i) : p.getLsbD i = false :=
  Nat.testBit_lt_two_pow (hp.trans_le (Nat.pow_le_pow_right (by decide) hi))

/-- The byte enters at the top of the field and not above it. -/
theorem byte_shiftLeft_high (hB : 8 ≤ B) (b : Byte) {i : Nat} (hi : B ≤ i) :
    (b.setWidth 64 <<< (B - 8)).getLsbD i = false := by
  simp [b.getLsbD_of_ge (i - (B - 8)) (by omega)]

/-- The bit a micro-step tests stands just above the field after it (R162). -/
theorem microLeft_tested_bit (hp : p.toNat < 2 ^ B) (hB : 0 < B) (hB64 : B < 64) (x : Word) :
    (microLeft (B - 1) p x).getLsbD B = x.getLsbD (B - 1) := by
  have hshift : (x <<< 1).getLsbD B = x.getLsbD (B - 1) := by
    rw [BitVec.getLsbD_shiftLeft]
    simp [hB64, show ¬ B < 1 by omega]
  unfold microLeft
  split
  · rw [BitVec.getLsbD_xor, hshift, getLsbD_of_toNat_lt hp le_rfl, Bool.xor_false]
  · exact hshift

/-- The bit that micro-step `k` of eight tests ends up `7 - k` places above the field (R162). -/
theorem microLeft_iterate_tested_bit (hp : p.toNat < 2 ^ B) (hB : 0 < B) {k : Nat} (hk : k < 8)
    (h64 : B + 7 - k < 64) (x : Word) :
    ((microLeft (B - 1) p)^[8] x).getLsbD (B + 7 - k) = ((microLeft (B - 1) p)^[k] x).getLsbD (B - 1) := by
  have hsplit : (microLeft (B - 1) p)^[8] x =
      (microLeft (B - 1) p)^[7 - k] (microLeft (B - 1) p ((microLeft (B - 1) p)^[k] x)) := by
    rw [← Function.iterate_succ_apply' (microLeft (B - 1) p) k, ← Function.iterate_add_apply,
      show 7 - k + (k + 1) = 8 by omega]
  rw [hsplit, microLeft_iterate_high (B - 1) (fun i hi => getLsbD_of_toNat_lt hp (by omega)) _ _ _ (by omega),
    show B + 7 - k - (7 - k) = B by omega, microLeft_tested_bit hp hB (by omega)]
  simp [h64]

end ShiftedOut

/-- Settles O36: above the field bits only move up, the eight tested ones last. -/
theorem updateKeepsShiftedOutBits : Obligations.UpdateKeepsShiftedOutBits := by
  intro W B p s b _ _ hB hp
  rw [upd_false_field hB]
  refine ⟨fun j hj hj64 => ?_, fun k hk h64 => microLeft_iterate_tested_bit hp (by omega) hk h64 _⟩
  rw [microLeft_iterate_high (B - 1) (fun i hi => getLsbD_of_toNat_lt hp (by omega)) 8 _ j (by omega),
    BitVec.getLsbD_xor, byte_shiftLeft_high (by omega) b (show B ≤ j - 8 by omega)]
  simp [hj64]

end Sys2Proof.Machine

/-! The one-shot commands as 48_oneshot_table.md and 45_oneshot_bitwise.md have them: TABLE_CRC folds its buffer through
TABLE or meets an index above 255 (R210, R211), the empty buffer (R212), on what CRC depends (R182), and when the two
commands fault apart on a built table (R192, R213). -/

namespace Sys2Proof.Machine

section TableFold

variable {W : Nat} {RF : Bool} {T : Byte → Word} {poly c x iv xo v idx : Word} {b : Byte} {d : List Byte}

/-! ### `tcrc` and where it has no value -/

theorem crcOf_nil (W : Nat) (RF : Bool) (poly iv xo : Word) :
    crcOf W RF poly iv xo [] = fin W RF xo (normOf W RF iv) := rfl

theorem tupdAll_of_tcrcOf_ok (h : tcrcOf W RF T iv xo d = .ok v) :
    ∃ c, tupdAll W RF T (normOf W RF iv) d = .ok c ∧ fin W RF xo c = v := by
  rw [tcrcOf] at h
  cases hc : tupdAll W RF T (normOf W RF iv) d with
  | error idx => simp [hc] at h
  | ok c => exact ⟨c, rfl, by simpa [hc] using h⟩

theorem tupdAll_of_tcrcOf_error (h : tcrcOf W RF T iv xo d = .error idx) :
    tupdAll W RF T (normOf W RF iv) d = .error idx := by
  rw [tcrcOf] at h
  cases hc : tupdAll W RF T (normOf W RF iv) d with
  | error idx => simpa [hc] using h
  | ok c => simp [hc] at h

/-- The whole state is the index up to width 8, so that an index fits a byte exactly when the state does (R200). -/
theorem byte_xor_toNat_lt (b : Byte) (x : Word) : (b.setWidth 64 ^^^ x).toNat < 256 ↔ x.toNat < 256 := by
  have hb : (b.setWidth 64).toNat < 2 ^ 8 := by
    rw [BitVec.toNat_setWidth]
    omega
  constructor
  · intro h
    have hx : x.toNat = ((b.setWidth 64) ^^^ (b.setWidth 64 ^^^ x)).toNat := by simp
    rw [hx, BitVec.toNat_xor]
    exact Nat.xor_lt_two_pow (n := 8) hb h
  · intro h
    rw [BitVec.toNat_xor]
    exact Nat.xor_lt_two_pow (n := 8) hb h

/-- Only the non-reflected engine up to width 8 is without an index, in a state above a byte (R200). -/
theorem le_of_tableIndex_error (h : tableIndex W RF x b = .error idx) : RF = false ∧ W ≤ 8 ∧ 256 ≤ x.toNat := by
  by_contra hc
  have hfit : RF = true ∨ 8 < W ∨ (b.setWidth 64 ^^^ x).toNat ≤ 255 := by
    have hx := byte_xor_toNat_lt b x
    cases RF with
    | true => exact .inl rfl
    | false =>
      have hn : ¬ (W ≤ 8 ∧ 256 ≤ x.toNat) := fun h => hc ⟨rfl, h⟩
      omega
  obtain ⟨j, hj⟩ := exists_tableIndex hfit
  rw [hj] at h
  cases h

/-- A built table leads from a state below 256 to such a state, so that only the state before the first byte can be
without an index (R193, R211 (b)). -/
theorem le_of_tupdAll_tbl_error (h : tupdAll W RF (tbl W RF poly) x d = .error idx) :
    RF = false ∧ W ≤ 8 ∧ 256 ≤ x.toNat := by
  induction d generalizing x with
  | nil => cases h
  | cons b d ih =>
    simp only [tupdAll, tupd] at h
    cases hj : tableIndex W RF x b with
    | error e => exact le_of_tableIndex_error hj
    | ok j =>
      simp only [hj] at h
      obtain ⟨rfl, hW, hge⟩ := ih h
      have hlt := tbl_false_toNat_lt W poly j
      obtain ⟨-, hnarrow, -⟩ := tableIndex_arms (e := tbl W false poly j) hj
      obtain ⟨-, hcombine⟩ := hnarrow rfl hW
      rw [hcombine] at hge
      rw [Nat.max_eq_right hW] at hlt
      omega

/-- Up to width 8 a state above a byte has no index for any first byte (R200, R211 (b)). -/
theorem tupdAll_error_of_le (hW : W ≤ 8) (hx : 256 ≤ x.toNat) (hd : d ≠ []) :
    ∃ idx, tupdAll W false T x d = .error idx := by
  obtain ⟨b, d, rfl⟩ := List.exists_cons_of_ne_nil hd
  have hgt := byte_xor_toNat_lt b x
  refine ⟨b.setWidth 64 ^^^ x, ?_⟩
  simp only [tupdAll, tupd, tableIndex_error hW (show 255 < (b.setWidth 64 ^^^ x).toNat by omega)]

/-- An initial value of the field is below 256 once it is normalized, up to width 8 (R153 (2)). -/
theorem normOf_false_toNat_lt_of_le (hW : W ≤ 8) (hiv : iv.toNat < 2 ^ W) : (normOf W false iv).toNat < 256 := by
  rcases Nat.lt_or_eq_of_le hW with h8 | rfl
  · exact normOf_false_toNat_lt h8 hiv
  · rwa [normOf_false_of_ge le_rfl]

/-- A word is above a byte exactly when it has a bit there. -/
theorem le_toNat_iff_exists_bit (x : Word) : 256 ≤ x.toNat ↔ ∃ j, 8 ≤ j ∧ j < 64 ∧ x.getLsbD j = true := by
  constructor
  · intro h
    obtain ⟨j, hj, hbit⟩ := Nat.exists_ge_and_testBit_of_ge_two_pow (n := 8) h
    exact ⟨j, hj, BitVec.lt_of_getLsbD hbit, hbit⟩
  · rintro ⟨j, hj, -, hbit⟩
    exact (Nat.pow_le_pow_right (n := 2) (by decide) hj).trans (Nat.ge_two_pow_of_testBit hbit)

/-- Which initial values are above a byte once they are normalized, up to width 8 (90_conflicts.md C8). -/
theorem le_normOf_toNat_iff (hW : W ≤ 8) (iv : Word) :
    256 ≤ (normOf W false iv).toNat ↔
      if W = 8 then 256 ≤ iv.toNat else ∃ i, W ≤ i ∧ i ≤ 55 + W ∧ iv.getLsbD i = true := by
  split
  · next h => rw [normOf_false_of_ge h.ge]
  · next h =>
    rw [normOf_false_of_lt (by omega), le_toNat_iff_exists_bit]
    constructor
    · rintro ⟨j, hj, h64, hbit⟩
      rw [BitVec.getLsbD_shiftLeft] at hbit
      simp only [Bool.and_eq_true] at hbit
      exact ⟨j - (8 - W), by omega, by omega, hbit.2⟩
    · rintro ⟨i, hi, hle, hbit⟩
      refine ⟨i + (8 - W), by omega, by omega, ?_⟩
      simp [hbit, show i + (8 - W) < 64 by omega]

end TableFold

section OneShot

variable {s t u : State} {d : List Byte} {c idx poly : Word}

/-! ### TABLE_CRC on a readable buffer -/

/-- The record that TABLE_CRC makes on the bytes `d`: its registers, then the entries its lookups read (R247). -/
def State.tableCrcRecord (s : State) (d : List Byte) : Option Source :=
  s.firstUnwritten (s.recordOf (commandReads .tableCrc))
    ((tableReads s.width s.refl s.readEntry (normOf s.width s.refl (s.read .iv)) d).map .entry)

theorem State.tableCrcRecord_of_written (h : ∀ i : Byte, (s.entrySlot i).written = true) (d : List Byte) :
    s.tableCrcRecord d = s.recordOf (commandReads .tableCrc) := by
  refine State.firstUnwritten_of_written (fun x hx => ?_) _
  obtain ⟨i, -, rfl⟩ := List.mem_map.mp hx
  exact h i

/-- TABLE_CRC on a readable buffer whose lookups all have an index (R210, R211). -/
theorem exec_tableCrc_of_fold (hr : s.ready) (hd : s.bufferHolds d)
    (hc : tupdAll s.width s.refl s.readEntry (normOf s.width s.refl (s.read .iv)) d = .ok c) :
    exec .tableCrc s =
      .next { s with
        out := Slot.of (fin s.width s.refl (s.read .xorout) c), unwrittenRead := s.tableCrcRecord d } := by
  have hd' := (s.noteReads_bufferHolds ((commandReads .tableCrc).map .reg) d).mpr hd
  obtain ⟨-, -, hread⟩ := hd
  have hrecord := s.walkBuffer_table_record d (s.read .addr).toNat
    { crc := normOf s.width s.refl (s.read .iv), unwritten := s.recordOf (commandReads .tableCrc) } hread
  obtain ⟨u, hu⟩ := (s.walkBuffer_table d (s.read .addr).toNat
    { crc := normOf s.width s.refl (s.read .iv), unwritten := s.recordOf (commandReads .tableCrc) } hread).1 c hc
  rw [hu] at hrecord
  change u = s.tableCrcRecord d at hrecord
  subst hrecord
  rw [exec_oneShot (.inr rfl) hr, State.oneShot_walks _ _ _ hd', State.noteReads_walkBuffer]
  simp only [State.noteReads_read, State.noteReads_width, State.noteReads_refl, State.noteReads_unwrittenRead]
  change (s.walkBuffer (s.oneShotStep .tableCrc) _ _ _) = _ at hu
  rw [← State.recordOf, hu]
  rfl

/-- TABLE_CRC on a buffer in whose readable bytes a lookup meets an index above 255 (R211, R247 step 8). -/
theorem exec_tableCrc_of_no_index (hr : s.ready) (hb : s.bufferInRange) (hd : s.bufferStarts d)
    (hidx : tupdAll s.width s.refl s.readEntry (normOf s.width s.refl (s.read .iv)) d = .error idx) :
    255 < idx.toNat ∧
    ∃ u, exec .tableCrc s =
      .next { s with status := statusWord (commandWord .tableCrc) .tableIndex, faddr := idx, unwrittenRead := u } := by
  obtain ⟨hle, hread⟩ := hd
  obtain ⟨u, hu⟩ := (s.walkBuffer_table d (s.read .addr).toNat
    { crc := normOf s.width s.refl (s.read .iv), unwritten := s.recordOf (commandReads .tableCrc) } hread).2 idx hidx
  exact ⟨State.walkBuffer_tableIndex_gt hu rfl, u,
    exec_oneShot_of_walk_error (.inr rfl) hr hb (State.walkBuffer_error_mono hle hu)⟩

/-- TABLE_CRC at a first refused byte, the lookups before it all having an index (R63, R247 step 8). -/
theorem exec_tableCrc_of_refused (hr : s.ready) (hb : s.bufferInRange) (hd : s.bufferStarts d)
    (hlt : d.length < (s.read .len).toNat) (href : s.memRead ((s.read .addr).toNat + d.length) = none)
    (hc : tupdAll s.width s.refl s.readEntry (normOf s.width s.refl (s.read .iv)) d = .ok c) :
    ∃ u, exec .tableCrc s =
      .next { s with
        status := statusWord (commandWord .tableCrc) .dataRead
        faddr := BitVec.ofNat 64 ((s.read .addr).toNat + d.length)
        unwrittenRead := u } := by
  obtain ⟨u, hu⟩ := (s.walkBuffer_table d (s.read .addr).toNat
    { crc := normOf s.width s.refl (s.read .iv), unwritten := s.recordOf (commandReads .tableCrc) } hd.2).1 c hc
  exact ⟨u, exec_oneShot_of_walk_error (.inr rfl) hr hb (State.walkBuffer_refused hlt hu href)⟩

/-- CRC at a first refused byte (R63). -/
theorem exec_crc_of_refused (hr : s.ready) (hb : s.bufferInRange) (hd : s.bufferStarts d)
    (hlt : d.length < (s.read .len).toNat) (href : s.memRead ((s.read .addr).toNat + d.length) = none) :
    exec .crc s =
      .next { s with
        status := statusWord (commandWord .crc) .dataRead
        faddr := BitVec.ofNat 64 ((s.read .addr).toNat + d.length)
        unwrittenRead := s.recordOf (commandReads .crc) } := by
  have hwalk := s.walkBuffer_bitwise s.width s.refl (normOf s.width s.refl (s.read .poly)) d _
    { crc := normOf s.width s.refl (s.read .iv), unwritten := s.recordOf (commandReads .crc) } hd.2
  exact exec_oneShot_of_walk_error (.inl rfl) hr hb (State.walkBuffer_refused hlt hwalk href)
/-! ### What a buffer can be -/

/-- The bytes from `a` up can all be read, or there is a first that cannot (R63). -/
theorem State.readable_or_refused (s : State) (a n : Nat) :
    (∃ d : List Byte, d.length = n ∧ ∀ k, (h : k < d.length) → s.memRead (a + k) = some d[k]) ∨
    ∃ d : List Byte, d.length < n ∧ (∀ k, (h : k < d.length) → s.memRead (a + k) = some d[k]) ∧
      s.memRead (a + d.length) = none := by
  induction n generalizing a with
  | zero => exact .inl ⟨[], rfl, fun k hk => absurd hk (by simp)⟩
  | succ n ih =>
    cases hb : s.memRead a with
    | none => exact .inr ⟨[], by simp, fun k hk => absurd hk (by simp), hb⟩
    | some b =>
      rcases ih (a + 1) with ⟨d, hl, hd⟩ | ⟨d, hl, hd, href⟩
      · exact .inl ⟨b :: d, by simp [hl], State.memRead_cons.mpr ⟨hb, hd⟩⟩
      · refine .inr ⟨b :: d, by simpa using hl, State.memRead_cons.mpr ⟨hb, hd⟩, ?_⟩
        rwa [List.length_cons, show a + (d.length + 1) = a + 1 + d.length by omega]

/-- A readable buffer lies inside the address space (R64). -/
theorem State.bufferHolds.bufferInRange (hd : s.bufferHolds d) : s.bufferInRange := by
  obtain ⟨hlen, htop, -⟩ := hd
  rw [State.bufferInRange]
  omega

theorem State.bufferHolds.bufferStarts (hd : s.bufferHolds d) : s.bufferStarts d := by
  obtain ⟨hlen, -, hread⟩ := hd
  exact ⟨hlen.ge, hread⟩

/-- A buffer passes the top of DMEM, or it can be read, or it has a first refused byte (R63, R64). -/
theorem State.buffer_cases (s : State) :
    (0 < (s.read .len).toNat ∧ 2 ^ s.addrW < (s.read .addr).toNat + (s.read .len).toNat) ∨
    (∃ d, s.bufferHolds d) ∨
    (s.bufferInRange ∧ ∃ d, s.bufferStarts d ∧ d.length < (s.read .len).toNat ∧
      s.memRead ((s.read .addr).toNat + d.length) = none) := by
  by_cases hrange : s.bufferInRange
  · rcases s.readable_or_refused (s.read .addr).toNat (s.read .len).toNat with ⟨d, hl, hd⟩ | ⟨d, hl, hd, href⟩
    · refine .inr (.inl ⟨d, hl.symm, fun _ => ?_, hd⟩)
      rw [State.bufferInRange] at hrange
      omega
    · exact .inr (.inr ⟨hrange, d, ⟨hl.le, hd⟩, hl, href⟩)
  · rw [State.bufferInRange] at hrange
    exact .inl (by omega)

end OneShot

/-- Settles O41: the walk is `tupdAll`, which ends in the state to finalize or in the index that has no entry. -/
theorem tableCrcFoldsTheBuffer : Obligations.TableCrcFoldsTheBuffer := by
  have hdec : decodeCommand 0x09000000#64 = .ok .tableCrc := by decide
  have hstatus : statusWord (commandWord .tableCrc) .tableIndex = 0x0900000000000401#64 := by decide
  refine ⟨hdec, fun s d hr hd => ⟨fun v hv => ?_, fun idx hidx => ?_⟩⟩
  · obtain ⟨c, hc, rfl⟩ := tupdAll_of_tcrcOf_ok hv
    exact ⟨_, exec_tableCrc_of_fold hr hd hc, fun hw => State.tableCrcRecord_of_written hw d⟩
  · rw [← hstatus]
    exact exec_tableCrc_of_no_index hr hd.bufferInRange hd.bufferStarts (tupdAll_of_tcrcOf_error hidx)

/-- Settles O44: the empty buffer is readable, and its fold is the normalized IV. -/
theorem emptyInputGivesTheFinalizedIv : Obligations.EmptyInputGivesTheFinalizedIv := by
  intro s hr hlen
  have hd : s.bufferHolds [] := ⟨by rw [hlen]; rfl, by simp, fun k hk => absurd hk (by simp)⟩
  have hrecord : s.tableCrcRecord [] = s.recordOf (commandReads .tableCrc) :=
    State.firstUnwritten_of_written (by simp [tableReads]) _
  have hfold : tupdAll s.width s.refl s.readEntry (normOf s.width s.refl (s.read .iv)) [] =
      .ok (normOf s.width s.refl (s.read .iv)) := rfl
  have htable := exec_tableCrc_of_fold hr hd hfold
  rw [hrecord] at htable
  have hcrc := exec_crc_of_bufferHolds hr hd
  rw [crcOf_nil] at hcrc
  exact ⟨hcrc, htable⟩

end Sys2Proof.Machine

/-! The laws of the one-shot commands: what CRC depends on (45_oneshot_bitwise.md R182), how long a built table stays
(46_table_builder.md R192), and when TABLE_CRC faults where CRC does not (48_oneshot_table.md R211, R213). -/

namespace Sys2Proof.Machine

section Operands

variable {s t : State} {d : List Byte}

/-! ### What CRC reads -/

/-- The two states hold the same buffer: ADDR, LEN, the address width and every byte of DMEM (R63, R64). -/
structure State.sameBuffer (s t : State) : Prop where
  addr : s.read .addr = t.read .addr
  len : s.read .len = t.read .len
  addrW : s.addrW = t.addrW
  memRead : ∀ a, s.memRead a = t.memRead a

theorem State.sameBuffer.bufferHolds (h : s.sameBuffer t) (hd : s.bufferHolds d) : t.bufferHolds d := by
  simpa only [State.bufferHolds, h.addr, h.len, h.addrW, h.memRead] using hd

theorem State.sameBuffer.bufferStarts (h : s.sameBuffer t) (hd : s.bufferStarts d) : t.bufferStarts d := by
  simpa only [State.bufferStarts, h.addr, h.len, h.memRead] using hd

theorem State.sameBuffer.bufferInRange (h : s.sameBuffer t) (hb : s.bufferInRange) : t.bufferInRange := by
  simpa only [State.bufferInRange, h.addr, h.len, h.addrW] using hb

/-- Readiness is a matter of STATUS and CFG (R245, R246). -/
theorem State.ready_of_eq (hc : s.cfg = t.cfg) (hs : s.status = t.status) (hr : s.ready) : t.ready := by
  simpa only [State.ready, State.faulted, State.width, hc, hs] using hr

/-- Two CRCs that take the same fault at the same place have the same outcome (R182 (3)). -/
theorem crcOutcome_of_status {c : FaultCode} {w : BitVec 32} (hs : s.status = statusWord w c)
    (ht : t.status = statusWord w c) (ha : s.faddr = t.faddr) :
    s.status = t.status ∧ s.faddr = t.faddr ∧ (s.faulted = false → s.out = t.out) := by
  refine ⟨hs.trans ht.symm, ha, fun hf => ?_⟩
  rw [State.faulted_of_status hs] at hf
  cases hf

end Operands

/-- Settles O46: a buffer passes the top, can be read or has a first refused byte, and whichever it is CRC's outcome is
made of its operands. -/
theorem crcDependsOnItsOperandsOnly : Obligations.CrcDependsOnItsOperandsOnly := by
  intro s t s' t' hr hcfg hstatus hfaddr hread haddrW hmem hs ht
  have hrt : t.ready := State.ready_of_eq hcfg hstatus hr
  have hbuf : s.sameBuffer t := ⟨hread .addr (by simp), hread .len (by simp), haddrW, hmem⟩
  rcases s.buffer_cases with ⟨hl, htop⟩ | ⟨d, hd⟩ | ⟨hb, d, hd, hlt, href⟩
  · rw [exec_oneShot_past_top (.inl rfl) hr hl htop, Host.Outcome.next.injEq] at hs
    rw [hbuf.len] at hl
    rw [hbuf.addr, hbuf.len, hbuf.addrW] at htop
    rw [exec_oneShot_past_top (.inl rfl) hrt hl htop, Host.Outcome.next.injEq] at ht
    rw [← hs, ← ht]
    exact crcOutcome_of_status rfl rfl hbuf.addr
  · rw [exec_crc_of_bufferHolds hr hd, Host.Outcome.next.injEq] at hs
    rw [exec_crc_of_bufferHolds hrt (hbuf.bufferHolds hd), Host.Outcome.next.injEq] at ht
    have hout : crcOf s.width s.refl (s.read .poly) (s.read .iv) (s.read .xorout) d =
        crcOf t.width t.refl (t.read .poly) (t.read .iv) (t.read .xorout) d := by
      rw [State.width, State.refl, hcfg, hread .poly (by simp), hread .iv (by simp), hread .xorout (by simp)]
      rfl
    rw [← hs, ← ht]
    exact ⟨hstatus, hfaddr, fun _ => congrArg Slot.of hout⟩
  · rw [exec_crc_of_refused hr hb hd hlt href, Host.Outcome.next.injEq] at hs
    rw [hbuf.len] at hlt
    rw [hbuf.addr, hbuf.memRead] at href
    rw [exec_crc_of_refused hrt (hbuf.bufferInRange hb) (hbuf.bufferStarts hd) hlt href, Host.Outcome.next.injEq] at ht
    rw [← hs, ← ht]
    exact crcOutcome_of_status rfl rfl (by rw [hbuf.addr])

section BuiltTable

variable {s t u : State} {d : List Byte} {idx poly : Word} {i : Instr}

/-! ### How long a table stays -/

/-- No command but TABLE_INIT writes TABLE (R40). -/
theorem exec_command_table (hi : i.isCommand = true) (hne : i ≠ .tableInit) (h : exec i s = .next t) :
    t.table = s.table := by
  obtain ⟨-, -, -, htable, -⟩ := commandsWriteOnlyTheirResults i s t hi h
  exact not_ne_iff.mp (mt htable hne)

/-- A host write below the table that starts no TABLE_INIT leaves TABLE alone (R192, R220). -/
theorem execWr_table {z : AccessSize} {off : Offset} {d : Word} (hoff : off.toNat < 0x800)
    (hcmd : off = cmdOffset → decodeCommand d ≠ .ok .tableInit) (h : execWr z off d s = .next t) :
    t.table = s.table := by
  rcases execWr_cases h with ⟨-, rfl⟩ | ⟨-, -, rfl⟩ | ⟨-, -, ⟨-, rfl⟩ | ⟨r, -, -, rfl⟩ | ⟨j, rfl, -⟩ |
    ⟨-, e, -, rfl⟩ | ⟨rfl, c, hd, hc, hx⟩⟩
  · rfl
  · rfl
  · rfl
  · exact s.write_table r d
  · rw [entryOffset_toNat] at hoff
    omega
  · rfl
  · refine exec_command_table hc ?_ hx
    rintro rfl
    exact hcmd rfl hd

theorem execRd_table {z : AccessSize} {off : Offset} (h : execRd z off s = .next t) : t.table = s.table := by
  rcases execRd_cases h with ⟨-, -, rfl⟩ | ⟨-, -, rfl⟩ | ⟨p, -, rfl⟩ <;> rfl

/-! ### When TABLE_CRC faults apart -/

/-- On a built table only a wide IV, up to width 8 and non-reflected, leads to TABLE_INDEX (R211 (b), R213). -/
theorem State.tableBuiltFor.wide_iv (hT : s.tableBuiltFor poly)
    (h : tupdAll s.width s.refl s.readEntry (normOf s.width s.refl (s.read .iv)) d = .error idx) :
    s.refl = false ∧ s.width ≤ 8 ∧ 2 ^ s.width ≤ (s.read .iv).toNat := by
  rw [hT.readEntry] at h
  obtain ⟨hRF, hW, hge⟩ := le_of_tupdAll_tbl_error h
  refine ⟨hRF, hW, ?_⟩
  by_contra hlt
  have hnorm := normOf_false_toNat_lt_of_le hW (Nat.lt_of_not_le hlt)
  rw [hRF] at hge
  omega

/-- The two states end with FAULT = 0, or with the same FCODE and FADDR (R213). -/
def sameFault (t u : State) : Prop :=
  t.faulted = u.faulted ∧ (t.faulted = true → t.fcode = u.fcode ∧ t.faddr = u.faddr)

theorem sameFault_of_status {c : FaultCode} {w w' : BitVec 32} (ht : t.status = statusWord w c)
    (hu : u.status = statusWord w' c) (ha : t.faddr = u.faddr) : sameFault t u := by
  rw [sameFault, State.faulted_of_status ht, State.faulted_of_status hu, State.fcode_of_status ht,
    State.fcode_of_status hu]
  exact ⟨rfl, fun _ => ⟨rfl, ha⟩⟩

/-- On a built table TABLE_CRC and CRC fault alike, but for TABLE_INDEX from a wide IV (R213). -/
theorem sameFault_or_tableIndex (hr : s.ready) (hT : s.tableBuiltFor poly) (ht : exec .tableCrc s = .next t)
    (hu : exec .crc s = .next u) :
    sameFault t u ∨
      (t.fcode = FaultCode.tableIndex.number ∧ s.refl = false ∧ s.width ≤ 8 ∧ 2 ^ s.width ≤ (s.read .iv).toNat) := by
  rcases s.buffer_cases with ⟨hl, htop⟩ | ⟨d, hd⟩ | ⟨hb, d, hd, hlt, href⟩
  · rw [exec_oneShot_past_top (.inr rfl) hr hl htop, Host.Outcome.next.injEq] at ht
    rw [exec_oneShot_past_top (.inl rfl) hr hl htop, Host.Outcome.next.injEq] at hu
    rw [← ht, ← hu]
    exact .inl (sameFault_of_status rfl rfl rfl)
  · rw [exec_crc_of_bufferHolds hr hd, Host.Outcome.next.injEq] at hu
    cases hc : tupdAll s.width s.refl s.readEntry (normOf s.width s.refl (s.read .iv)) d with
    | ok c =>
      rw [exec_tableCrc_of_fold hr hd hc, Host.Outcome.next.injEq] at ht
      rw [← ht, ← hu]
      exact .inl ⟨rfl, fun _ => ⟨rfl, rfl⟩⟩
    | error idx =>
      obtain ⟨-, v, hv⟩ := exec_tableCrc_of_no_index hr hd.bufferInRange hd.bufferStarts hc
      rw [hv, Host.Outcome.next.injEq] at ht
      rw [← ht]
      exact .inr ⟨statusWord_fcode .., hT.wide_iv hc⟩
  · rw [exec_crc_of_refused hr hb hd hlt href, Host.Outcome.next.injEq] at hu
    cases hc : tupdAll s.width s.refl s.readEntry (normOf s.width s.refl (s.read .iv)) d with
    | ok c =>
      obtain ⟨v, hv⟩ := exec_tableCrc_of_refused hr hb hd hlt href hc
      rw [hv, Host.Outcome.next.injEq] at ht
      rw [← ht, ← hu]
      exact .inl (sameFault_of_status rfl rfl rfl)
    | error idx =>
      obtain ⟨-, v, hv⟩ := exec_tableCrc_of_no_index hr hb hd hc
      rw [hv, Host.Outcome.next.injEq] at ht
      rw [← ht]
      exact .inr ⟨statusWord_fcode .., hT.wide_iv hc⟩

end BuiltTable

/-- Settles O48: TABLE_INIT keeps CFG and POLY, and TABLE has no other writers than TABLE_INIT and the host's writes of
its entries. -/
theorem tableInvariantHoldsUntilRewritten : Obligations.TableInvariantHoldsUntilRewritten := by
  refine ⟨fun s t hr h i => ?_, fun i s t h hne hwr j => ?_⟩
  · obtain ⟨hentries, hframe⟩ := exec_tableInit_next hr h
    have hparams : t.width = s.width ∧ t.refl = s.refl ∧ t.read .poly = s.read .poly := by
      rw [hframe]
      exact ⟨rfl, rfl, rfl⟩
    obtain ⟨hwidth, hrefl, hpoly⟩ := hparams
    rw [hentries, hwidth, hrefl, hpoly]
  · have htable : t.table = s.table := by
      cases i with
      | wr z off d =>
        obtain ⟨hoff, hcmd⟩ := hwr z off d rfl
        exact execWr_table hoff hcmd h
      | rd z off => exact execRd_table h
      | _ => exact exec_command_table rfl hne h
    rw [State.entrySlot, htable, ← State.entrySlot]

/-- Settles O53: the two commands fault alike but for the wide IV. -/
theorem tableCrcFaultsAloneOnlyByTableIndex : Obligations.TableCrcFaultsAloneOnlyByTableIndex := by
  intro s t u hr hT ht hu
  rcases sameFault_or_tableIndex hr hT ht hu with hsame | ⟨hcode, hRF, hW, hwide⟩
  · exact ⟨fun _ => hsame, fun htf huf => by simp [hsame.1, huf] at htf⟩
  · exact ⟨fun hlt => absurd hwide (Nat.not_le.mpr hlt), fun _ _ => ⟨hcode, hRF, hW, hwide⟩⟩

/-- Settles O54: the first lookup decides, and up to width 8 it needs the normalized IV to fit a byte. -/
theorem wideIvIsExactlyTableIndex : Obligations.WideIvIsExactlyTableIndex := by
  intro s t d poly hr hRF hW hT hd hne ht
  rw [← le_normOf_toNat_iff hW, ← hRF]
  cases hc : tupdAll s.width s.refl s.readEntry (normOf s.width s.refl (s.read .iv)) d with
  | ok c =>
    rw [exec_tableCrc_of_fold hr hd hc, Host.Outcome.next.injEq] at ht
    have hf : t.faulted = false := by
      rw [← ht]
      exact hr.1
    have hfits : ¬ 256 ≤ (normOf s.width s.refl (s.read .iv)).toNat := by
      intro hge
      obtain ⟨idx, hidx⟩ := tupdAll_error_of_le (T := s.readEntry) hW hge hne
      rw [hRF] at hc hidx
      rw [hidx] at hc
      cases hc
    simp [hf, hfits]
  | error idx =>
    obtain ⟨-, v, hv⟩ := exec_tableCrc_of_no_index hr hd.bufferInRange hd.bufferStarts hc
    rw [hv, Host.Outcome.next.injEq] at ht
    rw [hT.readEntry] at hc
    obtain ⟨-, -, hge⟩ := le_of_tupdAll_tbl_error hc
    rw [← ht]
    exact ⟨fun _ => statusWord_fcode .., fun _ => hge, fun _ => statusWord_fault ..⟩

end Sys2Proof.Machine

/-! Runs of host programs: the two incremental paths as programs (45_oneshot_bitwise.md R182, 48_oneshot_table.md R213),
and where the spec's run of a program ends (70_reset_and_hazards.md R296, 60_exceptions.md R250). -/

namespace Sys2Proof.Machine

section Programs

variable {s t : State} {i : Instr} {is : List Instr} {d : List Byte} {p c : Word}

/-! ### One instruction of a program after another -/

/-- A program goes on with its next instruction from the state that its first one left, whatever the queue was. -/
theorem runProgram_cons (hi : i.isCommand = true)
    (h : exec i (s.withInputs (program is)) = .next (t.withInputs (program is))) :
    runProgram (i :: is) s = runProgram is t := by
  have hstep : step (s.withInputs (program (i :: is))) = .next (t.withInputs (program is)) := by
    rw [step_transaction (t := encode i) (rest := program is) rfl, decodeTransaction_encode_command hi]
    exact h
  exact stepN_succ hstep

theorem runProgram_nil (s : State) : runProgram [] s = .next (s.withInputs []) := rfl

theorem runProgram_setupPoly (hr : s.ready) (is : List Instr) :
    runProgram (.setupPoly :: is) s = runProgram is { s with
      npoly := Slot.of (normOf s.width s.refl (s.read .poly)), unwrittenRead := s.recordOf [.poly] } :=
  runProgram_cons rfl (exec_setupPoly_of_ready (s := s.withInputs (program is)) hr)

theorem runProgram_setupState (hr : s.ready) (is : List Instr) :
    runProgram (.setupState :: is) s = runProgram is { s with
      state := Slot.of (normOf s.width s.refl (s.read .iv)), unwrittenRead := s.recordOf [.iv] } :=
  runProgram_cons rfl (exec_setupState_of_ready (s := s.withInputs (program is)) hr)

theorem runProgram_setup (hr : s.ready) (is : List Instr) :
    ∃ u, runProgram (pseudoSetup ++ is) s = runProgram is { s with
      npoly := Slot.of (normOf s.width s.refl (s.read .poly)), state := Slot.of (normOf s.width s.refl (s.read .iv))
      unwrittenRead := u } :=
  ⟨_, (runProgram_setupPoly hr (.setupState :: is)).trans
    (runProgram_setupState (by exact hr) is)⟩

theorem runProgram_update (hr : s.ready) (b : Byte) (is : List Instr) :
    runProgram (.update b :: is) s = runProgram is { s with
      state := Slot.of (upd s.width s.refl (s.read .npoly) (s.read .state) b)
      unwrittenRead := s.recordOf [.npoly, .state] } :=
  runProgram_cons rfl (exec_update_of_ready (s := s.withInputs (program is)) b hr)

theorem runProgram_result (hr : s.ready) :
    runProgram [.result] s = .next { s with
      out := Slot.of (fin s.width s.refl (s.read .xorout) (s.read .state)), inputs := []
      unwrittenRead := s.recordOf [.xorout, .state] } := by
  have hexec := exec_result_of_ready (s := s.withInputs (program [])) hr
  rw [← fin_eq_finField_xor] at hexec
  exact runProgram_cons (t := { s with
      out := Slot.of (fin s.width s.refl (s.read .xorout) (s.read .state))
      unwrittenRead := s.recordOf [.xorout, .state] }) rfl hexec

/-- A register that has been written reads as the bits written (R14, R41). -/
theorem State.read_of_slot {r : DataReg} (h : s.slot r = Slot.of c) : s.read r = c := by
  rw [State.read, h, Slot.read_of]

/-! ### The bitwise path -/

/-- UPDATE for each byte folds `upd` over STATE (R160, R161). -/
theorem runProgram_feed (hr : s.ready) (hp : s.npoly = Slot.of p) (hc : s.state = Slot.of c) (d : List Byte)
    (is : List Instr) :
    ∃ u, runProgram (pseudoFeed d ++ is) s =
      runProgram is { s with state := Slot.of (d.foldl (upd s.width s.refl p) c), unwrittenRead := u } := by
  induction d generalizing s c with
  | nil => exact ⟨s.unwrittenRead, by rw [List.foldl_nil, ← hc]; rfl⟩
  | cons b d ih =>
    have hfirst := runProgram_update hr b (pseudoFeed d ++ is)
    rw [State.read_of_slot (r := .npoly) hp, State.read_of_slot (r := .state) hc] at hfirst
    obtain ⟨u, hrest⟩ := ih (s := { s with
      state := Slot.of (upd s.width s.refl p c b), unwrittenRead := s.recordOf [.npoly, .state] }) hr hp rfl
    exact ⟨u, hfirst.trans hrest⟩

/-- SETUP_POLY, SETUP_STATE, UPDATE per byte and RESULT leave `crc` of the bytes in OUT (R182 (2)). -/
theorem runProgram_bitwisePath (hr : s.ready) (d : List Byte) :
    ∃ n c u, runProgram (pseudoSetup ++ pseudoFeed d ++ [.result]) s =
      .next { s with
        npoly := n, state := c
        out := Slot.of (crcOf s.width s.refl (s.read .poly) (s.read .iv) (s.read .xorout) d)
        inputs := [], unwrittenRead := u } := by
  obtain ⟨r, hsetup⟩ := runProgram_setup hr (pseudoFeed d ++ [.result])
  obtain ⟨u, hfeed⟩ := runProgram_feed (s := { s with
      npoly := Slot.of (normOf s.width s.refl (s.read .poly)), state := Slot.of (normOf s.width s.refl (s.read .iv))
      unwrittenRead := r }) hr rfl rfl d [.result]
  exact ⟨_, _, _, hsetup.trans (hfeed.trans (runProgram_result (by exact hr)))⟩

/-! ### The table path -/

/-- A program of commands leaves a faulted block faulted (R245). -/
theorem runProgram_faulted (his : ∀ i ∈ is, i.isCommand = true) (hf : s.faulted = true) :
    runProgram is s = .next (s.withInputs []) := by
  induction is with
  | nil => rfl
  | cons i is ih =>
    rw [runProgram_cons (t := s) (his i (by simp)) (exec_command_faulted (his i (by simp)) hf)]
    exact ih fun j hj => his j (by simp [hj])

/-- TABLE_UPDATE with an index (R201). -/
theorem runProgram_tableUpdate {b j : Byte} (hr : s.ready) (hc : s.state = Slot.of c)
    (hj : tableIndex s.width s.refl c b = .ok j) (is : List Instr) :
    runProgram (.tableUpdate b :: is) s = runProgram is { s with
      state := Slot.of (tableCombine s.width s.refl (s.readEntry j) c)
      unwrittenRead := s.firstUnwritten s.unwrittenRead [.reg .state, .entry j] } := by
  rw [← State.read_of_slot (s := s) (r := .state) hc] at hj ⊢
  exact runProgram_cons rfl (exec_tableUpdate_of_index (s := s.withInputs (program is)) hr hj)

/-- TABLE_UPDATE without one ends every run of commands with FAULT = 1 (R201, R245). -/
theorem runProgram_tableUpdate_faults {b : Byte} {idx : Word} (hr : s.ready) (hc : s.state = Slot.of c)
    (hj : tableIndex s.width s.refl c b = .error idx) (his : ∀ i ∈ is, i.isCommand = true)
    (h : runProgram (.tableUpdate b :: is) s = .next t) : t.faulted = true := by
  rw [← State.read_of_slot (s := s) (r := .state) hc] at hj
  have hfirst := runProgram_cons (is := is) (t := { s with unwrittenRead := s.recordOf [.state] }.raiseFault .tableIndex
    (commandWord (.tableUpdate b)) idx) rfl (exec_tableUpdate_of_no_index (s := s.withInputs (program is)) hr hj)
  rw [hfirst, runProgram_faulted his (State.raiseFault_faulted ..), Host.Outcome.next.injEq] at h
  rw [← h, State.withInputs_faulted, State.raiseFault_faulted]

/-- TABLE_UPDATE for each byte folds `tupd` over STATE, in a run that does not fault (R200, R201). -/
theorem runProgram_tfeed (hr : s.ready) (hc : s.state = Slot.of c) (his : ∀ i ∈ is, i.isCommand = true)
    (h : runProgram (pseudoTfeed d ++ is) s = .next t) (hf : t.faulted = false) :
    ∃ c' u, tupdAll s.width s.refl s.readEntry c d = .ok c' ∧
      runProgram is { s with state := Slot.of c', unwrittenRead := u } = .next t := by
  induction d generalizing s c with
  | nil =>
    refine ⟨c, s.unwrittenRead, rfl, ?_⟩
    rw [← hc]
    exact h
  | cons b d ih =>
    cases hj : tableIndex s.width s.refl c b with
    | ok j =>
      have hfirst := runProgram_tableUpdate hr hc hj (pseudoTfeed d ++ is)
      obtain ⟨c', u, hfold, hrest⟩ := ih (s := { s with
        state := Slot.of (tableCombine s.width s.refl (s.readEntry j) c)
        unwrittenRead := s.firstUnwritten s.unwrittenRead [.reg .state, .entry j] }) hr rfl (hfirst.symm.trans h)
      refine ⟨c', u, ?_, hrest⟩
      rw [tupdAll, tupd, hj]
      exact hfold
    | error idx =>
      have hall : ∀ i ∈ pseudoTfeed d ++ is, i.isCommand = true := by
        intro i hi
        rcases List.mem_append.mp hi with hi | hi
        · obtain ⟨b', -, rfl⟩ := List.mem_map.mp hi
          rfl
        · exact his i hi
      have htf := runProgram_tableUpdate_faults hr hc hj hall h
      rw [hf] at htf
      cases htf

/-- SETUP_STATE, TABLE_UPDATE per byte and RESULT leave `tcrc` of the bytes in OUT, in a run that does not fault
(R213). -/
theorem runProgram_tablePath (hr : s.ready) (h : runProgram ([.setupState] ++ pseudoTfeed d ++ [.result]) s = .next t)
    (hf : t.faulted = false) :
    ∃ v, tcrcOf s.width s.refl s.readEntry (s.read .iv) (s.read .xorout) d = .ok v ∧ t.out = Slot.of v := by
  have hsetup := runProgram_setupState hr (pseudoTfeed d ++ [.result])
  obtain ⟨c, u, hfold, hrest⟩ := runProgram_tfeed (s := { s with
    state := Slot.of (normOf s.width s.refl (s.read .iv)), unwrittenRead := s.recordOf [.iv] }) hr rfl
    (by simp [Instr.isCommand]) (hsetup.symm.trans h) hf
  refine ⟨fin s.width s.refl (s.read .xorout) c, ?_, ?_⟩
  · rw [tcrcOf, show tupdAll s.width s.refl s.readEntry (normOf s.width s.refl (s.read .iv)) d = .ok c from hfold]
  · have hlast := hrest.symm.trans (runProgram_result (by exact hr))
    rw [Host.Outcome.next.inj hlast]
    rfl

end Programs

/-- Settles O45: the program folds the bytes as CRC does, and writes NPOLY and STATE on the way. -/
theorem incrementalBitwisePathEqualsCrc : Obligations.IncrementalBitwisePathEqualsCrc := by
  intro s d hr hd
  obtain ⟨n, c, u, hrun⟩ := runProgram_bitwisePath hr d
  exact ⟨_, _, exec_crc_of_bufferHolds hr hd, hr.1, hrun, rfl, rfl⟩

/-- Settles O55: on a built table `tcrc` is `crc` wherever it has a value. -/
theorem incrementalTablePathEqualsBitwisePath : Obligations.IncrementalTablePathEqualsBitwisePath := by
  intro s t d hr hT h hf
  obtain ⟨v, hv, hout⟩ := runProgram_tablePath hr h hf
  obtain ⟨n, c, u, hrun⟩ := runProgram_bitwisePath hr d
  rw [hT.readEntry] at hv
  refine ⟨_, hrun, hr.1, ?_⟩
  rw [hout, ← crcOf_eq_of_tcrcOf_tbl hr.2.2 hv]

section Runs

variable {s : State}

/-! ### The spec's run beside the block's -/

theorem stepN_next (n : Nat) (s : State) : ∃ t, stepN n s = .next t := by
  induction n generalizing s with
  | zero => exact ⟨s, rfl⟩
  | succ n ih =>
    obtain ⟨u, hu⟩ := step_next s
    rw [stepN_succ hu]
    exact ih u

/-- The strict run of `n` operations from `s` ends at the first of them that reads something unwritten, which is `x`, in
the state before it (R250, R296). -/
def endsAtUnwrittenRead (n : Nat) (s : State) (x : Source) : Prop :=
  ∃ k u, k < n ∧ stepN k s = .next u ∧ u.unwrittenRead = none ∧ strictStep u = .fault (.unwrittenRead x) ∧
    strictRun n s = .fault (.unwrittenRead x) u

/-- The strict run and the block's run are one until the first unwritten read, which stays on record (R250). -/
theorem strictRun_cases (n : Nat) (hn : s.unwrittenRead = none) :
    ∃ t, stepN n s = .next t ∧
      ((t.unwrittenRead = none ∧ strictRun n s = .completed t) ∨
       ∃ x, t.unwrittenRead = some x ∧ endsAtUnwrittenRead n s x) := by
  induction n generalizing s with
  | zero => exact ⟨s, rfl, .inl ⟨hn, rfl⟩⟩
  | succ n ih =>
    obtain ⟨s₁, hs₁⟩ := step_next s
    rcases strictStep_cases s hs₁ with ⟨hnone, hstrict⟩ | ⟨x, hx, hstrict⟩
    · obtain ⟨t, ht, hend⟩ := ih hnone
      refine ⟨t, (stepN_succ hs₁).trans ht, ?_⟩
      rw [strictRun_succ_next hstrict]
      refine hend.imp id fun ⟨x, hx, k, u, hk, hu, hun, hfault, hrun⟩ =>
        ⟨x, hx, k + 1, u, by omega, ?_, hun, hfault, ?_⟩
      · exact (stepN_succ hs₁).trans hu
      · exact (strictRun_succ_next hstrict).trans hrun
    · obtain ⟨t, ht⟩ := stepN_next n s₁
      exact ⟨t, (stepN_succ hs₁).trans ht, .inr ⟨x, stepN_record ht hx, 0, s, by omega, rfl, hn, hstrict,
        strictRun_succ_fault hstrict⟩⟩

end Runs

/-- Settles O56: the block's run over the program, and the strict run that it agrees with up to the first unwritten
read. -/
theorem runsEndAtTheFirstUnwrittenRead : Obligations.RunsEndAtTheFirstUnwrittenRead := by
  intro is s hn
  obtain ⟨t, ht, ⟨hnone, hrun⟩ | ⟨x, hx, k, u, hk, hu, hun, hfault, hrun⟩⟩ :=
    strictRun_cases (s := s.withInputs (program is)) is.length hn
  · refine ⟨t, ht, ?_, fun _ => hrun, fun y hy => ?_⟩
    · rw [hostRun, hrun, State.runFaulted, hnone]
      simp [RunEnd.faulted]
    · rw [hnone] at hy
      cases hy
  · refine ⟨t, ht, ?_, fun hnone => ?_, fun y hy => ?_⟩
    · rw [hostRun, hrun, State.runFaulted, hx]
      simp [RunEnd.faulted]
    · rw [hx] at hnone
      cases hnone
    · rw [hx] at hy
      cases hy
      exact ⟨k, u, hk, hu, hun, hfault, hrun⟩

end Sys2Proof.Machine
